-- ==== Sys2Proof/Word.lean ====
section
/-! DEFINITION. The widths of the hardware's words (00_scope.md R8, R9). Every value is unsigned. -/

namespace Sys2Proof

/-- One logical byte, 8 bits. -/
abbrev Byte := BitVec 8

/-- The contents of one physical word cell, `WORD_W` = 16 bits. -/
abbrev CellWord := BitVec 16

/-- A presented address `loc`, `ADDR_IN_W` = 16 bits, before reduction. -/
abbrev Loc := BitVec 16

/-- A logical byte offset, `LOG_AW` = 12 bits. -/
abbrev Offset := BitVec 12

/-- A word index, `WIDX_W` = 11 bits. -/
abbrev WordIndex := BitVec 11

/-- Write data and read data, `DATA_W` = 32 bits. -/
abbrev Data := BitVec 32

/-- A block byte count or a byte index, `CNT_W` = 16 bits. -/
abbrev Count := BitVec 16

/-- A command code `cmd`, 4 bits (30_encoding.md R81). -/
abbrev CmdCode := BitVec 4

/-- The canonical request word `REQ`, 68 bits (30_encoding.md R89). -/
abbrev ReqWord := BitVec 68

end Sys2Proof
end

