-- ==== Sys2Proof/Config.lean ====
section
/-! DEFINITION. What an implementation fixes (00_scope.md R8) and the free values (R12 "draw"). The constants without
a body have no value any proof can see: a claim about them holds for every value. -/

namespace Sys2Proof.Config

open Sys2Proof

/-- `LOG_SIZE`: the number of logical byte offsets (00_scope.md R8). -/
def logSize : Nat := 4096

/-- `NWORDS`: the number of physical word cells (00_scope.md R8). -/
def nWords : Nat := 2048

/-- `STATUS_W` less one. The width of the store's init status code is OPEN (R8); it is at least 1, because R100 tells the
OK code from "any other value". DEDUCED, log entry 7. -/
opaque statusWidthLessOne : Nat

/-- `STATUS_W`, OPEN (00_scope.md R8). -/
def statusWidth : Nat := statusWidthLessOne + 1

/-- `STORE_OK`: the store's OK status code, OPEN (00_scope.md R8). -/
opaque storeOk : BitVec statusWidth

/-- `STORE_LATENCY`, OPEN (00_scope.md R8). No definition reads it: no rule depends on it (70_reset_and_hazards.md R192). -/
opaque storeLatency : Nat

/-- The code the Store's `init` answers at launch: nothing in the spec fixes it. Log entry 7. -/
opaque launchStatus : BitVec statusWidth

/-- The word of draw number `d`: a free 16-bit value under no law (00_scope.md R12, 20_memory.md R68). Log entry 5. -/
opaque draw : Nat → CellWord

/-- The byte an unlisted offset holds after the unconstrained write numbered `d` (20_memory.md R68). Log entry 6. -/
opaque lostByte : Nat → Nat → Byte

/-- The byte at offset `a` at launch where the state lists none. DESIGN CHOICE, unsafe: the launch contents are a
parameter (10_state.md R32), given by the bytes a state lists. Log entry 4. -/
def launchByte (_a : Nat) : Byte := 0

/-- The code `INIT_FAIL` of the diagnostic event (40_init.md R100, 60_exceptions.md R161). -/
def initFailCode : Nat := 1

end Sys2Proof.Config
end

