-- ==== Sys2Proof/Syntax.lean ====
section
/-! DEFINITION. The request (30_encoding.md R80) and the commands (R82): one constructor per row of spec/opcode_table.json. -/

namespace Sys2Proof

/-- The one transfer on the request channel that is a command: the four fields of 30_encoding.md R80. -/
structure Request where
  /-- the command code, `REQ[3:0]` -/
  cmd : CmdCode
  /-- the presented address, `REQ[19:4]` -/
  addr : Loc
  /-- the value to write, `REQ[51:20]` -/
  wdata : Data
  /-- the byte count, `REQ[67:52]` -/
  count : Count
deriving DecidableEq, Repr

/-- The commands of 30_encoding.md R82, reserved codes included. Each carries the three operand fields its request
presented (R88: the Host always presents all of them); which of them a command reads is R84 and stands in its meaning. -/
inductive Instr where
  /-- `0x0` RD8: read one byte (41_byte_access.md R110). -/
  | rd8 (addr : Loc) (wdata : Data) (count : Count)
  /-- `0x1` WR8: write one byte (41_byte_access.md R111). -/
  | wr8 (addr : Loc) (wdata : Data) (count : Count)
  /-- `0x2` RD16: read a 2-byte value (42_multibyte_access.md R121). -/
  | rd16 (addr : Loc) (wdata : Data) (count : Count)
  /-- `0x3` WR16: write a 2-byte value (42_multibyte_access.md R123). -/
  | wr16 (addr : Loc) (wdata : Data) (count : Count)
  /-- `0x4` RD32: read a 4-byte value (42_multibyte_access.md R122). -/
  | rd32 (addr : Loc) (wdata : Data) (count : Count)
  /-- `0x5` WR32: write a 4-byte value (42_multibyte_access.md R124). -/
  | wr32 (addr : Loc) (wdata : Data) (count : Count)
  /-- `0x6` RDBLK: read `count` bytes to the destination stream (43_block_access.md R141). -/
  | rdblk (addr : Loc) (wdata : Data) (count : Count)
  /-- `0x7` WRBLK: write `count` bytes from the source stream (43_block_access.md R143). -/
  | wrblk (addr : Loc) (wdata : Data) (count : Count)
  /-- `0x8` INIT: initialise the store (40_init.md R100). -/
  | init (addr : Loc) (wdata : Data) (count : Count)
  /-- `0x9` reserved (30_encoding.md R86). -/
  | reserved9 (addr : Loc) (wdata : Data) (count : Count)
  /-- `0xA` reserved (30_encoding.md R86). -/
  | reservedA (addr : Loc) (wdata : Data) (count : Count)
  /-- `0xB` reserved (30_encoding.md R86). -/
  | reservedB (addr : Loc) (wdata : Data) (count : Count)
  /-- `0xC` reserved (30_encoding.md R86). -/
  | reservedC (addr : Loc) (wdata : Data) (count : Count)
  /-- `0xD` reserved (30_encoding.md R86). -/
  | reservedD (addr : Loc) (wdata : Data) (count : Count)
  /-- `0xE` reserved (30_encoding.md R86). -/
  | reservedE (addr : Loc) (wdata : Data) (count : Count)
  /-- `0xF` reserved (30_encoding.md R86). -/
  | reservedF (addr : Loc) (wdata : Data) (count : Count)
deriving DecidableEq, Repr

end Sys2Proof
end

