-- ==== Sys2Proof/Machine/State.lean ====
section
/-! DEFINITION. The state of the machine: the Controller's in-flight registers (10_state.md R23), the Store's state that
the rules read (R32), what Host and Store have offered (00_scope.md R7), and the observation of the run (R14). Plain data. -/

namespace Sys2Proof.Machine

open Sys2Proof

/-- The Controller's phase `x[ph]` (10_state.md R24). -/
inductive Phase where
  /-- `IDLE`: waiting for a request -/
  | idle
  /-- `INIT`: the store init of an INIT -/
  | init
  /-- `FETCH`: the next byte to write is taken -/
  | fetch
  /-- `RMW_RD`: the store read of a byte write -/
  | rmwRd
  /-- `RMW_WR`: the store write of a byte write -/
  | rmwWr
  /-- `RD`: the store read of a byte read -/
  | rd
  /-- `DST`: a destination byte is delivered -/
  | dst
  /-- `RESP`: the response -/
  | resp
deriving DecidableEq, Repr

/-- The channels whose transfers take time and can be in progress (10_state.md R35). -/
inductive Channel where
  /-- the store port: `init`, `read` or `write` -/
  | storePort
  /-- the source stream (WRBLK) -/
  | source
  /-- the destination stream (RDBLK) -/
  | destination
  /-- the response channel -/
  | response
deriving DecidableEq, Repr

/-- The in-flight registers `x[...]` of the Controller (10_state.md R23). -/
structure InFlight where
  /-- `x[ph]`, the phase -/
  ph : Phase
  /-- `x[op]`, the command code -/
  op : CmdCode
  /-- `x[base]`, the presented address, not reduced -/
  base : Loc
  /-- `x[wdata]`, the write data -/
  wdata : Data
  /-- `x[n]`, the number of single-byte operations -/
  n : Count
  /-- `x[k]`, the byte index -/
  k : Count
  /-- `x[acc]`, the read data being assembled -/
  acc : Data
  /-- `x[cur]`, the byte just read or to be written -/
  cur : Byte
  /-- `x[old]`, the word read back for read-modify-write -/
  old : CellWord
  /-- `x[ok]`, whether the store's init status equals `STORE_OK` -/
  ok : Bool
deriving DecidableEq, Repr

/-- The registers after a reset: `x[ph]` is IDLE (10_state.md R35, 70_reset_and_hazards.md R181). The others are
unspecified there; zero is the model's choice (DESIGN CHOICE, log entry 3). -/
def InFlight.reset : InFlight :=
  { ph := .idle, op := 0, base := 0, wdata := 0, n := 0, k := 0, acc := 0, cur := 0, old := 0, ok := false }

/-- `store.status` (10_state.md R32). -/
inductive StoreStatus where
  /-- no INIT since power-up -/
  | uninit
  /-- the last `StoreInit` returned `STORE_OK` -/
  | ok
  /-- the last `StoreInit` returned another code -/
  | failed
deriving DecidableEq, Repr

/-- A status code of the store's `init`, `STATUS_W` bits (20_memory.md R66): the OK code by its name, or a code given by
its bits. Log entry 7. -/
inductive StatusCode where
  /-- `STORE_OK` -/
  | storeOk
  /-- the code `c` -/
  | other (c : BitVec Config.statusWidth)
deriving DecidableEq, Repr

/-- The byte space `0 .. 4095` (10_state.md R29) as the bytes listed: offsets strictly rising, none equal to what an
unlisted offset reads as. `lost` is the number of the last store write whose effect on the cells nothing constrains
(20_memory.md R68), `none` if there was none. -/
structure Memory where
  /-- the listed bytes -/
  cells : List Host.Cell
  /-- the last unconstrained write -/
  lost : Option Nat
deriving DecidableEq, Repr

/-- Nothing listed. -/
def Memory.empty : Memory := { cells := [], lost := none }

/-- The Store's state that the block's rules read (10_state.md R32). -/
structure Store where
  /-- `store.status` -/
  status : StoreStatus
  /-- `store.cells`, as bytes: cell `i` is the bytes at `2i` (low) and `2i + 1` (high) -/
  mem : Memory
deriving DecidableEq, Repr

/-- How many more transfers an agent makes before it stops answering (60_exceptions.md R173). Log entry 10. -/
inductive Readiness where
  /-- it makes every transfer the Controller waits for -/
  | always
  /-- it makes `n` more -/
  | times (n : Nat)
deriving DecidableEq, Repr

/-- What drives the reset input (70_reset_and_hazards.md R180). -/
inductive ResetCause where
  /-- a reset of the block alone (R181, R182) -/
  | blockReset
  /-- loss of power and its return (R185) -/
  | powerLoss
deriving DecidableEq, Repr

/-- What the Host and the Store have offered and the Controller has not used (00_scope.md R7). -/
structure Env where
  /-- the requests presented and not accepted, the first at the request channel (30_encoding.md R80) -/
  requests : List Request
  /-- the source bytes the Host will supply, in order (43_block_access.md R142) -/
  source : List Byte
  /-- the store transfers the Store will complete -/
  storeReady : Readiness
  /-- the destination bytes the Host will take -/
  dstReady : Readiness
  /-- the responses the Host will take -/
  rspReady : Readiness
  /-- the code the Store's `init` will answer (20_memory.md R66) -/
  initAnswer : StatusCode
  /-- the reset input, when asserted -/
  resetLine : Option ResetCause
deriving DecidableEq, Repr

/-- The reasons of `raise Refuse` (60_exceptions.md R162). -/
inductive RefuseReason where
  /-- a reserved code (30_encoding.md R86) -/
  | reservedCommand
  /-- an INIT after an earlier INIT (40_init.md R103) -/
  | repeatedInit
  /-- another agent wrote the store (70_reset_and_hazards.md R189) -/
  | concurrentStoreMaster
deriving DecidableEq, Repr

/-- The refused mark: "naming the reason and the command" (60_exceptions.md R162). -/
structure RefusedMark where
  /-- the reason -/
  reason : RefuseReason
  /-- the code of the command, `none` where the reason arose with no command in flight (log entry 16) -/
  cmd : Option CmdCode
deriving DecidableEq, Repr

/-- One event of the event history (00_scope.md R14). -/
inductive Event where
  /-- a request accepted -/
  | request (r : Request)
  /-- `StoreInit()` returned the code -/
  | storeInit (code : StatusCode)
  /-- `StoreRead(i)` returned `w` -/
  | storeRead (i : WordIndex) (w : CellWord)
  /-- `StoreWrite(i, w)` completed -/
  | storeWrite (i : WordIndex) (w : CellWord)
  /-- source byte `k` was taken -/
  | source (k : Count) (b : Byte)
  /-- destination byte `k` was delivered -/
  | destination (k : Count) (b : Byte)
  /-- `Respond(rdata, init_ok)` -/
  | response (rdata : Data) (initOk : Bool)
  /-- `Diag(code)` -/
  | diag (code : Nat)
deriving DecidableEq, Repr

/-- The whole state. -/
structure State where
  /-- the in-flight registers of the Controller (10_state.md R23) -/
  x : InFlight
  /-- the channel whose transfer has begun and not completed (10_state.md R35) -/
  inFlight : Option Channel
  /-- the Store's state (10_state.md R32) -/
  store : Store
  /-- what Host and Store have offered -/
  env : Env
  /-- the refused mark (60_exceptions.md R162) -/
  mark : Option RefusedMark
  /-- whether an INIT was accepted since power-up (the model's own, log entry 9) -/
  initSeen : Bool
  /-- the event history, oldest first (00_scope.md R14) -/
  history : List Event
  /-- how many draws the run has taken (the model's own, log entry 5) -/
  draws : Nat
deriving DecidableEq, Repr

/-- There is no fault: "No command raises an exception, and the block has no trap mechanism" (60_exceptions.md R160).
Nothing raises one, so nothing is unsafe in it. -/
inductive Fault where
deriving DecidableEq, Repr

/-- The step's refusals. The spec's own `raise Refuse` is the mark of State, not one of these (log entry 8). -/
inductive Refusal where
  /-- raised by exec for an instruction the model gives no meaning yet; safe, and no arm raises it. -/
  | notModelled (mnemonic : String)
deriving DecidableEq, Repr

/-- Nothing offered: no request waits, no source byte, no reset. The Store and the Host answer every transfer
(DESIGN CHOICE, log entry 10); what `init` answers is free (log entry 7). -/
def Env.reset : Env :=
  { requests := [], source := [], storeReady := .always, dstReady := .always, rspReady := .always,
    initAnswer := .other Config.launchStatus, resetLine := none }

/-- The machine right after power-up (10_state.md R35): IDLE, no transfer in progress, `store.status` UNINIT. -/
def State.reset : State :=
  { x := InFlight.reset, inFlight := none, store := { status := .uninit, mem := Memory.empty }, env := Env.reset,
    mark := none, initSeen := false, history := [], draws := 0 }

end Sys2Proof.Machine
end

