-- ==== Sys2Proof/Machine/Flags.lean ====
section
/-! DEFINITION. Flags. The block keeps no status flag (10_state.md R25); the one pass/fail bit is `init_ok`, computed from
the store's status code (40_init.md R100) and carried by the response (30_encoding.md R85). -/

namespace Sys2Proof.Machine

open Sys2Proof

/-- The bits of a status code. -/
def StatusCode.bits (c : StatusCode) : BitVec Config.statusWidth :=
  match c with
  | .storeOk => Config.storeOk
  | .other b => b

/-- `status = STORE_OK` (40_init.md R100). -/
def StatusCode.isOk (c : StatusCode) : Bool :=
  match c with
  | .storeOk => true
  | .other b => b = Config.storeOk

/-- The store's status after `init` returned `c`: OK for `STORE_OK`, FAILED for any other value (40_init.md R102). -/
def StatusCode.toStatus (c : StatusCode) : StoreStatus := if c.isOk then .ok else .failed

/-- The `init_ok` bit of a response: the latched bit for INIT, 0 for every other command (30_encoding.md R85). -/
def initOkOf (cmd : CmdCode) (ok : Bool) : Bool := cmd = 0x8 && ok

/-- The `rdata` field of a response: the assembled value for RD8, RD16 and RD32, 0 for every other command
(30_encoding.md R85). -/
def rdataOf (cmd : CmdCode) (acc : Data) : Data := if cmd = 0x0 || cmd = 0x2 || cmd = 0x4 then acc else 0

end Sys2Proof.Machine
end

