-- ==== Sys2Proof/Machine/Operands.lean ====
section
/-! DEFINITION. Operand forms: address translation (20_memory.md R50 to R54), byte lanes (R52, R55, R56), the byte split
of multi-byte values (R58) and the operand assembly of a request (30_encoding.md R81, R84). -/

namespace Sys2Proof.Machine

open Sys2Proof

/-! ### Address translation -/

/-- `off = loc[11:0]`, the same as `loc mod 4096` (20_memory.md R50). -/
def normalise (loc : Loc) : Offset := loc.extractLsb' 0 12

/-- `a_k = (zext_17(loc) + zext_17(k)) mod 4096`, the offset of byte `k` (20_memory.md R54). -/
def byteOffset (loc : Loc) (k : Count) : Offset := (loc.setWidth 17 + k.setWidth 17).extractLsb' 0 12

/-- `widx = off[11:1]` (20_memory.md R51). -/
def wordIndex (off : Offset) : WordIndex := off.extractLsb' 1 11

/-- `lane = off[0]`: `false` is the low byte of the cell, `true` the high byte (20_memory.md R52). -/
def lane (off : Offset) : Bool := off.getLsbD 0

/-- The other byte of the same cell, `off ^ 1` (00_scope.md R12). -/
def sibling (off : Offset) : Offset := off ^^^ 1

/-! ### The byte-lane multiplexer -/

/-- The byte of `w` in the lane of `off`: `w[15:8]` if odd, `w[7:0]` if even (20_memory.md R55). -/
def laneByte (off : Offset) (w : CellWord) : Byte := if lane off then w.extractLsb' 8 8 else w.extractLsb' 0 8

/-- The word `old` with the byte in the lane of `off` replaced by `b` (20_memory.md R56). -/
def mergeByte (off : Offset) (b : Byte) (old : CellWord) : CellWord :=
  if lane off then b ++ old.extractLsb' 0 8 else old.extractLsb' 8 8 ++ b

/-! ### Byte order -/

/-- `v[8k+7 : 8k]`, byte `k` of a little-endian value (20_memory.md R58). -/
def dataByte (v : Data) (k : Count) : Byte := (v >>> (8 * k.toNat)).setWidth 8

/-- `v` with `v[8k+7 : 8k] <- b` (20_memory.md R59, 10_state.md R24). -/
def putDataByte (v : Data) (k : Count) (b : Byte) : Data :=
  (v &&& ~~~((0xFF : Data) <<< (8 * k.toNat))) ||| (b.setWidth 32 <<< (8 * k.toNat))

/-! ### Requests -/

/-- `SYS = cmd[3]` (30_encoding.md R81). -/
def isSystem (cmd : CmdCode) : Bool := cmd.getLsbD 3

/-- INIT, the one system command with a meaning: code `0x8` (30_encoding.md R82). -/
def isInit (cmd : CmdCode) : Bool := cmd = 0x8

/-- A reserved code, `0x9` to `0xF` (30_encoding.md R82). -/
def isReserved (cmd : CmdCode) : Bool := isSystem cmd && !isInit cmd

/-- A data command with `W = cmd[0] = 1` (30_encoding.md R81). -/
def isWrite (cmd : CmdCode) : Bool := !isSystem cmd && cmd.getLsbD 0

/-- A block command, `SZ = cmd[2:1] = 3` (30_encoding.md R81). -/
def isBlock (cmd : CmdCode) : Bool := !isSystem cmd && cmd.extractLsb' 1 2 = (3 : BitVec 2)

/-- The number of single-byte operations `x[n]` of a request (30_encoding.md R84). -/
def byteCount (cmd : CmdCode) (count : Count) : Count :=
  if isSystem cmd then 0
  else if isBlock cmd then count
  else 1 <<< (cmd.extractLsb' 1 2).toNat

/-- The phase that follows the acceptance of a request (10_state.md R24, row IDLE). -/
def firstPhase (cmd : CmdCode) (n : Count) : Phase :=
  if isInit cmd then .init
  else if isReserved cmd || n = 0 then .resp
  else if isWrite cmd then .fetch
  else .rd

end Sys2Proof.Machine
end

