-- ==== Sys2Proof/Machine/Ops.lean ====
section
/-! DEFINITION. The named operations: reading and writing the bytes of the store, the transfers of 00_scope.md R10
(`StoreInit`, `StoreRead`, `StoreWrite`, `SrcByte`, `DstByte`, `Respond`, `Diag`), `raise Refuse`, and reset. The block has no
exceptions, so none is taken and none returned from (60_exceptions.md R160, R165, R166); what stops a command part-way is a
reset, the one shared operation `performReset`. -/

namespace Sys2Proof.Machine

open Sys2Proof

/-! ### The byte space (10_state.md R29, R30) -/

/-- What an offset reads as when no byte is listed for it: the launch byte, or a free byte after an unconstrained write
(log entries 4 and 6). -/
def Memory.unlisted (m : Memory) (a : Nat) : Byte :=
  match m.lost with
  | none => Config.launchByte a
  | some d => Config.lostByte d a

/-- The byte listed for offset `a`. -/
def findCell (a : Nat) : List Host.Cell → Option Byte
  | [] => none
  | (a', b) :: rest => if a' = a then some b else findCell a rest

/-- The list without offset `a`. -/
def eraseCell (a : Nat) : List Host.Cell → List Host.Cell
  | [] => []
  | (a', b) :: rest => if a' = a then eraseCell a rest else (a', b) :: eraseCell a rest

/-- The list with byte `b` for offset `a`, before the first greater offset. -/
def insertCell (a : Nat) (b : Byte) : List Host.Cell → List Host.Cell
  | [] => [(a, b)]
  | (a', b') :: rest => if a < a' then (a, b) :: (a', b') :: rest else (a', b') :: insertCell a b rest

/-- The byte at offset `a`. -/
def Memory.read (m : Memory) (a : Nat) : Byte :=
  match findCell a m.cells with
  | some b => b
  | none => m.unlisted a

/-- The byte `b` at offset `a`, keeping the canonical form: a byte equal to what an unlisted offset reads is not listed. -/
def Memory.write (m : Memory) (a : Nat) (b : Byte) : Memory :=
  if b = m.unlisted a then { m with cells := eraseCell a m.cells }
  else { m with cells := insertCell a b (eraseCell a m.cells) }

/-- Offsets strictly rising from `lo`. -/
def risingFrom (lo : Nat) : List Host.Cell → Bool
  | [] => true
  | (a, _) :: rest => decide (lo ≤ a) && risingFrom (a + 1) rest

/-- The canonical form: offsets strictly rising and below 4096, no entry equal to what an unlisted offset reads as. -/
def Memory.wf (m : Memory) : Bool :=
  risingFrom 0 m.cells && m.cells.all (fun c => decide (c.1 < Config.logSize) && decide (c.2 ≠ m.unlisted c.1))

/-- `store.cells[i]`: low byte at offset `2i`, high byte at `2i + 1` (20_memory.md R52, 10_state.md R32). -/
def Memory.cell (m : Memory) (i : WordIndex) : CellWord := m.read (2 * i.toNat + 1) ++ m.read (2 * i.toNat)

/-- `store.cells[i] <- w`. -/
def Memory.writeCell (m : Memory) (i : WordIndex) (w : CellWord) : Memory :=
  (m.write (2 * i.toNat) (w.extractLsb' 0 8)).write (2 * i.toNat + 1) (w.extractLsb' 8 8)

/-- No assumption on any cell: every offset holds a free byte, numbered by draw `d` (20_memory.md R68). -/
def Memory.lose (_m : Memory) (d : Nat) : Memory := { cells := [], lost := some d }

/-! ### Waiting for the other agent (60_exceptions.md R173) -/

/-- The readiness after one more transfer, or `none` where the agent does not answer. -/
def Readiness.take (r : Readiness) : Option Readiness :=
  match r with
  | .always => some .always
  | .times 0 => none
  | .times (n + 1) => some (.times n)

/-- The agent answers at least `k` more transfers. -/
def Readiness.admits (r : Readiness) (k : Nat) : Bool :=
  match r with
  | .always => true
  | .times n => decide (k ≤ n)

/-- The readiness after `k` transfers it admits. -/
def Readiness.after (r : Readiness) (k : Nat) : Readiness :=
  match r with
  | .always => .always
  | .times n => .times (n - k)

/-- What a step or a run of steps of the Controller came to. -/
inductive Progress where
  /-- it was made -/
  | went (s : State)
  /-- the Controller waits for another agent, its transfer in progress -/
  | waits (s : State)
deriving DecidableEq, Repr

/-- The state reached. -/
def Progress.state (p : Progress) : State :=
  match p with
  | .went s => s
  | .waits s => s

/-- Go on with `f`, unless waiting. -/
def Progress.andThen (p : Progress) (f : State → Progress) : Progress :=
  match p with
  | .went s => f s
  | .waits s => .waits s

/-- As the outcome of a step: waiting is a state the machine stays in, not a stop. -/
def Progress.outcome (p : Progress) : Host.Outcome State Fault Refusal := .next p.state

/-- Do `body` for `n` bytes, in order, until one waits. -/
def repeatBytes (n : Nat) (body : State → Progress) (s : State) : Progress :=
  match n with
  | 0 => .went s
  | n + 1 => (body s).andThen (repeatBytes n body)

/-! ### State helpers -/

/-- Enter a phase. -/
def State.enter (s : State) (ph : Phase) : State := { s with x := { s.x with ph := ph } }

/-- Waiting for the transfer now in progress on channel `c` (log entry 11). -/
def State.awaiting (s : State) (c : Channel) : Progress := .waits { s with inFlight := some c }

/-- The code of the command in flight. In IDLE there is none, and `x[op]` is dead (10_state.md R34). -/
def State.commandInFlight (s : State) : Option CmdCode := if s.x.ph = .idle then none else some s.x.op

/-- `a_{x[k]}`, the offset of the current byte (10_state.md R24). -/
def State.currentOffset (s : State) : Offset := byteOffset s.x.base s.x.k

/-- `x[k] <- x[k] + 1`. -/
def State.nextByte (s : State) : State := { s with x := { s.x with k := s.x.k + 1 } }

/-! ### The store port (20_memory.md R66, R68) -/

/-- The word the next `StoreRead(i)` returns: the cell when the store is OK, else a draw. -/
def State.readWord (s : State) (i : WordIndex) : CellWord :=
  match s.store.status with
  | .ok => s.store.mem.cell i
  | .uninit | .failed => Config.draw s.draws

/-- The draw number after a store transfer that takes a draw unless the store is OK. -/
def State.drawsNext (s : State) : Nat :=
  match s.store.status with
  | .ok => s.draws
  | .uninit | .failed => s.draws + 1

/-- The bytes after a `StoreWrite(i, w)`: cell `i` set when the store is OK, else nothing assumed of any cell. -/
def State.memAfterWrite (s : State) (i : WordIndex) (w : CellWord) : Memory :=
  match s.store.status with
  | .ok => s.store.mem.writeCell i w
  | .uninit | .failed => s.store.mem.lose s.draws

/-- `StoreRead(i)`: the word and the state, or `none` while the Store does not complete it. -/
def storeRead (i : WordIndex) (s : State) : Option (CellWord × State) :=
  match s.env.storeReady.take with
  | none => none
  | some r =>
    some (s.readWord i,
      { s with env := { s.env with storeReady := r }, inFlight := none, draws := s.drawsNext,
               history := s.history ++ [.storeRead i (s.readWord i)] })

/-- `StoreWrite(i, w)`: completion only, no status (20_memory.md R66). -/
def storeWrite (i : WordIndex) (w : CellWord) (s : State) : Option State :=
  match s.env.storeReady.take with
  | none => none
  | some r =>
    some { s with env := { s.env with storeReady := r }, inFlight := none, draws := s.drawsNext,
                  store := { s.store with mem := s.memAfterWrite i w },
                  history := s.history ++ [.storeWrite i w] }

/-- `StoreInit()`: the Store answers its code and takes the status that goes with it (40_init.md R102). -/
def storeInit (s : State) : Option (StatusCode × State) :=
  match s.env.storeReady.take with
  | none => none
  | some r =>
    some (s.env.initAnswer,
      { s with env := { s.env with storeReady := r }, inFlight := none,
               store := { s.store with status := s.env.initAnswer.toStatus },
               history := s.history ++ [.storeInit s.env.initAnswer] })

/-! ### The byte streams (43_block_access.md R142), the response and the diagnostic -/

/-- `SrcByte(x[k])`: the next source byte, or `none` while the Host supplies none. -/
def srcByte (s : State) : Option (Byte × State) :=
  match s.env.source with
  | [] => none
  | b :: rest =>
    some (b, { s with env := { s.env with source := rest }, inFlight := none,
                      history := s.history ++ [.source s.x.k b] })

/-- `DstByte(x[k], b)`, or `none` while the Host does not take it. -/
def dstByte (b : Byte) (s : State) : Option State :=
  match s.env.dstReady.take with
  | none => none
  | some r =>
    some { s with env := { s.env with dstReady := r }, inFlight := none,
                  history := s.history ++ [.destination s.x.k b] }

/-- `if x[ok] = 0 then Diag(INIT_FAIL)` (40_init.md R100); the block does not wait for it (60_exceptions.md R163). -/
def diagUnlessOk (ok : Bool) : List Event := if ok then [] else [.diag Config.initFailCode]

/-- `raise Refuse(reason)`: sets the mark, which "stays set for the rest of the run" (60_exceptions.md R162). -/
def raiseRefuse (reason : RefuseReason) (cmd : Option CmdCode) (s : State) : State :=
  match s.mark with
  | some _ => s
  | none => { s with mark := some { reason := reason, cmd := cmd } }

/-! ### The stages of a command, one per row of the phase table (10_state.md R24) -/

/-- Acceptance: the registers latched and cleared (10_state.md R23, R24 row IDLE; log entry 15). -/
def accept (cmd : CmdCode) (addr : Loc) (wdata : Data) (count : Count) (s : State) : State :=
  { s with inFlight := none
           x := { s.x with op := cmd, base := addr, wdata := wdata, n := byteCount cmd count, k := 0, acc := 0,
                           ok := false } }

/-- Row INIT: `StoreInit()`, `x[ok]` and the diagnostic on failure (40_init.md R100). R24 puts all of that in the one step of
the row, while 00_scope.md R13 lists the diagnostic event as a step: one step here, so no reset comes between a failed
`StoreInit` and its `Diag` (DEDUCED, log entry 27). -/
def initStage (s : State) : Progress :=
  match storeInit (s.enter .init) with
  | none => (s.enter .init).awaiting .storePort
  | some (c, t) =>
    .went { t with x := { t.x with ok := c.isOk },
                   history := t.history ++ diagUnlessOk c.isOk }

/-- Row FETCH of WR8, WR16 and WR32: `x[cur] <- x[wdata][8*x[k]+7 : 8*x[k]]`, no transfer. -/
def fetchData (s : State) : Progress :=
  .went { s with x := { s.x with ph := .fetch, cur := dataByte s.x.wdata s.x.k } }

/-- Row FETCH of WRBLK: `x[cur] <- SrcByte(x[k])`. -/
def fetchSource (s : State) : Progress :=
  match srcByte (s.enter .fetch) with
  | none => (s.enter .fetch).awaiting .source
  | some (b, t) => .went { t with x := { t.x with cur := b } }

/-- Row RMW_RD: `x[old] <- StoreRead(off >> 1)`. -/
def rmwRead (s : State) : Progress :=
  match storeRead (wordIndex s.currentOffset) (s.enter .rmwRd) with
  | none => (s.enter .rmwRd).awaiting .storePort
  | some (w, t) => .went { t with x := { t.x with old := w } }

/-- Row RMW_WR: `StoreWrite(off >> 1, merged word)`, then `x[k] <- x[k] + 1` (20_memory.md R56). -/
def rmwWrite (s : State) : Progress :=
  match storeWrite (wordIndex s.currentOffset) (mergeByte s.currentOffset s.x.cur s.x.old) (s.enter .rmwWr) with
  | none => (s.enter .rmwWr).awaiting .storePort
  | some t => .went t.nextByte

/-- Row RD, the read: `w <- StoreRead(off >> 1)`, `x[cur] <-` the lane of `w` (20_memory.md R55). -/
def readStage (s : State) : Progress :=
  match storeRead (wordIndex s.currentOffset) (s.enter .rd) with
  | none => (s.enter .rd).awaiting .storePort
  | some (w, t) => .went { t with x := { t.x with cur := laneByte s.currentOffset w } }

/-- Row RD of RD8, RD16 and RD32, the assembly: `x[acc][8*x[k]+7 : 8*x[k]] <- x[cur]`, `x[k] <- x[k] + 1`. -/
def assembleByte (s : State) : Progress :=
  .went { s with x := { s.x with acc := putDataByte s.x.acc s.x.k s.x.cur, k := s.x.k + 1 } }

/-- Row DST: `DstByte(x[k], x[cur])`, then `x[k] <- x[k] + 1`. -/
def deliverByte (s : State) : Progress :=
  match dstByte s.x.cur (s.enter .dst) with
  | none => (s.enter .dst).awaiting .destination
  | some t => .went t.nextByte

/-- Row RESP: `Respond(rdata, init_ok)`, then IDLE; the Controller waits while the Host does not take it. -/
def respond (rdata : Data) (initOk : Bool) (s : State) : Progress :=
  match s.env.rspReady.take with
  | none => (s.enter .resp).awaiting .response
  | some r =>
    .went { s with x := { s.x with ph := .idle }, env := { s.env with rspReady := r }, inFlight := none,
                   history := s.history ++ [.response rdata initOk] }

/-! ### The single-byte operations the commands are made of (20_memory.md R55, R56, R59) -/

/-- One byte of a `MemRead`: `ReadByte(a_k)` into byte `k` of the value. -/
def readDataByte (s : State) : Progress := (readStage s).andThen assembleByte

/-- One byte of a `MemWrite`: `WriteByte(a_k, v[8k+7 : 8k])`. -/
def writeDataByte (s : State) : Progress := ((fetchData s).andThen rmwRead).andThen rmwWrite

/-- One byte of a block read: `ReadByte(a_k)`, `DstByte(k, b)` (43_block_access.md R141). -/
def readBlockByte (s : State) : Progress := (readStage s).andThen deliverByte

/-- One byte of a block write: `SrcByte(k)`, `WriteByte(a_k, b)` (43_block_access.md R143). -/
def writeBlockByte (s : State) : Progress := ((fetchSource s).andThen rmwRead).andThen rmwWrite

/-- `MemRead(loc, N)` (20_memory.md R59). -/
def memRead (n : Nat) (s : State) : Progress := repeatBytes n readDataByte s

/-- `MemWrite(loc, N, v)` (20_memory.md R59). -/
def memWrite (n : Nat) (s : State) : Progress := repeatBytes n writeDataByte s

/-- The response of a read command: the value zero-extended (30_encoding.md R85). -/
def respondValue (s : State) : Progress := respond s.x.acc false s

/-! ### Reset (70_reset_and_hazards.md R181 to R185) -/

/-- A `StoreWrite` is in flight: begun in RMW_WR and not completed (R184; log entry 11). -/
def State.writeInFlight (s : State) : Bool := s.x.ph = .rmwWr && s.inFlight = some .storePort

/-- The bytes after a reset: the cell of a `StoreWrite` in flight is a draw, every other cell unchanged (R184); a write in
flight to a store that is not OK leaves no cell known (20_memory.md R68). -/
def State.memAfterReset (s : State) : Memory :=
  if s.writeInFlight then s.memAfterWrite (wordIndex s.currentOffset) (Config.draw s.draws) else s.store.mem

/-- The cause on the reset input once `c` is asserted while `pending` has not been taken: a power loss stays until a step
takes it, so that its effect on the store (R185) is not lost, and it takes a block reset in. The spec does not speak of two
causes before one step: DEDUCED, log entry 25. -/
def pendReset (pending : Option ResetCause) (c : ResetCause) : ResetCause :=
  match pending with
  | some .powerLoss => .powerLoss
  | some .blockReset | none => c

/-- Reset of the block, or loss of power and its return. The Controller is IDLE, the command in flight is abandoned without
a response (R181); the store keeps what completed (R182, R184); after power loss `store.status` is UNINIT (R185). -/
def performReset (c : ResetCause) (s : State) : State :=
  { s with x := InFlight.reset
           inFlight := none
           store := { status := match c with
                        | .blockReset => s.store.status
                        | .powerLoss => .uninit
                      mem := s.memAfterReset }
           env := { s.env with resetLine := none }
           initSeen := match c with
             | .blockReset => s.initSeen
             | .powerLoss => false
           draws := s.draws + 1 }

end Sys2Proof.Machine
end

