-- ==== Sys2Proof/Machine/Block.lean ====
section
/-! DEFINITION. The block commands RDBLK and WRBLK (43_block_access.md). -/

namespace Sys2Proof.Machine

open Sys2Proof

/-- RDBLK (43_block_access.md R141): for `k` in `0 .. count-1`, `b <- ReadByte(a_k)`, `DstByte(k, b)`; `Respond(0, 0)`. -/
def execRdblk (addr : Loc) (wdata : Data) (count : Count) (s : State) : Host.Outcome State Fault Refusal :=
  ((repeatBytes count.toNat readBlockByte (accept 0x6 addr wdata count s)).andThen (respond 0 false)).outcome

/-- WRBLK (43_block_access.md R143): for `k` in `0 .. count-1`, `b <- SrcByte(k)`, `WriteByte(a_k, b)`; `Respond(0, 0)`. -/
def execWrblk (addr : Loc) (wdata : Data) (count : Count) (s : State) : Host.Outcome State Fault Refusal :=
  ((repeatBytes count.toNat writeBlockByte (accept 0x7 addr wdata count s)).andThen (respond 0 false)).outcome

end Sys2Proof.Machine
end

