-- ==== Sys2Proof/Machine/ByteAccess.lean ====
section
/-! DEFINITION. The single-byte commands RD8 and WR8 (41_byte_access.md). -/

namespace Sys2Proof.Machine

open Sys2Proof

/-- RD8 (41_byte_access.md R110): `b <- ReadByte(off)`, `Respond(zext_32(b), 0)`. -/
def execRd8 (addr : Loc) (wdata : Data) (count : Count) (s : State) : Host.Outcome State Fault Refusal :=
  ((memRead 1 (accept 0x0 addr wdata count s)).andThen respondValue).outcome

/-- WR8 (41_byte_access.md R111): `WriteByte(off, wdata[7:0])`, `Respond(0, 0)`. -/
def execWr8 (addr : Loc) (wdata : Data) (count : Count) (s : State) : Host.Outcome State Fault Refusal :=
  ((memWrite 1 (accept 0x1 addr wdata count s)).andThen (respond 0 false)).outcome

end Sys2Proof.Machine
end

