-- ==== Sys2Proof/Machine/Init.lean ====
section
/-! DEFINITION. INIT (40_init.md). -/

namespace Sys2Proof.Machine

open Sys2Proof

/-- INIT is noted on acceptance; one after an earlier INIT sets the refused mark RepeatedInit (40_init.md R103, log
entries 8 and 9). The hardware forwards it to the store like the first and reports its result, so a repeated INIT whose store
init fails has both the mark and the diagnostic (DEDUCED, log entry 26: 60_exceptions.md R164 speaks of at most one event of
R161's table for a command). -/
def noteInit (cmd : CmdCode) (s : State) : State :=
  { (if s.initSeen then raiseRefuse .repeatedInit (some cmd) s else s) with initSeen := true }

/-- INIT (40_init.md R100): `StoreInit`, the pass/fail bit, the diagnostic on failure, `Respond(0, x[ok])`. A repeated
INIT does the same under its mark (R103, log entries 8 and 26). -/
def execInit (addr : Loc) (wdata : Data) (count : Count) (s : State) : Host.Outcome State Fault Refusal :=
  ((initStage (noteInit 0x8 (accept 0x8 addr wdata count s))).andThen fun t => respond 0 t.x.ok t).outcome

end Sys2Proof.Machine
end

