-- ==== Sys2Proof/Machine/MultiByte.lean ====
section
/-! DEFINITION. The word and double-word commands RD16, WR16, RD32 and WR32 (42_multibyte_access.md): a fixed number of
single-byte operations in increasing offset order (R120). -/

namespace Sys2Proof.Machine

open Sys2Proof

/-- RD16 (42_multibyte_access.md R121): `v <- MemRead(loc, 2)`, `Respond(zext_32(v), 0)`. -/
def execRd16 (addr : Loc) (wdata : Data) (count : Count) (s : State) : Host.Outcome State Fault Refusal :=
  ((memRead 2 (accept 0x2 addr wdata count s)).andThen respondValue).outcome

/-- WR16 (42_multibyte_access.md R123): `MemWrite(loc, 2, wdata[15:0])`, `Respond(0, 0)`. -/
def execWr16 (addr : Loc) (wdata : Data) (count : Count) (s : State) : Host.Outcome State Fault Refusal :=
  ((memWrite 2 (accept 0x3 addr wdata count s)).andThen (respond 0 false)).outcome

/-- RD32 (42_multibyte_access.md R122): `v <- MemRead(loc, 4)`, `Respond(v, 0)`. -/
def execRd32 (addr : Loc) (wdata : Data) (count : Count) (s : State) : Host.Outcome State Fault Refusal :=
  ((memRead 4 (accept 0x4 addr wdata count s)).andThen respondValue).outcome

/-- WR32 (42_multibyte_access.md R124): `MemWrite(loc, 4, wdata)`, `Respond(0, 0)`. -/
def execWr32 (addr : Loc) (wdata : Data) (count : Count) (s : State) : Host.Outcome State Fault Refusal :=
  ((memWrite 4 (accept 0x5 addr wdata count s)).andThen (respond 0 false)).outcome

end Sys2Proof.Machine
end

