-- ==== Sys2Proof/Machine/Reserved.lean ====
section
/-! DEFINITION. The reserved codes `0x9` to `0xF` (30_encoding.md R86). -/

namespace Sys2Proof.Machine

open Sys2Proof

/-- A reserved code (30_encoding.md R86): the refused mark ReservedCommand is set on acceptance (60_exceptions.md R161);
"makes no store transfer and no stream transfer. It then gives the response `rdata = 0`, `init_ok = 0` and returns to `IDLE`".
Log entry 8. -/
def reservedCommand (cmd : CmdCode) (addr : Loc) (wdata : Data) (count : Count) (s : State) : Progress :=
  respond 0 false (raiseRefuse .reservedCommand (some cmd) (accept cmd addr wdata count s))

/-- Code `0x9`, reserved (30_encoding.md R86). -/
def execReserved9 (addr : Loc) (wdata : Data) (count : Count) (s : State) : Host.Outcome State Fault Refusal :=
  (reservedCommand 0x9 addr wdata count s).outcome

/-- Code `0xA`, reserved (30_encoding.md R86). -/
def execReservedA (addr : Loc) (wdata : Data) (count : Count) (s : State) : Host.Outcome State Fault Refusal :=
  (reservedCommand 0xA addr wdata count s).outcome

/-- Code `0xB`, reserved (30_encoding.md R86). -/
def execReservedB (addr : Loc) (wdata : Data) (count : Count) (s : State) : Host.Outcome State Fault Refusal :=
  (reservedCommand 0xB addr wdata count s).outcome

/-- Code `0xC`, reserved (30_encoding.md R86). -/
def execReservedC (addr : Loc) (wdata : Data) (count : Count) (s : State) : Host.Outcome State Fault Refusal :=
  (reservedCommand 0xC addr wdata count s).outcome

/-- Code `0xD`, reserved (30_encoding.md R86). -/
def execReservedD (addr : Loc) (wdata : Data) (count : Count) (s : State) : Host.Outcome State Fault Refusal :=
  (reservedCommand 0xD addr wdata count s).outcome

/-- Code `0xE`, reserved (30_encoding.md R86). -/
def execReservedE (addr : Loc) (wdata : Data) (count : Count) (s : State) : Host.Outcome State Fault Refusal :=
  (reservedCommand 0xE addr wdata count s).outcome

/-- Code `0xF`, reserved (30_encoding.md R86). -/
def execReservedF (addr : Loc) (wdata : Data) (count : Count) (s : State) : Host.Outcome State Fault Refusal :=
  (reservedCommand 0xF addr wdata count s).outcome

end Sys2Proof.Machine
end

