-- ==== Sys2Proof/Machine/Dispatch.lean ====
section
/-! DEFINITION. The meaning of each command: one arm per constructor of Instr. -/

namespace Sys2Proof.Machine

open Sys2Proof

def exec (i : Instr) (s : State) : Host.Outcome State Fault Refusal :=
  match i with
  | .rd8 addr wdata count => Sys2Proof.Machine.execRd8 addr wdata count s
  | .wr8 addr wdata count => Sys2Proof.Machine.execWr8 addr wdata count s
  | .rd16 addr wdata count => Sys2Proof.Machine.execRd16 addr wdata count s
  | .wr16 addr wdata count => Sys2Proof.Machine.execWr16 addr wdata count s
  | .rd32 addr wdata count => Sys2Proof.Machine.execRd32 addr wdata count s
  | .wr32 addr wdata count => Sys2Proof.Machine.execWr32 addr wdata count s
  | .rdblk addr wdata count => Sys2Proof.Machine.execRdblk addr wdata count s
  | .wrblk addr wdata count => Sys2Proof.Machine.execWrblk addr wdata count s
  | .init addr wdata count => Sys2Proof.Machine.execInit addr wdata count s
  | .reserved9 addr wdata count => Sys2Proof.Machine.execReserved9 addr wdata count s
  | .reservedA addr wdata count => Sys2Proof.Machine.execReservedA addr wdata count s
  | .reservedB addr wdata count => Sys2Proof.Machine.execReservedB addr wdata count s
  | .reservedC addr wdata count => Sys2Proof.Machine.execReservedC addr wdata count s
  | .reservedD addr wdata count => Sys2Proof.Machine.execReservedD addr wdata count s
  | .reservedE addr wdata count => Sys2Proof.Machine.execReservedE addr wdata count s
  | .reservedF addr wdata count => Sys2Proof.Machine.execReservedF addr wdata count s

end Sys2Proof.Machine
end

