-- ==== Sys2Proof/WellFormed.lean ====
section
/-! DEFINITION. What is well formed. Every command of the syntax is (30_encoding.md R83: "no value of those fields is
illegal"); what can be ill formed is a number that is to become a request word (R89) or an assembler operand (R90). -/

namespace Sys2Proof

/-- A command is well formed whatever its fields hold (30_encoding.md R83). -/
def Instr.wellFormed (i : Instr) : Bool :=
  match i with
  | .rd8 _ _ _ | .wr8 _ _ _ | .rd16 _ _ _ | .wr16 _ _ _ | .rd32 _ _ _ | .wr32 _ _ _ | .rdblk _ _ _ | .wrblk _ _ _
  | .init _ _ _ | .reserved9 _ _ _ | .reservedA _ _ _ | .reservedB _ _ _ | .reservedC _ _ _ | .reservedD _ _ _
  | .reservedE _ _ _ | .reservedF _ _ _ => true

/-- A number is a canonical request word when it has no bit above bit 67 (30_encoding.md R89). -/
def requestWordInRange (w : Nat) : Bool := decide (w < 2 ^ 68)

/-- An assembler operand is in range when it fits its field: "an operand out of its range is a syntax error, not a
truncation" (30_encoding.md R90). -/
def operandInRange (bits v : Nat) : Bool := decide (v < 2 ^ bits)

/-- The byte list of a WRBLK line has exactly `n` entries, each a byte (30_encoding.md R90). -/
def byteListInRange (n : Nat) (bytes : List Nat) : Bool :=
  decide (bytes.length = n) && bytes.all (operandInRange 8)

end Sys2Proof
end

