-- ==== Sys2Proof/Decode.lean ====
section
/-! DEFINITION. The canonical request word (30_encoding.md R89), the opcode map (R82) and their bytes: decoding, total
and rejecting by name, and after it the encoder. The byte packing is the model's (log entry 14). -/

namespace Sys2Proof

/-- The four fields of a canonical request word (30_encoding.md R89). -/
def Request.ofWord (w : ReqWord) : Request :=
  { cmd := w.extractLsb' 0 4
    addr := w.extractLsb' 4 16
    wdata := w.extractLsb' 20 32
    count := w.extractLsb' 52 16 }

/-- The command a request selects: the opcode map of 30_encoding.md R82, by `cmd` only (R83). The last arm is code `0xF`,
the one 4-bit value left. -/
def decodeRequest (r : Request) : Instr :=
  match r.cmd.toNat with
  | 0x0 => .rd8 r.addr r.wdata r.count
  | 0x1 => .wr8 r.addr r.wdata r.count
  | 0x2 => .rd16 r.addr r.wdata r.count
  | 0x3 => .wr16 r.addr r.wdata r.count
  | 0x4 => .rd32 r.addr r.wdata r.count
  | 0x5 => .wr32 r.addr r.wdata r.count
  | 0x6 => .rdblk r.addr r.wdata r.count
  | 0x7 => .wrblk r.addr r.wdata r.count
  | 0x8 => .init r.addr r.wdata r.count
  | 0x9 => .reserved9 r.addr r.wdata r.count
  | 0xA => .reservedA r.addr r.wdata r.count
  | 0xB => .reservedB r.addr r.wdata r.count
  | 0xC => .reservedC r.addr r.wdata r.count
  | 0xD => .reservedD r.addr r.wdata r.count
  | 0xE => .reservedE r.addr r.wdata r.count
  | _ => .reservedF r.addr r.wdata r.count

/-- The command of a canonical request word. -/
def decodeWord (w : ReqWord) : Instr := decodeRequest (Request.ofWord w)

/-- Why bytes are no request. -/
inductive DecodeError where
  /-- fewer than nine bytes: the request format has one fixed length (30_encoding.md R88). -/
  | tooShort
  /-- a bit above bit 67 of the word is 1: no field lies there (30_encoding.md R89). -/
  | strayHighBits
deriving DecidableEq, Repr

/-- Nine bytes, the first the least significant, as one 72-bit word. -/
def joinBytes (b0 b1 b2 b3 b4 b5 b6 b7 b8 : Byte) : BitVec 72 :=
  b8 ++ b7 ++ b6 ++ b5 ++ b4 ++ b3 ++ b2 ++ b1 ++ b0

/-- The canonical request word in the first nine bytes, and the bytes after it. -/
def takeRequestWord : List Byte → Except DecodeError (ReqWord × List Byte)
  | b0 :: b1 :: b2 :: b3 :: b4 :: b5 :: b6 :: b7 :: b8 :: rest =>
    let w := joinBytes b0 b1 b2 b3 b4 b5 b6 b7 b8
    if w.extractLsb' 68 4 = 0 then .ok (w.extractLsb' 0 68, rest) else .error .strayHighBits
  | _ => .error .tooShort

/-- Decoding of bytes: the command in the first nine, and the bytes after it. -/
def decodeBytes (bytes : List Byte) : Except DecodeError (Instr × List Byte) :=
  match takeRequestWord bytes with
  | .ok (w, rest) => .ok (decodeWord w, rest)
  | .error e => .error e

/-- Byte `j` of a number, byte 0 the least significant. -/
def byteOfNat (w j : Nat) : Byte := BitVec.ofNat 8 (w / 2 ^ (8 * j))

/-- The nine bytes of the number `w`, of which only the low `nbits` bits count; none if bits above the ninth byte are set. -/
def requestBytes (nbits w : Nat) : Option (List Byte) :=
  let v := w % 2 ^ nbits
  if v < 2 ^ 72 then
    some [byteOfNat v 0, byteOfNat v 1, byteOfNat v 2, byteOfNat v 3, byteOfNat v 4, byteOfNat v 5, byteOfNat v 6,
      byteOfNat v 7, byteOfNat v 8]
  else none

/-- The command the decoder reads from a row of spec/opcode_table.json numbered as the table numbers its bits. -/
def decodeTableWord (nbits w : Nat) : Option Instr :=
  match requestBytes nbits w with
  | some bytes =>
    match decodeBytes bytes with
    | .ok (i, _) => some i
    | .error _ => none
  | none => none

/-- The request those same bits present. -/
def requestOfTableWord (nbits w : Nat) : Option Request :=
  match requestBytes nbits w with
  | some bytes =>
    match takeRequestWord bytes with
    | .ok (v, _) => some (Request.ofWord v)
    | .error _ => none
  | none => none

/-! ### The encoder -/

/-- The command code of a command (30_encoding.md R82). -/
def Instr.code : Instr → CmdCode
  | .rd8 _ _ _ => 0x0
  | .wr8 _ _ _ => 0x1
  | .rd16 _ _ _ => 0x2
  | .wr16 _ _ _ => 0x3
  | .rd32 _ _ _ => 0x4
  | .wr32 _ _ _ => 0x5
  | .rdblk _ _ _ => 0x6
  | .wrblk _ _ _ => 0x7
  | .init _ _ _ => 0x8
  | .reserved9 _ _ _ => 0x9
  | .reservedA _ _ _ => 0xA
  | .reservedB _ _ _ => 0xB
  | .reservedC _ _ _ => 0xC
  | .reservedD _ _ _ => 0xD
  | .reservedE _ _ _ => 0xE
  | .reservedF _ _ _ => 0xF

/-- The request that presents a command (30_encoding.md R80, R82). -/
def encodeRequest (i : Instr) : Request :=
  match i with
  | .rd8 a w c | .wr8 a w c | .rd16 a w c | .wr16 a w c | .rd32 a w c | .wr32 a w c | .rdblk a w c | .wrblk a w c
  | .init a w c | .reserved9 a w c | .reservedA a w c | .reservedB a w c | .reservedC a w c | .reservedD a w c
  | .reservedE a w c | .reservedF a w c => { cmd := i.code, addr := a, wdata := w, count := c }

/-- The canonical request word `count wdata addr cmd`, `cmd` in bits 3:0 (30_encoding.md R89). -/
def Request.word (r : Request) : ReqWord := r.count ++ r.wdata ++ r.addr ++ r.cmd

/-- The canonical request word of a command. -/
def encodeWord (i : Instr) : ReqWord := (encodeRequest i).word

/-- The nine bytes of a command's request word, least significant first. -/
def encodeBytes (i : Instr) : List Byte :=
  let w := (encodeWord i).setWidth 72
  [w.extractLsb' 0 8, w.extractLsb' 8 8, w.extractLsb' 16 8, w.extractLsb' 24 8, w.extractLsb' 32 8, w.extractLsb' 40 8,
    w.extractLsb' 48 8, w.extractLsb' 56 8, w.extractLsb' 64 8]

end Sys2Proof
end

