-- ==== Sys2Proof/Machine/Sequencer.lean ====
section
/-! DEFINITION. The sequencer (10_state.md R24): one Controller step is one transfer, chosen by `x[ph]` (00_scope.md R13).
`tick` is that step. The meanings of the commands are written from their own rules (R100, R110 and the others) over the same
stages; that the two agree (R24: "must agree with it") is a statement. `resume` goes on with a command that waited. -/

namespace Sys2Proof.Machine

open Sys2Proof

/-- Enter the phase that the state reached selects, unless waiting. -/
def Progress.enter (p : Progress) (next : State → Phase) : Progress := p.andThen fun s => .went (s.enter (next s))

/-- `RESP` if `x[k] = x[n]`, else the given phase (10_state.md R24). -/
def nextUnlessDone (again : Phase) (s : State) : Phase := if s.x.k = s.x.n then .resp else again

/-- The request at the channel is taken: one event (00_scope.md R14). -/
def takeRequest (r : Request) (rest : List Request) (s : State) : State :=
  { s with env := { s.env with requests := rest }, history := s.history ++ [.request r] }

/-- What acceptance marks (60_exceptions.md R161): a reserved code, or an INIT after an earlier one. -/
def markOnAccept (cmd : CmdCode) (s : State) : State :=
  if isReserved cmd then raiseRefuse .reservedCommand (some cmd) s
  else if isInit cmd then noteInit cmd s
  else s

/-- Row IDLE once the request is taken: latch, clear, mark, and the next phase. -/
def latchRequest (r : Request) (s : State) : State :=
  (markOnAccept r.cmd (accept r.cmd r.addr r.wdata r.count s)).enter (firstPhase r.cmd (byteCount r.cmd r.count))

/-- Row IDLE: accept one request, or wait for one (70_reset_and_hazards.md R183). -/
def acceptStage (s : State) : Progress :=
  match s.env.requests with
  | [] => .waits s
  | r :: rest => .went (latchRequest r (takeRequest r rest s))

/-- Row RD. -/
def readPhase (s : State) : Progress :=
  if s.x.op = 0x6 then (readStage s).enter fun _ => .dst
  else ((readStage s).andThen assembleByte).enter (nextUnlessDone .rd)

/-- Row FETCH. -/
def fetchPhase (s : State) : Progress :=
  (if s.x.op = 0x7 then fetchSource s else fetchData s).enter fun _ => .rmwRd

/-- One step of the Controller (10_state.md R24). An asserted reset wins over the transfer of the phase
(60_exceptions.md R164). -/
def tick (s : State) : Progress :=
  match s.env.resetLine with
  | some c => .went (performReset c s)
  | none =>
    match s.x.ph with
    | .idle => acceptStage s
    | .init => (initStage s).enter fun _ => .resp
    | .fetch => fetchPhase s
    | .rmwRd => (rmwRead s).enter fun _ => .rmwWr
    | .rmwWr => (rmwWrite s).enter (nextUnlessDone .fetch)
    | .rd => readPhase s
    | .dst => (deliverByte s).enter (nextUnlessDone .rd)
    | .resp => respond (rdataOf s.x.op s.x.acc) (initOkOf s.x.op s.x.ok) s

/-- `n` steps of the Controller. -/
def ticks (n : Nat) (s : State) : State :=
  match n with
  | 0 => s
  | n + 1 => ticks n (tick s).state

/-- Controller steps until the command in flight has given its response or waits, at most `fuel` of them. -/
def resume (fuel : Nat) (s : State) : State :=
  match fuel with
  | 0 => s
  | fuel + 1 =>
    match tick s with
    | .went t => if t.x.ph = .idle then t else resume fuel t
    | .waits t => t

/-- Enough steps for the bytes left, three each, and for INIT and RESP. -/
def resumeFuel (s : State) : Nat := 3 * ((s.x.n - s.x.k - 1).toNat + 1) + 4

end Sys2Proof.Machine
end

