-- ==== Sys2Proof/Machine/Step.lean ====
section
/-! DEFINITION. The step of the machine: a reset if one is asserted; else, in IDLE, the command of the request at the
channel, from acceptance to its response or to where it waits; else the rest of the command in flight. Log entries 1 and 2.
The step of one transfer is `tick` (Machine/Sequencer.lean). -/

namespace Sys2Proof.Machine

open Sys2Proof

/-- One step of the machine. -/
def step (s : State) : Host.Outcome State Fault Refusal :=
  match s.env.resetLine with
  | some c => .next (performReset c s)
  | none =>
    if s.x.ph = .idle then
      match s.env.requests with
      | [] => .next s
      | r :: rest => exec (decodeRequest r) (takeRequest r rest s)
    else .next (resume (resumeFuel s) s)

/-- The instruction of the word `w` presented on the request channel of an idle Controller, before every other request:
there the next step takes it. The state itself where the bits are no request. -/
def State.withFetchWord (s : State) (nbits w : Nat) : State :=
  match requestOfTableWord nbits w with
  | some r =>
    { s with x := { s.x with ph := .idle }, inFlight := none,
             env := { s.env with requests := r :: s.env.requests, resetLine := none } }
  | none => s

end Sys2Proof.Machine
end

