-- ==== Sys2Proof/Machine/Assembler.lean ====
section
/-! DEFINITION. The assembly syntax of a command sequence (30_encoding.md R90): one command a line, numbers in hexadecimal
with `0x` or decimal, `;` starting a comment. A line the syntax does not have is refused. Log entry 20. -/

namespace Sys2Proof.Machine

open Sys2Proof

/-- A line's command with its operands as written (30_encoding.md R90). -/
inductive AsmLine where
  /-- `INIT` -/
  | init
  /-- `RD8 addr` -/
  | rd8 (addr : Nat)
  /-- `WR8 addr, byte` -/
  | wr8 (addr byte : Nat)
  /-- `RD16 addr` -/
  | rd16 (addr : Nat)
  /-- `WR16 addr, half` -/
  | wr16 (addr half : Nat)
  /-- `RD32 addr` -/
  | rd32 (addr : Nat)
  /-- `WR32 addr, word` -/
  | wr32 (addr word : Nat)
  /-- `RDBLK addr, n` -/
  | rdblk (addr n : Nat)
  /-- `WRBLK addr, n, [b0, ..., b(n-1)]` -/
  | wrblk (addr n : Nat) (bytes : List Nat)
deriving DecidableEq, Repr

/-- The operands of a line are in their ranges (30_encoding.md R90). -/
def asmWellFormed (l : AsmLine) : Bool :=
  match l with
  | .init => true
  | .rd8 a | .rd16 a | .rd32 a => operandInRange 16 a
  | .wr8 a b => operandInRange 16 a && operandInRange 8 b
  | .wr16 a h => operandInRange 16 a && operandInRange 16 h
  | .wr32 a w => operandInRange 16 a && operandInRange 32 w
  | .rdblk a n => operandInRange 16 a && operandInRange 16 n
  | .wrblk a n bytes => operandInRange 16 a && operandInRange 16 n && byteListInRange n bytes

/-- A request with its operands given as numbers; unused fields are written as 0 (30_encoding.md R90). -/
def asmRequest (cmd : CmdCode) (addr wdata count : Nat) : Request :=
  { cmd := cmd, addr := BitVec.ofNat 16 addr, wdata := BitVec.ofNat 32 wdata, count := BitVec.ofNat 16 count }

/-- The request of a line whose operands are in range. -/
def asmLineRequest (l : AsmLine) : Request :=
  match l with
  | .init => asmRequest 0x8 0 0 0
  | .rd8 a => asmRequest 0x0 a 0 0
  | .wr8 a b => asmRequest 0x1 a b 0
  | .rd16 a => asmRequest 0x2 a 0 0
  | .wr16 a h => asmRequest 0x3 a h 0
  | .rd32 a => asmRequest 0x4 a 0 0
  | .wr32 a w => asmRequest 0x5 a w 0
  | .rdblk a n => asmRequest 0x6 a 0 n
  | .wrblk a n _ => asmRequest 0x7 a 0 n

/-- The bytes the Host will supply on the source stream for a line (30_encoding.md R90). -/
def asmLineSource (l : AsmLine) : List Byte :=
  match l with
  | .wrblk _ _ bytes => bytes.map (BitVec.ofNat 8)
  | _ => []

/-- A line assembled: its request and its source bytes, or `none` where an operand is out of range: "the assembler refuses
the line" (30_encoding.md R90). -/
def assemble (l : AsmLine) : Option (Request × List Byte) :=
  if asmWellFormed l then some (asmLineRequest l, asmLineSource l) else none

/-! ### The text of a line -/

/-- A token of a line. -/
inductive AsmToken where
  /-- a mnemonic or a number -/
  | text (cs : List Char)
  /-- `,` -/
  | comma
  /-- `[` -/
  | listOpen
  /-- `]` -/
  | listClose
deriving DecidableEq, Repr

/-- The token gathered so far, if any, before the tokens that follow. -/
def closeToken (gathered : List Char) (rest : List AsmToken) : List AsmToken :=
  if gathered.isEmpty then rest else .text gathered.reverse :: rest

/-- The tokens of a line, up to its comment; `gathered` holds the characters of the current token, last first. -/
def asmTokens (gathered : List Char) : List Char → List AsmToken
  | [] => closeToken gathered []
  | c :: cs =>
    if c = ';' then closeToken gathered []
    else if c = ' ' || c = '\t' then closeToken gathered (asmTokens [] cs)
    else if c = ',' then closeToken gathered (.comma :: asmTokens [] cs)
    else if c = '[' then closeToken gathered (.listOpen :: asmTokens [] cs)
    else if c = ']' then closeToken gathered (.listClose :: asmTokens [] cs)
    else asmTokens (c :: gathered) cs

/-- The value of a digit in the given base. -/
def digitValue (base : Nat) (c : Char) : Option Nat :=
  let v :=
    if '0' ≤ c && c ≤ '9' then c.toNat - '0'.toNat
    else if 'A' ≤ c && c ≤ 'F' then c.toNat - 'A'.toNat + 10
    else if 'a' ≤ c && c ≤ 'f' then c.toNat - 'a'.toNat + 10
    else 16
  if v < base then some v else none

/-- The number the digits spell, after `acc`. -/
def digitsValue (base acc : Nat) : List Char → Option Nat
  | [] => some acc
  | c :: cs =>
    match digitValue base c with
    | some d => digitsValue base (acc * base + d) cs
    | none => none

/-- A number: hexadecimal with `0x`, or decimal (30_encoding.md R90). -/
def asmNumber (cs : List Char) : Option Nat :=
  match cs with
  | [] => none
  | '0' :: 'x' :: d :: ds => digitsValue 16 0 (d :: ds)
  | _ => digitsValue 10 0 cs

/-- The numbers of a byte list after its `[`, up to its `]` at the end of the line. -/
def asmBytes : List AsmToken → Option (List Nat)
  | [.listClose] => some []
  | [.text b, .listClose] =>
    match asmNumber b with
    | some v => some [v]
    | none => none
  | .text b :: .comma :: .text c :: rest =>
    match asmNumber b, asmBytes (.text c :: rest) with
    | some v, some vs => some (v :: vs)
    | _, _ => none
  | _ => none

/-- A line with one operand. -/
def asmOne (make : Nat → AsmLine) : List AsmToken → Option AsmLine
  | [.text a] => (asmNumber a).map make
  | _ => none

/-- A line with two operands. -/
def asmTwo (make : Nat → Nat → AsmLine) : List AsmToken → Option AsmLine
  | [.text a, .comma, .text b] =>
    match asmNumber a, asmNumber b with
    | some v, some w => some (make v w)
    | _, _ => none
  | _ => none

/-- A WRBLK line's operands. -/
def asmBlock : List AsmToken → Option AsmLine
  | .text a :: .comma :: .text n :: .comma :: .listOpen :: rest =>
    match asmNumber a, asmNumber n, asmBytes rest with
    | some v, some m, some bytes => some (.wrblk v m bytes)
    | _, _, _ => none
  | _ => none

/-- The command of a line's tokens (30_encoding.md R90). -/
def asmCommand (name : List Char) (operands : List AsmToken) : Option AsmLine :=
  if name = ['I', 'N', 'I', 'T'] then (if operands.isEmpty then some .init else none)
  else if name = ['R', 'D', '8'] then asmOne .rd8 operands
  else if name = ['W', 'R', '8'] then asmTwo .wr8 operands
  else if name = ['R', 'D', '1', '6'] then asmOne .rd16 operands
  else if name = ['W', 'R', '1', '6'] then asmTwo .wr16 operands
  else if name = ['R', 'D', '3', '2'] then asmOne .rd32 operands
  else if name = ['W', 'R', '3', '2'] then asmTwo .wr32 operands
  else if name = ['R', 'D', 'B', 'L', 'K'] then asmTwo .rdblk operands
  else if name = ['W', 'R', 'B', 'L', 'K'] then asmBlock operands
  else none

/-- What a line of text is. -/
inductive AsmText where
  /-- nothing but a comment -/
  | blank
  /-- a command -/
  | line (l : AsmLine)
  /-- refused: not of the syntax, or an operand out of range -/
  | refused
deriving DecidableEq, Repr

/-- A line of text read. -/
def asmParse (cs : List Char) : AsmText :=
  match asmTokens [] cs with
  | [] => .blank
  | .text name :: operands =>
    match asmCommand name operands with
    | some l => if asmWellFormed l then .line l else .refused
    | none => .refused
  | _ => .refused

/-- The requests and the source bytes of a program's lines, in order; `none` if the assembler refuses a line. -/
def assembleProgram : List AsmLine → Option (List Request × List Byte)
  | [] => some ([], [])
  | l :: rest =>
    match assemble l, assembleProgram rest with
    | some (r, src), some (rs, srcs) => some (r :: rs, src ++ srcs)
    | _, _ => none

/-- A program loaded from outside: the Host presents its requests in order and offers its source bytes (log entry 2). -/
def State.withProgram (s : State) (program : List Request × List Byte) : State :=
  { s with env := { s.env with requests := s.env.requests ++ program.1, source := s.env.source ++ program.2 } }

end Sys2Proof.Machine
end

