-- ==== Sys2Proof/Machine/Environment.lean ====
section
/-! DEFINITION. The moves of the agents outside the block (00_scope.md R7, 70_reset_and_hazards.md R193): what the Host and the
Store may do between two Controller steps, also inside a command. A run of the whole system is a list of acts. -/

namespace Sys2Proof.Machine

open Sys2Proof

/-- One move of the Host, the Store or the platform. -/
inductive EnvMove where
  /-- the Host presents a request: it waits on the request channel until it is accepted (R188) -/
  | present (r : Request)
  /-- the Host changes the request that waits to be accepted: the value at the accepting step counts (R193 H1) -/
  | changeWaiting (r : Request)
  /-- the Host offers more source bytes (R191) -/
  | supply (bytes : List Byte)
  /-- the Host will take so many destination bytes (60_exceptions.md R173) -/
  | takeDestination (r : Readiness)
  /-- the Host will take so many responses (R173) -/
  | takeResponses (r : Readiness)
  /-- the Store will complete so many transfers (R173, R192) -/
  | completeStore (r : Readiness)
  /-- the code the Store's `init` will answer (20_memory.md R66) -/
  | answerInit (c : StatusCode)
  /-- the reset input is asserted, or power is lost (R180, R185; log entries 13 and 25) -/
  | assertReset (c : ResetCause)
  /-- another agent writes the store, against R189 -/
  | foreignWrite (i : WordIndex) (w : CellWord)
deriving DecidableEq, Repr

/-- The request list after the Host changes the one at the channel. -/
def changeFirst (r : Request) : List Request → List Request
  | [] => []
  | _ :: rest => r :: rest

/-- Another agent's write of the store: it sets the refused mark ConcurrentStoreMaster (70_reset_and_hazards.md R189) and
has the effect of a store write on the cells. The mark names the command in flight, if there is one. Log entry 16. -/
def foreignWrite (i : WordIndex) (w : CellWord) (s : State) : State :=
  raiseRefuse .concurrentStoreMaster s.commandInFlight
    { s with store := { s.store with mem := s.memAfterWrite i w }, draws := s.drawsNext }

/-- The effect of a move. A second reset cause asserted before the next Controller step joins the first (`pendReset`, log
entry 25). -/
def envMove (m : EnvMove) (s : State) : State :=
  match m with
  | .present r => { s with env := { s.env with requests := s.env.requests ++ [r] } }
  | .changeWaiting r => { s with env := { s.env with requests := changeFirst r s.env.requests } }
  | .supply bytes => { s with env := { s.env with source := s.env.source ++ bytes } }
  | .takeDestination r => { s with env := { s.env with dstReady := r } }
  | .takeResponses r => { s with env := { s.env with rspReady := r } }
  | .completeStore r => { s with env := { s.env with storeReady := r } }
  | .answerInit c => { s with env := { s.env with initAnswer := c } }
  | .assertReset c => { s with env := { s.env with resetLine := some (pendReset s.env.resetLine c) } }
  | .foreignWrite i w => foreignWrite i w s

/-- One act of a run: a Controller step, or a move of another agent. -/
inductive Act where
  /-- one step of the Controller -/
  | controller
  /-- one move of the environment -/
  | env (m : EnvMove)
deriving DecidableEq, Repr

/-- The effect of an act. -/
def act (a : Act) (s : State) : State :=
  match a with
  | .controller => (tick s).state
  | .env m => envMove m s

/-- A run of the whole system: acts in order. -/
def runActs (acts : List Act) (s : State) : State :=
  match acts with
  | [] => s
  | a :: rest => runActs rest (act a s)

end Sys2Proof.Machine
end

