-- ==== Sys2Proof/Machine/Observe.lean ====
section
/-! DEFINITION. What statements say of a run: the store trace (20_memory.md R67) and its counts, the words and bytes a command
is to read and the events it is to make, in closed form. No step uses these. -/

namespace Sys2Proof.Machine

open Sys2Proof

/-! ### The parts of a history -/

/-- A transfer on the store port (20_memory.md R66). -/
def Event.onStorePort (e : Event) : Bool :=
  match e with
  | .storeInit _ | .storeRead _ _ | .storeWrite _ _ => true
  | .request _ | .source _ _ | .destination _ _ | .response _ _ | .diag _ => false

/-- The store trace of a list of events (20_memory.md R67). -/
def storeTrace (es : List Event) : List Event := es.filter Event.onStorePort

/-- The destination bytes delivered, in order (43_block_access.md R142). -/
def destinationBytes (es : List Event) : List Byte :=
  es.filterMap fun e =>
    match e with
    | .destination _ b => some b
    | _ => none

/-- The read data of the responses, in order. -/
def responseData (es : List Event) : List Data :=
  es.filterMap fun e =>
    match e with
    | .response d _ => some d
    | _ => none

/-- How many diagnostic events a list holds. -/
def diagCount (es : List Event) : Nat :=
  (es.filter fun e =>
    match e with
    | .diag _ => true
    | _ => false).length

/-- An event without its data: the channel, the cell, the byte index (what may not depend on the store's answers). -/
def Event.shape (e : Event) : Event :=
  match e with
  | .request r => .request r
  | .storeInit _ => .storeInit .storeOk
  | .storeRead i _ => .storeRead i 0
  | .storeWrite i _ => .storeWrite i 0
  | .source k b => .source k b
  | .destination k _ => .destination k 0
  | .response _ _ => .response 0 false
  | .diag c => .diag c

/-- The columns of the table of 70_reset_and_hazards.md R195. -/
structure TransferCounts where
  /-- store reads -/
  reads : Nat
  /-- store writes -/
  writes : Nat
  /-- store inits -/
  inits : Nat
  /-- stream transfers -/
  streams : Nat
  /-- responses -/
  responses : Nat
deriving DecidableEq, Repr

/-- The counts with one event more. -/
def countEvent (e : Event) (c : TransferCounts) : TransferCounts :=
  match e with
  | .storeRead _ _ => { c with reads := c.reads + 1 }
  | .storeWrite _ _ => { c with writes := c.writes + 1 }
  | .storeInit _ => { c with inits := c.inits + 1 }
  | .source _ _ | .destination _ _ => { c with streams := c.streams + 1 }
  | .response _ _ => { c with responses := c.responses + 1 }
  | .request _ | .diag _ => c

/-- The counts of a list of events. -/
def countEvents : List Event → TransferCounts
  | [] => ⟨0, 0, 0, 0, 0⟩
  | e :: es => countEvent e (countEvents es)

/-- The row of a command in the table of 70_reset_and_hazards.md R195. -/
def expectedCounts (i : Instr) : TransferCounts :=
  match i with
  | .rd8 _ _ _ => ⟨1, 0, 0, 0, 1⟩
  | .wr8 _ _ _ => ⟨1, 1, 0, 0, 1⟩
  | .rd16 _ _ _ => ⟨2, 0, 0, 0, 1⟩
  | .wr16 _ _ _ => ⟨2, 2, 0, 0, 1⟩
  | .rd32 _ _ _ => ⟨4, 0, 0, 0, 1⟩
  | .wr32 _ _ _ => ⟨4, 4, 0, 0, 1⟩
  | .rdblk _ _ n => ⟨n.toNat, 0, 0, n.toNat, 1⟩
  | .wrblk _ _ n => ⟨n.toNat, n.toNat, 0, n.toNat, 1⟩
  | .init _ _ _ => ⟨0, 0, 1, 0, 1⟩
  | .reserved9 _ _ _ | .reservedA _ _ _ | .reservedB _ _ _ | .reservedC _ _ _ | .reservedD _ _ _ | .reservedE _ _ _
  | .reservedF _ _ _ => ⟨0, 0, 0, 0, 1⟩

/-! ### The store under a trace (20_memory.md R71) -/

/-- The bytes after the store writes of a list of events. -/
def replay (m : Memory) : List Event → Memory
  | [] => m
  | .storeWrite i w :: es => replay (m.writeCell i w) es
  | _ :: es => replay m es

/-- Every store read of the list returns the data of the last store write of its cell before it, or, where there is none,
the cell of `m`. -/
def coherent (m : Memory) : List Event → Prop
  | [] => True
  | .storeRead i w :: es => w = m.cell i ∧ coherent m es
  | .storeWrite i w :: es => coherent (m.writeCell i w) es
  | _ :: es => coherent m es

/-! ### The bytes of a command -/

/-- `a_j`, the offset of byte `j` (20_memory.md R54). -/
def offsetAt (loc : Loc) (j : Nat) : Offset := byteOffset loc (BitVec.ofNat 16 j)

/-- The cell of byte `j`. -/
def cellAt (loc : Loc) (j : Nat) : WordIndex := wordIndex (offsetAt loc j)

/-- The word that store read number `j` of a read command returns: the cell, or draw number `j` of the command. -/
def State.wordAt (s : State) (loc : Loc) (j : Nat) : CellWord :=
  match s.store.status with
  | .ok => s.store.mem.cell (cellAt loc j)
  | .uninit | .failed => Config.draw (s.draws + j)

/-- Byte `j` of a read command. -/
def State.byteAt (s : State) (loc : Loc) (j : Nat) : Byte := laneByte (offsetAt loc j) (s.wordAt loc j)

/-- The draw number after `j` store transfers. -/
def State.drawsAfter (s : State) (j : Nat) : Nat :=
  match s.store.status with
  | .ok => s.draws
  | .uninit | .failed => s.draws + j

/-- The store reads of a read command of `n` bytes. -/
def State.readEvents (s : State) (loc : Loc) (n : Nat) : List Event :=
  (List.range n).map fun j => .storeRead (cellAt loc j) (s.wordAt loc j)

/-- The events of an RDBLK of `n` bytes before its response. -/
def State.blockReadEvents (s : State) (loc : Loc) (n : Nat) : List Event :=
  (List.range n).flatMap fun j =>
    [.storeRead (cellAt loc j) (s.wordAt loc j), .destination (BitVec.ofNat 16 j) (s.byteAt loc j)]

/-- The store transfers of writing `bytes` from byte `k` on, to a faithful store that holds `m`. -/
def writeEvents (m : Memory) (loc : Loc) (k : Nat) : List Byte → List Event
  | [] => []
  | b :: bs =>
    .storeRead (cellAt loc k) (m.cell (cellAt loc k))
      :: .storeWrite (cellAt loc k) (mergeByte (offsetAt loc k) b (m.cell (cellAt loc k)))
      :: writeEvents (m.write (offsetAt loc k).toNat b) loc (k + 1) bs

/-- The same with the source byte taken before each pair (43_block_access.md R142). -/
def blockWriteEvents (m : Memory) (loc : Loc) (k : Nat) : List Byte → List Event
  | [] => []
  | b :: bs =>
    .source (BitVec.ofNat 16 k) b
      :: .storeRead (cellAt loc k) (m.cell (cellAt loc k))
      :: .storeWrite (cellAt loc k) (mergeByte (offsetAt loc k) b (m.cell (cellAt loc k)))
      :: blockWriteEvents (m.write (offsetAt loc k).toNat b) loc (k + 1) bs

/-- The store transfers of byte `j` of a write to a store that is not OK, the command's first draw being number `d`: the
word read is a draw, the word written its merge. -/
def drawnWriteEvents (d : Nat) (loc : Loc) (j : Nat) (b : Byte) : List Event :=
  [.storeRead (cellAt loc j) (Config.draw (d + 2 * j)),
   .storeWrite (cellAt loc j) (mergeByte (offsetAt loc j) b (Config.draw (d + 2 * j)))]

/-- The store transfers of writing `bytes` at `loc`, whatever the store's status. -/
def State.writeEventsOf (s : State) (loc : Loc) (bytes : List Byte) : List Event :=
  match s.store.status with
  | .ok => writeEvents s.store.mem loc 0 bytes
  | .uninit | .failed => (List.range bytes.length).flatMap fun j => drawnWriteEvents s.draws loc j (bytes.getD j 0)

/-- The events of a WRBLK of `bytes` before its response, whatever the store's status. -/
def State.blockWriteEventsOf (s : State) (loc : Loc) (bytes : List Byte) : List Event :=
  match s.store.status with
  | .ok => blockWriteEvents s.store.mem loc 0 bytes
  | .uninit | .failed =>
    (List.range bytes.length).flatMap fun j =>
      .source (BitVec.ofNat 16 j) (bytes.getD j 0) :: drawnWriteEvents s.draws loc j (bytes.getD j 0)

/-- The bytes of `wdata` a WR8, WR16 or WR32 of `n` bytes writes, byte 0 first (20_memory.md R58). -/
def dataBytes (wdata : Data) (n : Nat) : List Byte := (List.range n).map fun j => dataByte wdata (BitVec.ofNat 16 j)

/-- The byte offsets a command of `n` bytes touches. -/
def touches (loc : Loc) (n a : Nat) : Prop := ∃ j, j < n ∧ a = (offsetAt loc j).toNat

/-- Memory `m'` is `m` with `bytes` stored at `a_0, a_1, …` in order: each offset holds the last byte stored to it, and
every offset outside the stored bytes reads as before. -/
def StoredAt (m m' : Memory) (loc : Loc) (bytes : List Byte) : Prop :=
  (∀ j b, bytes[j]? = some b → (∀ j', j < j' → j' < bytes.length → offsetAt loc j' ≠ offsetAt loc j) →
    m'.read (offsetAt loc j).toNat = b) ∧
  (∀ a, ¬ touches loc bytes.length a → m'.read a = m.read a)

/-- What a completed data command leaves but for the store: the registers latched and counted up (10_state.md R23, R24), the
Controller IDLE with no transfer in progress, the transfers used, the draws taken, the events made. -/
def State.completed (s : State) (op : CmdCode) (addr : Loc) (wdata : Data) (n : Count) (acc : Data) (cur : Byte)
    (old : CellWord) (stores dsts draws : Nat) (events : List Event) : State :=
  { s with
      x := { ph := .idle, op := op, base := addr, wdata := wdata, n := n, k := n, acc := acc, cur := cur, old := old,
             ok := false }
      inFlight := none
      env := { s.env with storeReady := s.env.storeReady.after stores, dstReady := s.env.dstReady.after dsts,
                          rspReady := s.env.rspReady.after 1 }
      draws := draws
      history := s.history ++ events }

/-- The state with another memory. -/
def State.withMem (s : State) (m : Memory) : State := { s with store := { s.store with mem := m } }

/-- The state with other source bytes waiting. -/
def State.withSource (s : State) (bytes : List Byte) : State := { s with env := { s.env with source := bytes } }

/-- The readiness of an agent that is to make the transfers of both. -/
def Readiness.plus (r more : Readiness) : Readiness :=
  match r, more with
  | .times a, .times b => .times (a + b)
  | .always, _ | _, .always => .always

/-- The state once the Store completes so many store transfers more, and the Host takes so many destination bytes and responses
more and supplies the source bytes `bytes` more (60_exceptions.md R173: the transfers that lift a wait). -/
def State.answered (s : State) (stores dsts responses : Readiness) (bytes : List Byte) : State :=
  { s with env := { s.env with storeReady := s.env.storeReady.plus stores, dstReady := s.env.dstReady.plus dsts,
                               rspReady := s.env.rspReady.plus responses, source := s.env.source ++ bytes } }

/-- Every agent makes every transfer the Controller waits for. -/
def State.allReady (s : State) : Prop :=
  s.env.storeReady = .always ∧ s.env.dstReady = .always ∧ s.env.rspReady = .always

end Sys2Proof.Machine
end

