-- ==== Sys2Proof/Safety.lean ====
section
/-! DEFINITION. What counts as a good state and a good run. -/

namespace Sys2Proof.Machine

open Sys2Proof

/-- A claim about a run counts only where the refused mark is not set: "A run with the mark set satisfies no claim"
(60_exceptions.md R162). -/
def State.claimable (s : State) : Prop := s.mark = none

/-- A run of acts that ends with no refused mark. -/
def claimableRun (acts : List Act) (s : State) : Prop := (runActs acts s).claimable

/-- The channel whose transfer a phase makes (10_state.md R24). -/
def phaseChannel (x : InFlight) : Option Channel :=
  match x.ph with
  | .idle => none
  | .init | .rmwRd | .rmwWr | .rd => some .storePort
  | .fetch => if x.op = 0x7 then some .source else none
  | .dst => some .destination
  | .resp => some .response

/-- The registers a phase may be reached with (10_state.md R22, R24): the code belongs to the phase, and the byte index is
below the count while bytes are left and equal to it at the response. -/
def phaseLegal (x : InFlight) : Prop :=
  match x.ph with
  | .idle => True
  | .init => x.op = 0x8 ∧ x.k = x.n
  | .fetch | .rmwRd | .rmwWr => isWrite x.op = true ∧ x.k.toNat < x.n.toNat
  | .rd => (isSystem x.op || isWrite x.op) = false ∧ x.k.toNat < x.n.toNat
  | .dst => x.op = 0x6 ∧ x.k.toNat < x.n.toNat
  | .resp => x.k = x.n

/-- The invariant of the machine. -/
structure State.Inv (s : State) : Prop where
  /-- the byte space is in its canonical form -/
  mem : s.store.mem.wf = true
  /-- the phase and the registers agree -/
  phase : phaseLegal s.x
  /-- the count of a command in flight is the one its code gives (30_encoding.md R84) -/
  count : s.x.ph ≠ .idle → isBlock s.x.op = true ∨ s.x.n = byteCount s.x.op 0
  /-- only the transfer of the phase can be in progress; none in IDLE -/
  channel : s.inFlight = none ∨ s.inFlight = phaseChannel s.x
  /-- the store left UNINIT only by an INIT since power-up (10_state.md R32) -/
  initialised : s.store.status ≠ .uninit → s.initSeen = true
  /-- an INIT in flight has been noted -/
  initNoted : s.x.ph ≠ .idle → s.x.op = 0x8 → s.initSeen = true
  /-- a reserved code in flight has set the refused mark (60_exceptions.md R161) -/
  reservedMarked : s.x.ph ≠ .idle → isReserved s.x.op = true → s.mark ≠ none

end Sys2Proof.Machine
end

