-- ==== Sys2Proof/Certificates/Slice0/Obligations.lean ====
section
/-! DEFINITION. The statements for the provers, from the numbered rules of spec/. Where a statement names `draws`, a
`Readiness` or `x[old]` after a command, it names the model's bookkeeping (log entries 5 and 10) or a dead register (10_state.md
R34). The names of the closed forms are those of Machine/Observe.lean. -/

open Sys2Proof Sys2Proof.Machine

/-! ### Encoding (30_encoding.md) -/

/-- Every command, with every operand at every value, is read back from its nine bytes, and nothing after them is used. -/
def Obligations.DecodingUndoesEncoding : Prop :=
  ∀ (i : Instr) (rest : List Byte), i.wellFormed = true → decodeBytes (encodeBytes i ++ rest) = .ok (i, rest)

/-- Every canonical request word is the encoding of the command it decodes to: no bit of the 68 is dropped. -/
def Obligations.EncodingUndoesDecoding : Prop :=
  ∀ w : ReqWord, encodeWord (decodeWord w) = w

/-- R83: the decode looks at `cmd` only, and the command selected is the row of R82 with that code. -/
def Obligations.DecodingLooksAtTheCodeOnly : Prop :=
  ∀ r : Request, (decodeRequest r).code = r.cmd ∧
    ∀ (a : Loc) (w : Data) (c : Count), (decodeRequest { r with addr := a, wdata := w, count := c }).code = r.cmd

/-- R89's own example word and words of the test vectors decode to the commands they stand for. -/
def Obligations.SampleWordsDecode : Prop :=
  decodeTableWord 72 0x00000000ABCD0FFF3 = some (.wr16 0x0FFF 0x0000ABCD 0) ∧
  decodeTableWord 72 0x0000000000000FFF0 = some (.rd8 0x0FFF 0 0) ∧
  decodeTableWord 72 0x0000DEADBEEF01015 = some (.wr32 0x0101 0xDEADBEEF 0) ∧
  decodeTableWord 72 0x0003000000000FFE7 = some (.wrblk 0x0FFE 0 3) ∧
  decodeTableWord 72 0x00000000000000008 = some (.init 0 0 0) ∧
  decodeTableWord 72 0x0000000000000010F = some (.reservedF 0x0010 0 0)

/-- R90: an assembled line is a request with the line's command, and a line with an operand out of its range is refused.
The arms are the lines of the syntax. -/
def Obligations.AssemblerRefusesOperandsOutOfRange : Prop :=
  (∀ a v : Nat, assemble (.wr8 a v) =
    if a < 2 ^ 16 ∧ v < 2 ^ 8 then some (⟨0x1, BitVec.ofNat 16 a, BitVec.ofNat 32 v, 0⟩, []) else none) ∧
  (∀ a v : Nat, assemble (.wr16 a v) =
    if a < 2 ^ 16 ∧ v < 2 ^ 16 then some (⟨0x3, BitVec.ofNat 16 a, BitVec.ofNat 32 v, 0⟩, []) else none) ∧
  (∀ a v : Nat, assemble (.wr32 a v) =
    if a < 2 ^ 16 ∧ v < 2 ^ 32 then some (⟨0x5, BitVec.ofNat 16 a, BitVec.ofNat 32 v, 0⟩, []) else none) ∧
  (∀ a : Nat, assemble (.rd8 a) = if a < 2 ^ 16 then some (⟨0x0, BitVec.ofNat 16 a, 0, 0⟩, []) else none) ∧
  (∀ a : Nat, assemble (.rd16 a) = if a < 2 ^ 16 then some (⟨0x2, BitVec.ofNat 16 a, 0, 0⟩, []) else none) ∧
  (∀ a : Nat, assemble (.rd32 a) = if a < 2 ^ 16 then some (⟨0x4, BitVec.ofNat 16 a, 0, 0⟩, []) else none) ∧
  (∀ a n : Nat, assemble (.rdblk a n) =
    if a < 2 ^ 16 ∧ n < 2 ^ 16 then some (⟨0x6, BitVec.ofNat 16 a, 0, BitVec.ofNat 16 n⟩, []) else none) ∧
  (∀ (a n : Nat) (bs : List Nat), assemble (.wrblk a n bs) =
    if a < 2 ^ 16 ∧ n < 2 ^ 16 ∧ bs.length = n ∧ ∀ b ∈ bs, b < 2 ^ 8 then
      some (⟨0x7, BitVec.ofNat 16 a, 0, BitVec.ofNat 16 n⟩, bs.map (BitVec.ofNat 8)) else none) ∧
  assemble .init = some (⟨0x8, 0, 0, 0⟩, [])

/-! ### Address translation and byte lanes (20_memory.md) -/

/-- R54: byte `k` of a command at `loc` has offset `(loc + k) mod 4096`. -/
def Obligations.ByteOffsetsWrapAt4096 : Prop :=
  ∀ (loc : Loc) (k : Count), (byteOffset loc k).toNat = (loc.toNat + k.toNat) % 4096

/-- R50 to R52: the offset is `loc mod 4096`, its cell `off / 2`, its lane the parity of `off`: odd is the high byte of the
cell, even the low byte. -/
def Obligations.TranslationOfAPresentedAddress : Prop :=
  ∀ loc : Loc, (normalise loc).toNat = loc.toNat % 4096 ∧ byteOffset loc 0 = normalise loc ∧
    (wordIndex (normalise loc)).toNat = loc.toNat % 4096 / 2 ∧
    (lane (normalise loc) = true ↔ loc.toNat % 2 = 1) ∧
    ∀ w : CellWord, laneByte (normalise loc) w = if loc.toNat % 2 = 1 then w.extractLsb' 8 8 else w.extractLsb' 0 8

/-- R56, R57: merging puts the byte in the addressed lane and keeps the sibling byte, which is the same cell's other lane. -/
def Obligations.MergeKeepsTheSiblingByte : Prop :=
  ∀ (off : Offset) (b : Byte) (old : CellWord),
    laneByte off (mergeByte off b old) = b ∧ laneByte (sibling off) (mergeByte off b old) = laneByte (sibling off) old ∧
      wordIndex (sibling off) = wordIndex off

/-- R28: the sixteen presented addresses of an offset reach the same byte: every byte of a command has the same offset, and
every command makes the same transfers and leaves the same state but for `x[base]`. -/
def Obligations.AliasesReachTheSameByte : Prop :=
  (∀ (loc : Loc) (j : Nat) (k : Count), byteOffset (loc + BitVec.ofNat 16 (4096 * j)) k = byteOffset loc k) ∧
  ∀ (r : Request) (j : Nat) (s : State),
    ∃ t u : State, exec (decodeRequest r) s = .next t ∧
      exec (decodeRequest { r with addr := r.addr + BitVec.ofNat 16 (4096 * j) }) s = .next u ∧
      u = { t with x := { t.x with base := r.addr + BitVec.ofNat 16 (4096 * j) } }

/-- The canonical form determines the bytes: two well-formed byte spaces with no unconstrained write that read alike at
every offset are equal. The form is the model's. -/
def Obligations.CanonicalMemoriesThatReadAlikeAreEqual : Prop :=
  ∀ m m' : Memory, m.wf = true → m'.wf = true → m.lost = m'.lost → (∀ a, m.read a = m'.read a) → m = m'

/-! ### Single-byte commands (41_byte_access.md) -/

/-- R110: RD8 makes the one store read and answers the zero-extended byte of the lane; with the store not OK the byte is of
a draw. Nothing else changes. -/
def Obligations.Rd8ReturnsTheAddressedByte : Prop :=
  ∀ (addr : Loc) (wdata : Data) (count : Count) (s : State), s.env.storeReady.admits 1 = true →
    s.env.rspReady.admits 1 = true →
    exec (.rd8 addr wdata count) s = .next
      (s.completed 0x0 addr wdata 1 ((s.byteAt addr 0).setWidth 32) (s.byteAt addr 0) s.x.old 1 0 (s.drawsAfter 1)
        [.storeRead (wordIndex (normalise addr)) (s.wordAt addr 0), .response ((s.byteAt addr 0).setWidth 32) false])

/-- R111: WR8 reads the cell and writes its merge back, always, whatever the store's status; with the store OK the one byte
is stored and every other byte reads as before. -/
def Obligations.Wr8WritesOneByte : Prop :=
  ∀ (addr : Loc) (wdata : Data) (count : Count) (s : State), s.env.storeReady.admits 2 = true →
    s.env.rspReady.admits 1 = true →
    ∃ m : Memory, exec (.wr8 addr wdata count) s = .next
      ((s.completed 0x1 addr wdata 1 0 (wdata.extractLsb' 0 8) (s.wordAt addr 0) 2 0 (s.drawsAfter 2)
        [.storeRead (wordIndex (normalise addr)) (s.wordAt addr 0),
         .storeWrite (wordIndex (normalise addr)) (mergeByte (normalise addr) (wdata.extractLsb' 0 8) (s.wordAt addr 0)),
         .response 0 false]).withMem m) ∧
      (s.store.status = .ok → m.read (normalise addr).toNat = wdata.extractLsb' 0 8 ∧
        ∀ a, a ≠ (normalise addr).toNat → m.read a = s.store.mem.read a)

/-- R112: with the store OK, RD8 after WR8 at the same address returns the byte written. -/
def Obligations.ByteRoundTrip : Prop :=
  ∀ (o : Loc) (v w : Data) (c c' : Count) (s : State), s.store.status = .ok → s.env.storeReady.admits 3 = true →
    s.env.rspReady.admits 2 = true →
    ∃ t u : State, exec (.wr8 o v c) s = .next t ∧ exec (.rd8 o w c') t = .next u ∧
      u.history.getLast? = some (.response ((v.extractLsb' 0 8).setWidth 32) false)

/-- R113: writing `v1` at `o` and then `v2` at `o^1` leaves RD8 at `o` returning `v1`, and the cell holding both. -/
def Obligations.SiblingWritesDoNotInterfere : Prop :=
  ∀ (o : Loc) (v1 v2 w : Data) (c1 c2 c3 : Count) (s : State), s.store.status = .ok →
    s.env.storeReady.admits 5 = true → s.env.rspReady.admits 3 = true →
    ∃ t u v : State, exec (.wr8 o v1 c1) s = .next t ∧ exec (.wr8 (o ^^^ 1) v2 c2) t = .next u ∧
      exec (.rd8 o w c3) u = .next v ∧
      v.history.getLast? = some (.response ((v1.extractLsb' 0 8).setWidth 32) false) ∧
      laneByte (normalise o) (u.store.mem.cell (wordIndex (normalise o))) = v1.extractLsb' 0 8 ∧
      laneByte (sibling (normalise o)) (u.store.mem.cell (wordIndex (normalise o))) = v2.extractLsb' 0 8

/-- R114: RD8 and WR8 at `o` and at `o + 4096` make the same transfers and leave the same state but for `x[base]`. -/
def Obligations.ByteCommandsWrapAround : Prop :=
  ∀ (o : Loc) (w : Data) (c : Count) (s : State),
    (∃ t u : State, exec (.rd8 o w c) s = .next t ∧ exec (.rd8 (o + 4096) w c) s = .next u ∧
      u = { t with x := { t.x with base := o + 4096 } }) ∧
    (∃ t u : State, exec (.wr8 o w c) s = .next t ∧ exec (.wr8 (o + 4096) w c) s = .next u ∧
      u = { t with x := { t.x with base := o + 4096 } })

/-! ### Word and double-word commands (42_multibyte_access.md) -/

/-- R121: RD16 makes two store reads, one for each byte, and answers the little-endian value zero-extended; with the store
not OK the reads are separate draws. -/
def Obligations.Rd16ReturnsTheLittleEndianWord : Prop :=
  ∀ (addr : Loc) (wdata : Data) (count : Count) (s : State), s.env.storeReady.admits 2 = true →
    s.env.rspReady.admits 1 = true →
    exec (.rd16 addr wdata count) s = .next
      (s.completed 0x2 addr wdata 2 ((s.byteAt addr 1 ++ s.byteAt addr 0).setWidth 32) (s.byteAt addr 1) s.x.old 2 0
        (s.drawsAfter 2)
        [.storeRead (cellAt addr 0) (s.wordAt addr 0), .storeRead (cellAt addr 1) (s.wordAt addr 1),
         .response ((s.byteAt addr 1 ++ s.byteAt addr 0).setWidth 32) false])

/-- R122: RD32 makes four store reads and answers the little-endian value. -/
def Obligations.Rd32ReturnsTheLittleEndianDoubleWord : Prop :=
  ∀ (addr : Loc) (wdata : Data) (count : Count) (s : State), s.env.storeReady.admits 4 = true →
    s.env.rspReady.admits 1 = true →
    exec (.rd32 addr wdata count) s = .next
      (s.completed 0x4 addr wdata 4 (s.byteAt addr 3 ++ s.byteAt addr 2 ++ s.byteAt addr 1 ++ s.byteAt addr 0)
        (s.byteAt addr 3) s.x.old 4 0 (s.drawsAfter 4)
        [.storeRead (cellAt addr 0) (s.wordAt addr 0), .storeRead (cellAt addr 1) (s.wordAt addr 1),
         .storeRead (cellAt addr 2) (s.wordAt addr 2), .storeRead (cellAt addr 3) (s.wordAt addr 3),
         .response (s.byteAt addr 3 ++ s.byteAt addr 2 ++ s.byteAt addr 1 ++ s.byteAt addr 0) false])

/-- R123: WR16 makes its four transfers, read and write for each byte in order, whatever the store's status; with the store
OK its two bytes are stored and every other byte reads as before. -/
def Obligations.Wr16WritesTwoBytes : Prop :=
  ∀ (addr : Loc) (wdata : Data) (count : Count) (s : State), s.env.storeReady.admits 4 = true →
    s.env.rspReady.admits 1 = true →
    ∃ (m : Memory) (old : CellWord), exec (.wr16 addr wdata count) s = .next
      ((s.completed 0x3 addr wdata 2 0 (wdata.extractLsb' 8 8) old 4 0 (s.drawsAfter 4)
        (s.writeEventsOf addr [wdata.extractLsb' 0 8, wdata.extractLsb' 8 8] ++ [.response 0 false])).withMem m) ∧
      (s.store.status = .ok → StoredAt s.store.mem m addr [wdata.extractLsb' 0 8, wdata.extractLsb' 8 8])

/-- R124: WR32 makes its eight transfers, read and write for each byte in order, whatever the store's status; with the store
OK its four bytes are stored and every other byte reads as before. -/
def Obligations.Wr32WritesFourBytes : Prop :=
  ∀ (addr : Loc) (wdata : Data) (count : Count) (s : State), s.env.storeReady.admits 8 = true →
    s.env.rspReady.admits 1 = true →
    ∃ (m : Memory) (old : CellWord), exec (.wr32 addr wdata count) s = .next
      ((s.completed 0x5 addr wdata 4 0 (wdata.extractLsb' 24 8) old 8 0 (s.drawsAfter 8)
        (s.writeEventsOf addr [wdata.extractLsb' 0 8, wdata.extractLsb' 8 8, wdata.extractLsb' 16 8, wdata.extractLsb' 24 8]
          ++ [.response 0 false])).withMem m) ∧
      (s.store.status = .ok → StoredAt s.store.mem m addr
        [wdata.extractLsb' 0 8, wdata.extractLsb' 8 8, wdata.extractLsb' 16 8, wdata.extractLsb' 24 8])

/-- R60: WR16 at an even offset leaves the cell equal to the value; WR32 at a multiple of four leaves its two cells equal to
the value's halves; whatever the cells held before. -/
def Obligations.AlignedWritesFillWholeCells : Prop :=
  ∀ (addr : Loc) (wdata : Data) (count : Count) (s : State), s.store.status = .ok → s.env.storeReady.admits 8 = true →
    (addr.toNat % 2 = 0 → ∃ t, exec (.wr16 addr wdata count) s = .next t ∧
      t.store.mem.cell (wordIndex (normalise addr)) = wdata.extractLsb' 0 16) ∧
    (addr.toNat % 4 = 0 → ∃ t, exec (.wr32 addr wdata count) s = .next t ∧
      t.store.mem.cell (wordIndex (normalise addr)) = wdata.extractLsb' 0 16 ∧
      t.store.mem.cell (wordIndex (normalise addr) + 1) = wdata.extractLsb' 16 16)

/-- R125: RD16 after WR16, and RD32 after WR32, at any address, return the value written. -/
def Obligations.WordAndDoubleWordRoundTrip : Prop :=
  ∀ (o : Loc) (v w : Data) (c c' : Count) (s : State), s.store.status = .ok →
    s.env.rspReady.admits 2 = true →
    (s.env.storeReady.admits 6 = true →
      ∃ t u : State, exec (.wr16 o v c) s = .next t ∧ exec (.rd16 o w c') t = .next u ∧
        u.history.getLast? = some (.response ((v.extractLsb' 0 16).setWidth 32) false)) ∧
    (s.env.storeReady.admits 12 = true →
      ∃ t u : State, exec (.wr32 o v c) s = .next t ∧ exec (.rd32 o w c') t = .next u ∧
        u.history.getLast? = some (.response v false))

/-- R64: running WR8, WR16, WR32, or WRBLK with the same bytes offered twice, a second time leaves every byte as running it
once, and makes the store trace twice as long. -/
def Obligations.WritingTwiceStoresTheSame : Prop :=
  ∀ (i : Instr) (s : State), s.store.status = .ok → s.allReady →
    (i.code = 0x1 ∨ i.code = 0x3 ∨ i.code = 0x5 ∨
      ∃ (addr : Loc) (wdata : Data) (bs rest : List Byte), bs.length < 2 ^ 16 ∧
        i = .wrblk addr wdata (BitVec.ofNat 16 bs.length) ∧ s.env.source = bs ++ bs ++ rest) →
    ∃ t u : State, exec i s = .next t ∧ exec i t = .next u ∧ t.x.ph = .idle ∧ u.x.ph = .idle ∧
      (∀ a, u.store.mem.read a = t.store.mem.read a) ∧
      (storeTrace (u.history.drop s.history.length)).length = 2 * (storeTrace (t.history.drop s.history.length)).length

/-- R68, on the bytes: after WR8, WR16, WR32 or a WRBLK of at least one byte on a store that is not OK, nothing is known of
any byte of the store: each reads as a free byte of the last draw taken. That form is the model's (log entry 6). -/
def Obligations.WritesToAStoreThatIsNotOkLeaveNoByteKnown : Prop :=
  ∀ (addr : Loc) (wdata : Data) (count : Count) (s : State), s.store.status ≠ .ok →
    (∀ (i : Instr) (n : Nat),
      (i, n) ∈ [(Instr.wr8 addr wdata count, 1), (Instr.wr16 addr wdata count, 2), (Instr.wr32 addr wdata count, 4)] →
      s.env.storeReady.admits (2 * n) = true →
      ∃ t, exec i s = .next t ∧ t.draws = s.draws + 2 * n ∧
        ∀ a, t.store.mem.read a = Config.lostByte (s.draws + 2 * n - 1) a) ∧
    (0 < count.toNat → count.toNat ≤ s.env.source.length → s.env.storeReady.admits (2 * count.toNat) = true →
      ∃ t, exec (.wrblk addr wdata count) s = .next t ∧ t.draws = s.draws + 2 * count.toNat ∧
        ∀ a, t.store.mem.read a = Config.lostByte (s.draws + 2 * count.toNat - 1) a)

/-! ### Block commands (43_block_access.md) -/

/-- R141: RDBLK reads and delivers `count` bytes, each read before its delivery and each delivered before the next read, and
then answers; a count of 0 answers at once. -/
def Obligations.RdblkDeliversTheBytesInOrder : Prop :=
  ∀ (addr : Loc) (wdata : Data) (count : Count) (s : State), s.env.storeReady.admits count.toNat = true →
    s.env.dstReady.admits count.toNat = true → s.env.rspReady.admits 1 = true →
    exec (.rdblk addr wdata count) s = .next
      (s.completed 0x6 addr wdata count 0 (if count = 0 then s.x.cur else s.byteAt addr (count.toNat - 1)) s.x.old
        count.toNat count.toNat (s.drawsAfter count.toNat)
        (s.blockReadEvents addr count.toNat ++ [.response 0 false]))

/-- R143: WRBLK takes, merges and writes `count` bytes in order and then answers, whatever the store's status; with the store
OK the bytes are stored, a later byte at the same offset winning, and every other byte reads as before. -/
def Obligations.WrblkStoresTheSourceBytes : Prop :=
  ∀ (addr : Loc) (wdata : Data) (count : Count) (bs rest : List Byte) (s : State), s.env.source = bs ++ rest →
    bs.length = count.toNat → s.env.storeReady.admits (2 * count.toNat) = true → s.env.rspReady.admits 1 = true →
    ∃ (m : Memory) (old : CellWord), exec (.wrblk addr wdata count) s = .next
      (((s.completed 0x7 addr wdata count 0 (bs.getLast?.getD s.x.cur) old (2 * count.toNat) 0
        (s.drawsAfter (2 * count.toNat)) (s.blockWriteEventsOf addr bs ++ [.response 0 false])).withMem m).withSource rest) ∧
      (s.store.status = .ok → StoredAt s.store.mem m addr bs)

/-- R144: RDBLK and WRBLK with a count of 0 make no store and no stream transfer; the response is their only event. -/
def Obligations.ZeroCountOnlyResponds : Prop :=
  ∀ (addr : Loc) (wdata : Data) (s : State), s.env.rspReady.admits 1 = true →
    exec (.rdblk addr wdata 0) s = .next (s.completed 0x6 addr wdata 0 0 s.x.cur s.x.old 0 0 s.draws [.response 0 false]) ∧
    exec (.wrblk addr wdata 0) s = .next (s.completed 0x7 addr wdata 0 0 s.x.cur s.x.old 0 0 s.draws [.response 0 false])

/-- R146: with the store OK, WRBLK of `B` and then RDBLK of the same count deliver, for each byte, the last byte written to
its offset; so for a count of at most 4096 they deliver exactly `B`. -/
def Obligations.BlockRoundTrip : Prop :=
  ∀ (o : Loc) (n : Count) (w w' : Data) (bs rest : List Byte) (s : State), s.store.status = .ok → s.allReady →
    s.env.source = bs ++ rest → bs.length = n.toNat →
    ∃ t u : State, exec (.wrblk o w n) s = .next t ∧ exec (.rdblk o w' n) t = .next u ∧
      (n.toNat ≤ 4096 → destinationBytes (u.history.drop t.history.length) = bs) ∧
      (destinationBytes (u.history.drop t.history.length)).length = n.toNat ∧
      ∀ k j : Nat, k < n.toNat → j < n.toNat → offsetAt o j = offsetAt o k →
        (∀ j', j < j' → j' < n.toNat → offsetAt o j' ≠ offsetAt o k) →
        (destinationBytes (u.history.drop t.history.length))[k]? = bs[j]?

/-- R145: one RDBLK of an OK store delivers as many bytes as its count, byte `k` and byte `k + 4096` alike, each with its own
store read. -/
def Obligations.LongBlockReadsRepeat : Prop :=
  ∀ (o : Loc) (n : Count) (w : Data) (s : State), s.store.status = .ok → s.allReady →
    ∃ t : State, exec (.rdblk o w n) s = .next t ∧
      (storeTrace (t.history.drop s.history.length)).length = n.toNat ∧
      (destinationBytes (t.history.drop s.history.length)).length = n.toNat ∧
      ∀ k, k + 4096 < n.toNat →
        (destinationBytes (t.history.drop s.history.length))[k]? =
          (destinationBytes (t.history.drop s.history.length))[k + 4096]?

/-- R91, reads: RD8, RD16 and RD32 have the store trace of RDBLK with a count of 1, 2 and 4, which delivers the bytes of
their read data. -/
def Obligations.ReadSpellingsHaveOneTrace : Prop :=
  ∀ (addr : Loc) (w : Data) (c : Count) (s : State), s.allReady →
    ∀ (i : Instr) (n : Nat), (i, n) ∈ [(Instr.rd8 addr w c, 1), (Instr.rd16 addr w c, 2), (Instr.rd32 addr w c, 4)] →
      ∃ t u : State, exec i s = .next t ∧ exec (.rdblk addr w (BitVec.ofNat 16 n)) s = .next u ∧
        storeTrace t.history = storeTrace u.history ∧ u.store = t.store ∧
        ∃ v : Data, t.history.getLast? = some (.response v false) ∧
          destinationBytes (u.history.drop s.history.length) = dataBytes v n

/-- R91, writes: WR8, WR16 and WR32 have the store trace and the result of WRBLK of their bytes. -/
def Obligations.WriteSpellingsHaveOneTrace : Prop :=
  ∀ (addr : Loc) (w w' : Data) (c : Count) (rest : List Byte) (s : State), s.allReady →
    ∀ (i : Instr) (n : Nat), (i, n) ∈ [(Instr.wr8 addr w c, 1), (Instr.wr16 addr w c, 2), (Instr.wr32 addr w c, 4)] →
      ∃ t u : State, exec i s = .next t ∧
        exec (.wrblk addr w' (BitVec.ofNat 16 n)) (s.withSource (dataBytes w n ++ rest)) = .next u ∧
        storeTrace t.history = storeTrace u.history ∧ u.store = t.store ∧ u.env.source = rest

/-! ### INIT and the reserved codes (40_init.md, 30_encoding.md R86) -/

/-- R100: the first INIT makes one store init. Answered with `STORE_OK` it gives `init_ok = 1` and no diagnostic, and the
store is OK; answered with any other code it makes the one diagnostic event with code 1 and gives `init_ok = 0`, the store is
FAILED, and the block goes on. That the cells are unchanged is R102's own reading (log entry 23), and what counts as the first
INIT is the model's reading of R103 (log entry 9). -/
def Obligations.FirstInitReportsTheStoresStatus : Prop :=
  ∀ (addr : Loc) (wdata : Data) (count : Count) (s : State), s.initSeen = false →
    s.env.storeReady.admits 1 = true → s.env.rspReady.admits 1 = true →
    (s.env.initAnswer.bits = Config.storeOk →
      exec (.init addr wdata count) s = .next
        { s.completed 0x8 addr wdata 0 0 s.x.cur s.x.old 1 0 s.draws [.storeInit s.env.initAnswer, .response 0 true] with
          x := { ph := .idle, op := 0x8, base := addr, wdata := wdata, n := 0, k := 0, acc := 0, cur := s.x.cur,
                 old := s.x.old, ok := true }
          store := { s.store with status := .ok }
          initSeen := true }) ∧
    (s.env.initAnswer.bits ≠ Config.storeOk →
      exec (.init addr wdata count) s = .next
        { s.completed 0x8 addr wdata 0 0 s.x.cur s.x.old 1 0 s.draws
            [.storeInit s.env.initAnswer, .diag 1, .response 0 false] with
          store := { s.store with status := .failed }
          initSeen := true })

/-- R103: an INIT after an earlier INIT is forwarded to the store and reported like the first, and the refused mark
RepeatedInit is set unless a mark was. That the command runs on is the model's choice (log entry 8); so is that a repeated INIT
whose store init fails has both the mark and the diagnostic (log entry 26), and that an earlier INIT is one accepted since
power-up, `initSeen` (log entry 9). -/
def Obligations.RepeatedInitIsForwardedAndMarked : Prop :=
  ∀ (addr : Loc) (wdata : Data) (count : Count) (s : State), s.initSeen = true →
    ∃ t u : State, exec (.init addr wdata count) s = .next t ∧
      exec (.init addr wdata count) { s with initSeen := false } = .next u ∧
      t = { u with mark := s.mark.or (some { reason := .repeatedInit, cmd := some 0x8 }) }

/-- R86: each reserved code `0x9` to `0xF` makes no store and no stream transfer, gives the response 0/0, and sets the
refused mark ReservedCommand unless a mark was. That the command runs on is the model's choice (log entry 8). -/
def Obligations.ReservedCodesOnlyRespond : Prop :=
  ∀ (i : Instr) (s : State), 0x9 ≤ i.code.toNat → s.env.rspReady.admits 1 = true →
    exec i s = .next
      { s.completed i.code (encodeRequest i).addr (encodeRequest i).wdata 0 0 s.x.cur s.x.old 0 0 s.draws
          [.response 0 false] with
        mark := s.mark.or (some { reason := .reservedCommand, cmd := some i.code }) }

/-! ### Every command -/

/-- R195: with every agent ready (and the source bytes of a WRBLK offered) every command completes, and makes exactly the
transfers of its row of the table; the one diagnostic event is that of an INIT whose status is not `STORE_OK`.
That the reserved codes and a repeated INIT run on under their mark is the model's choice (log entry 8), and so is that a
repeated INIT whose store init fails has the diagnostic beside the mark (log entry 26). -/
def Obligations.EveryCommandMakesItsTransfers : Prop :=
  ∀ (i : Instr) (s : State), s.allReady →
    (∀ (a : Loc) (w : Data) (n : Count), i = .wrblk a w n → n.toNat ≤ s.env.source.length) →
    ∃ (t : State) (es : List Event), exec i s = .next t ∧ t.x.ph = .idle ∧ t.history = s.history ++ es ∧
      countEvents es = expectedCounts i ∧
      diagCount es = if i.code = 0x8 ∧ s.env.initAnswer.bits ≠ Config.storeOk then 1 else 0

/-- R160: no command and no step ends in a fault or a refusal of the interface: exec and step always answer a next state. That a
reserved code or a repeated INIT, which the spec's own model refuses, answers one with the refused mark set is the model's
choice (log entry 8); so is that a waiting Controller, which R173 gives no step, answers one (log entry 10). -/
def Obligations.NothingFaultsOrRefuses : Prop :=
  (∀ (i : Instr) (s : State), ∃ t, exec i s = .next t) ∧ ∀ s : State, ∃ t, step s = .next t

/-- R71: with the store OK, every store read of a command other than INIT returns the last word written to its cell before
it, or the word the cell held; and the cells end as the writes leave them. -/
def Obligations.StoreReadsReturnTheLastWrite : Prop :=
  ∀ (i : Instr) (s : State), s.store.status = .ok → i.code ≠ 0x8 →
    ∃ (t : State) (es : List Event), exec i s = .next t ∧ t.history = s.history ++ es ∧ coherent s.store.mem es ∧
      ∀ a, t.store.mem.read a = (replay s.store.mem es).read a

/-- R101: before INIT, after a failed INIT and after a passed INIT every command runs the same way: whether an INIT was seen,
the store's status, its cells and the draws decide nothing of which transfers it makes on which channels in which order, of
where it waits, or of what it uses of what the other agents offer; nor, for a command other than INIT, of the refused mark. An
INIT after an earlier one has its mark (R103). That an INIT was seen is the model's own field `initSeen` (log entry 9). R101
marks one part as its own reading: "That a command issued before any INIT is accepted at all is the spec's reading"
(92_eei_decisions.md D11). -/
def Obligations.InitGatesNothing : Prop :=
  ∀ (i : Instr) (s : State) (st : Store) (d : Nat) (seen : Bool),
    ∃ t u : State, exec i s = .next t ∧ exec i { s with store := st, draws := d, initSeen := seen } = .next u ∧
      t.history.map Event.shape = u.history.map Event.shape ∧ t.env = u.env ∧ t.x.ph = u.x.ph ∧ t.x.k = u.x.k ∧
      t.inFlight = u.inFlight ∧ (i.code ≠ 0x8 → t.mark = u.mark)

/-- R20, R34: no value survives in the in-flight registers from one command to the next: neither what a command does, nor what
it leaves elsewhere, nor the registers it latches and counts up depend on them. `x[cur]` and `x[old]`, which acceptance does not
write, agree where a command waits with a transfer that still reads them. -/
def Obligations.InFlightRegistersAreDeadBetweenCommands : Prop :=
  ∀ (i : Instr) (s : State) (x : InFlight) (c : Option Channel),
    ∃ t u : State, exec i s = .next t ∧ exec i { s with x := x, inFlight := c } = .next u ∧
      u = { t with x := { t.x with cur := u.x.cur, old := u.x.old } } ∧
      (t.x.ph = .rmwRd ∨ t.x.ph = .rmwWr ∨ t.x.ph = .dst → u.x.cur = t.x.cur) ∧
      (t.x.ph = .rmwWr → u.x.old = t.x.old)

/-- R34 over whole runs: what the in-flight registers hold while the Controller is IDLE is never read. Two states that differ
in those registers alone, both IDLE, agree after every run of acts, moves of the other agents and resets among them, in all but
`x`, and in `x` in the phase and the command in flight; and once the Controller is IDLE again nothing tells them apart but dead
registers. -/
def Obligations.DeadRegistersAreNeverRead : Prop :=
  ∀ (acts : List Act) (s : State) (x : InFlight), s.x.ph = .idle → x.ph = .idle →
    runActs acts { s with x := x } = { runActs acts s with x := (runActs acts { s with x := x }).x } ∧
    (runActs acts { s with x := x }).x.ph = (runActs acts s).x.ph ∧
    (runActs acts { s with x := x }).commandInFlight = (runActs acts s).commandInFlight

/-- R84: a field a command does not use has no effect on any transfer, nor on anything but the register that latched it:
`addr` of INIT and the reserved codes, `wdata` of a command that is no WR8, WR16 or WR32, and `count` of a command that is no
block command. -/
def Obligations.UnusedFieldsHaveNoEffect : Prop :=
  ∀ (r : Request) (a : Loc) (w : Data) (c : Count) (s : State),
    ∃ t u : State, exec (decodeRequest r) s = .next t ∧
      exec (decodeRequest { r with
        addr := if 0x8 ≤ r.cmd.toNat then a else r.addr
        wdata := if r.cmd = 0x1 ∨ r.cmd = 0x3 ∨ r.cmd = 0x5 then r.wdata else w
        count := if r.cmd = 0x6 ∨ r.cmd = 0x7 then r.count else c }) s = .next u ∧
      u = { t with x := { t.x with base := u.x.base, wdata := u.x.wdata } }

/-- R84, R111, R123: only `wdata[7:0]` of WR8 and `wdata[15:0]` of WR16 reach the store. -/
def Obligations.HighWriteDataBitsAreIgnored : Prop :=
  ∀ (addr : Loc) (v w : Data) (c : Count) (s : State),
    (v.extractLsb' 0 8 = w.extractLsb' 0 8 →
      ∃ t u : State, exec (.wr8 addr v c) s = .next t ∧ exec (.wr8 addr w c) s = .next u ∧
        u = { t with x := { t.x with wdata := w } }) ∧
    (v.extractLsb' 0 16 = w.extractLsb' 0 16 →
      ∃ t u : State, exec (.wr16 addr v c) s = .next t ∧ exec (.wr16 addr w c) s = .next u ∧
        u = { t with x := { t.x with wdata := w } })

/-! ### The machine: step, sequencer, environment -/

/-- With no reset asserted and the Controller IDLE, the step takes the request at the channel, one event, and is exec of
the command it decodes to at the state with the request taken; the bytes of that request, where they come from a canonical
word, are the ones the decoder reads. That one step runs a whole command, where R13 makes a step one transfer, is the model's choice (log
entry 1), and so are the list of waiting requests and `withFetchWord` (log entry 2) and the bytes of a word (log entry 14). -/
def Obligations.StepRunsTheDecodedCommand : Prop :=
  (∀ (s : State) (r : Request) (rest : List Request), s.env.resetLine = none → s.x.ph = .idle →
    s.env.requests = r :: rest →
    step s = exec (decodeRequest r)
      { s with env := { s.env with requests := rest }, history := s.history ++ [.request r] }) ∧
  (∀ (s : State) (nbits w : Nat) (i : Instr), decodeTableWord nbits w = some i →
    step (s.withFetchWord nbits w) = exec i
      { s with x := { s.x with ph := .idle }, inFlight := none, env := { s.env with resetLine := none }
               history := s.history ++ [.request (encodeRequest i)] })

/-- R24: the sequencer agrees with the rules of the commands. From acceptance, Controller steps chosen by the phase table
lead to the state the command's own rule leads to, at its response or where it waits. With a command in flight and no reset
asserted, the step of the machine is one or more Controller steps of that command, to its response or to where it waits. A
command that waited, and for which the agents then offer more, goes on at the next step to the very state of that command in a
machine where they had offered it all from the start, whatever they offer (R173, R192). That a wait is a next state and that one
step runs on to the next wait are the model's choices (log entries 1 and 10). -/
def Obligations.SequencerAgreesWithTheCommandRules : Prop :=
  (∀ (s : State) (r : Request) (rest : List Request), s.env.resetLine = none →
    ∃ t : State, exec (decodeRequest r) (takeRequest r rest s) = .next t ∧
      resume (resumeFuel (latchRequest r (takeRequest r rest s))) (latchRequest r (takeRequest r rest s)) = t) ∧
  (∀ s : State, s.Inv → s.x.ph ≠ .idle → s.env.resetLine = none →
    ∃ (t : State) (m : Nat), step s = .next t ∧ 0 < m ∧ t = ticks m s ∧
      (∀ m', m' < m → (ticks m' s).x.ph ≠ .idle) ∧ (t.x.ph = .idle ∨ tick t = .waits t)) ∧
  (∀ (i : Instr) (s : State) (stores dsts responses : Readiness) (bytes : List Byte), s.env.resetLine = none →
    ∃ t : State, exec i s = .next t ∧
      (t.x.ph ≠ .idle →
        step (t.answered stores dsts responses bytes) = exec i (s.answered stores dsts responses bytes)))

/-- The invariant holds after power-up. -/
def Obligations.ResetMeetsTheInvariant : Prop := State.reset.Inv

/-- The invariant is kept by every step of the machine: the byte space keeps its canonical form, the phase agrees with the
registers, a transfer is in progress only on the phase's channel, the store leaves UNINIT only by INIT, and a reserved code in
flight has set the mark. -/
def Obligations.StepKeepsTheInvariant : Prop :=
  ∀ s t : State, s.Inv → step s = .next t → t.Inv

/-- The invariant is kept by every act of a run, each Controller transfer and each move of the other agents, in any order. -/
def Obligations.RunsKeepTheInvariant : Prop :=
  ∀ (acts : List Act) (s : State), s.Inv → (runActs acts s).Inv

/-- R162: a refused mark stays set, naming the same reason and command, for the rest of the run, whatever happens. -/
def Obligations.RefusedMarkStays : Prop :=
  ∀ (acts : List Act) (s : State) (m : RefusedMark), s.mark = some m →
    (runActs acts s).mark = some m ∧ ∃ t : State, step s = .next t ∧ t.mark = some m

/-- R14, R67: no act takes an event back: the history of a run only grows at its end. -/
def Obligations.HistoryOnlyGrows : Prop :=
  ∀ (acts : List Act) (s : State), ∃ es : List Event, (runActs acts s).history = s.history ++ es

/-- R173: with no reset asserted, the Controller waits exactly when the phase's transfer is one the other agent does not
make, or no request has come. R173 gives a waiting Controller no step; that it answers a next state, the same but for the phase's
own channel being the one in progress, and stays so, is the model's reading (log entries 10 and 11). -/
def Obligations.ControllerWaitsExactlyForTheOtherAgent : Prop :=
  ∀ s : State, s.env.resetLine = none →
    ((∃ t, tick s = .waits t) ↔
      (s.x.ph = .idle ∧ s.env.requests = []) ∨
      ((s.x.ph = .init ∨ s.x.ph = .rd ∨ s.x.ph = .rmwRd ∨ s.x.ph = .rmwWr) ∧ s.env.storeReady = .times 0) ∨
      (s.x.ph = .fetch ∧ s.x.op = 0x7 ∧ s.env.source = []) ∨
      (s.x.ph = .dst ∧ s.env.dstReady = .times 0) ∨
      (s.x.ph = .resp ∧ s.env.rspReady = .times 0)) ∧
    ∀ t, tick s = .waits t →
      t = { s with inFlight := if s.x.ph = .idle then s.inFlight else phaseChannel s.x } ∧ tick t = .waits t

/-- R188: while a command is in flight the requests that wait stay as they are, and none is accepted. -/
def Obligations.WaitingRequestsAreKept : Prop :=
  ∀ s : State, s.x.ph ≠ .idle → ∃ t : State, step s = .next t ∧ t.env.requests = s.env.requests ∧
    ∃ es : List Event, t.history = s.history ++ es ∧ ∀ r, Event.request r ∉ es

/-- R77: a WR32 whose store answers only `j` of its eight transfers waits with exactly the first `j / 2` of its bytes
stored and the first `j` of its transfers made; its next transfer is in progress and it has given no response. -/
def Obligations.DoubleWordWriteStopsAtAPrefix : Prop :=
  ∀ (addr : Loc) (wdata : Data) (count : Count) (s : State) (j : Nat), s.store.status = .ok →
    s.env.storeReady = .times j → j < 8 →
    ∃ t : State, exec (.wr32 addr wdata count) s = .next t ∧
      StoredAt s.store.mem t.store.mem addr ((dataBytes wdata 4).take (j / 2)) ∧
      t.history = s.history ++ (writeEvents s.store.mem addr 0 (dataBytes wdata 4)).take j ∧
      t.x.k = BitVec.ofNat 16 (j / 2) ∧ t.x.ph = (if j % 2 = 0 then .rmwRd else .rmwWr) ∧
      t.inFlight = some .storePort

/-- R77 for the other write commands: a WR8 or WR16 of `n` bytes, or a WRBLK of the bytes `bs`, whose store answers only `j` of
its `2 n` transfers waits with exactly the first `j / 2` of its bytes stored and the first `j` of its store transfers made; its
next transfer is in progress and it has given no response. A WRBLK has taken the byte it is at, and no later one. -/
def Obligations.OtherWritesStopAtAPrefix : Prop :=
  (∀ (addr : Loc) (wdata : Data) (count : Count) (s : State) (i : Instr) (n j : Nat), s.store.status = .ok →
    (i, n) ∈ [(Instr.wr8 addr wdata count, 1), (Instr.wr16 addr wdata count, 2)] →
    s.env.storeReady = .times j → j < 2 * n →
    ∃ t : State, exec i s = .next t ∧ StoredAt s.store.mem t.store.mem addr ((dataBytes wdata n).take (j / 2)) ∧
      t.history = s.history ++ (writeEvents s.store.mem addr 0 (dataBytes wdata n)).take j ∧
      t.x.k = BitVec.ofNat 16 (j / 2) ∧ t.x.ph = (if j % 2 = 0 then .rmwRd else .rmwWr) ∧
      t.inFlight = some .storePort) ∧
  (∀ (addr : Loc) (wdata : Data) (count : Count) (bs rest : List Byte) (s : State) (j : Nat), s.store.status = .ok →
    s.env.source = bs ++ rest → bs.length = count.toNat → s.env.storeReady = .times j → j < 2 * count.toNat →
    ∃ t : State, exec (.wrblk addr wdata count) s = .next t ∧ StoredAt s.store.mem t.store.mem addr (bs.take (j / 2)) ∧
      t.history = s.history ++ (blockWriteEvents s.store.mem addr 0 bs).take (j + j / 2 + 1) ∧
      t.env.source = bs.drop (j / 2 + 1) ++ rest ∧
      t.x.k = BitVec.ofNat 16 (j / 2) ∧ t.x.ph = (if j % 2 = 0 then .rmwRd else .rmwWr) ∧
      t.inFlight = some .storePort)

/-- R191: a WRBLK for which the Host supplies only some of its bytes waits for the next one, and those bytes are stored;
no response is given. -/
def Obligations.BlockWriteWaitsForItsSource : Prop :=
  ∀ (addr : Loc) (wdata : Data) (count : Count) (s : State), s.store.status = .ok → s.env.storeReady = .always →
    s.env.source.length < count.toNat →
    ∃ t : State, exec (.wrblk addr wdata count) s = .next t ∧ t.x.ph = .fetch ∧
      t.x.k = BitVec.ofNat 16 s.env.source.length ∧ t.inFlight = some .source ∧ t.env.source = [] ∧
      StoredAt s.store.mem t.store.mem addr s.env.source ∧
      t.history = s.history ++ blockWriteEvents s.store.mem addr 0 s.env.source

/-! ### Reset (70_reset_and_hazards.md) -/

/-- R164, R181, R182: an asserted reset of the block is taken in place of any transfer, by the step and by the Controller
step alike: the Controller is IDLE with no transfer in progress, no event is made, no response given, the requests wait on, and
the store's status is unchanged; its bytes are unchanged unless a store write was in flight. The model's choices in it: the reset
input is released and the mark and `initSeen` stay (log entries 13, 8 and 9), source bytes that are left stay offered (log
entry 18), and a reset while a store init is in flight leaves the status as it was (log entry 12). -/
def Obligations.ResetAbandonsTheCommand : Prop :=
  ∀ s : State, s.env.resetLine = some .blockReset →
    ∃ t : State, step s = .next t ∧ tick s = .went t ∧ t.x.ph = .idle ∧ t.inFlight = none ∧ t.history = s.history ∧
      t.env = { s.env with resetLine := none } ∧ t.store.status = s.store.status ∧ t.mark = s.mark ∧
      t.initSeen = s.initSeen ∧ (s.writeInFlight = false → t.store.mem = s.store.mem)

/-- R184: a reset while a store write is in flight leaves the cell of that write holding a draw, both its bytes, and every
other byte as it was. -/
def Obligations.ResetDuringAStoreWriteDrawsItsCell : Prop :=
  ∀ s : State, s.env.resetLine = some .blockReset → s.x.ph = .rmwWr → s.inFlight = some .storePort →
    s.store.status = .ok →
    ∃ t : State, step s = .next t ∧
      t.store.mem.cell (wordIndex (byteOffset s.x.base s.x.k)) = Config.draw s.draws ∧ s.draws < t.draws ∧
      ∀ a, a / 2 ≠ (wordIndex (byteOffset s.x.base s.x.k)).toNat → t.store.mem.read a = s.store.mem.read a

/-- R185: power loss resets the Controller and leaves the store UNINIT, its bytes as a reset leaves them; that it stays UNINIT
until the next INIT is Obligations.OnlyInitAndPowerLossChangeTheStoreStatus. Loss and return as one event, and that the next INIT
counts as the first, are the model's reading (log entries 21 and 9). That the registers but `x[ph]`, which R35 and R181 leave
unspecified, are the same as after a block reset is the model's choice of their values (log entry 3), and so are the released
reset input and the source bytes still offered (log entries 13 and 18). -/
def Obligations.PowerLossLeavesTheStoreUninitialised : Prop :=
  ∀ s : State, s.env.resetLine = some .powerLoss →
    ∃ t u : State, step s = .next t ∧ step { s with env := { s.env with resetLine := some .blockReset } } = .next u ∧
      t.store.status = .uninit ∧ t.initSeen = false ∧ t.store.mem = u.store.mem ∧ t.x.ph = .idle ∧ t.x = u.x ∧
      t.history = s.history ∧
      t.env = u.env ∧ t.inFlight = none

/-- R32, R182, R185: the store's status changes by the store init of an INIT and by power loss and by nothing else: no other
Controller step, no other reset, no move of another agent, no command but INIT changes it, and in a run from an UNINIT store it
stays UNINIT until a store init completes. That a reset while a store init is in flight leaves the status as it was, so that
UNINIT stays UNINIT, is the model's reading (log entry 12), and so is loss and return of power as one event (log entry 21). -/
def Obligations.OnlyInitAndPowerLossChangeTheStoreStatus : Prop :=
  (∀ s : State, (tick s).state.store.status =
    match s.env.resetLine with
    | some .powerLoss => .uninit
    | some .blockReset => s.store.status
    | none =>
      if s.x.ph = .init ∧ s.env.storeReady.admits 1 = true then
        if s.env.initAnswer.bits = Config.storeOk then .ok else .failed
      else s.store.status) ∧
  (∀ (m : EnvMove) (s : State), (envMove m s).store.status = s.store.status) ∧
  (∀ (i : Instr) (s t : State), i.code ≠ 0x8 → exec i s = .next t → t.store.status = s.store.status) ∧
  (∀ (acts : List Act) (s : State) (es : List Event), s.store.status = .uninit →
    (runActs acts s).history = s.history ++ es → (∀ c, Event.storeInit c ∉ es) →
    (runActs acts s).store.status = .uninit)

/-- R172, R185: a power loss is never dropped. Whatever moves come between it and the next step, further resets among them,
that step leaves the store UNINIT, no INIT seen, and the Controller IDLE with no transfer in progress and no new event. That
power loss forgets an INIT that was seen is the model's reading (log entry 9), and so is loss and return as one event (log entry
21); a reset is no event of the history (log entry 13). Two causes asserted before one step leave what the two resets taken
one after the other leave, but for the count of draws; that form is the model's (log entry 25), and that it takes in the
registers but `x[ph]` rests on the model's choice of their values after a reset (log entry 3). -/
def Obligations.PowerLossIsNeverDropped : Prop :=
  (∀ (moves : List EnvMove) (s : State),
    ∃ t u : State, runActs (moves.map .env) (envMove (.assertReset .powerLoss) s) = u ∧
      step u = .next t ∧ tick u = .went t ∧ t.store.status = .uninit ∧ t.initSeen = false ∧ t.x.ph = .idle ∧
      t.inFlight = none ∧ t.history = u.history) ∧
  (∀ (c c' : ResetCause) (s : State) (d : Nat), s.env.resetLine = none →
    { (tick (envMove (.assertReset c') (envMove (.assertReset c) s))).state with draws := d } =
      { performReset c' (performReset c s) with draws := d })

/-- R183: after a reset nothing runs by itself, no store init among it: IDLE without a request and without a reset, the step
changes nothing, and a reset leaves such a state where no request waits. -/
def Obligations.IdleWithoutARequestStays : Prop :=
  (∀ s : State, s.x.ph = .idle → s.env.requests = [] → s.env.resetLine = none → step s = .next s ∧ tick s = .waits s) ∧
  (∀ (s : State) (c : ResetCause), s.env.requests = [] → step (performReset c s) = .next (performReset c s))

/-! ### A second store master (R189) -/

/-- R189: another agent's write to the cell between the store read and the store write of a byte write sets the refused
mark ConcurrentStoreMaster unless a mark was, and the sibling byte it wrote is lost: the write puts back the word read before.
That the command runs on after the mark, and which command the mark names, is the model's choice (log entries 8 and 16). -/
def Obligations.ForeignWriteToTheSiblingIsLost : Prop :=
  ∀ (s : State) (w : CellWord), s.store.status = .ok → s.x.ph = .rmwWr → s.env.resetLine = none →
    s.env.storeReady.admits 1 = true →
    ∃ t : State, tick (envMove (.foreignWrite (wordIndex s.currentOffset) w) s) = .went t ∧
      t.mark = s.mark.or (some { reason := .concurrentStoreMaster, cmd := some s.x.op }) ∧
      t.store.mem.read s.currentOffset.toNat = s.x.cur ∧
      t.store.mem.read (sibling s.currentOffset).toNat = laneByte (sibling s.currentOffset) s.x.old
end

