-- ==== Sys2Proof/Laws/State.lean ====
section
/-! SUPPORT. One lemma per field per update of the state, each true by rfl. -/

namespace Sys2Proof.Machine

open Sys2Proof

@[simp] theorem State.enter_x (s : State) (ph : Phase) : (s.enter ph).x = { s.x with ph := ph } := rfl
@[simp] theorem State.enter_inFlight (s : State) (ph : Phase) : (s.enter ph).inFlight = s.inFlight := rfl
@[simp] theorem State.enter_store (s : State) (ph : Phase) : (s.enter ph).store = s.store := rfl
@[simp] theorem State.enter_env (s : State) (ph : Phase) : (s.enter ph).env = s.env := rfl
@[simp] theorem State.enter_mark (s : State) (ph : Phase) : (s.enter ph).mark = s.mark := rfl
@[simp] theorem State.enter_initSeen (s : State) (ph : Phase) : (s.enter ph).initSeen = s.initSeen := rfl
@[simp] theorem State.enter_history (s : State) (ph : Phase) : (s.enter ph).history = s.history := rfl
@[simp] theorem State.enter_draws (s : State) (ph : Phase) : (s.enter ph).draws = s.draws := rfl

@[simp] theorem State.nextByte_x (s : State) : (s.nextByte).x = { s.x with k := s.x.k + 1 } := rfl
@[simp] theorem State.nextByte_inFlight (s : State) : (s.nextByte).inFlight = s.inFlight := rfl
@[simp] theorem State.nextByte_store (s : State) : (s.nextByte).store = s.store := rfl
@[simp] theorem State.nextByte_env (s : State) : (s.nextByte).env = s.env := rfl
@[simp] theorem State.nextByte_mark (s : State) : (s.nextByte).mark = s.mark := rfl
@[simp] theorem State.nextByte_initSeen (s : State) : (s.nextByte).initSeen = s.initSeen := rfl
@[simp] theorem State.nextByte_history (s : State) : (s.nextByte).history = s.history := rfl
@[simp] theorem State.nextByte_draws (s : State) : (s.nextByte).draws = s.draws := rfl

@[simp] theorem State.withMem_x (s : State) (m : Memory) : (s.withMem m).x = s.x := rfl
@[simp] theorem State.withMem_inFlight (s : State) (m : Memory) : (s.withMem m).inFlight = s.inFlight := rfl
@[simp] theorem State.withMem_store (s : State) (m : Memory) : (s.withMem m).store = { s.store with mem := m } := rfl
@[simp] theorem State.withMem_env (s : State) (m : Memory) : (s.withMem m).env = s.env := rfl
@[simp] theorem State.withMem_mark (s : State) (m : Memory) : (s.withMem m).mark = s.mark := rfl
@[simp] theorem State.withMem_initSeen (s : State) (m : Memory) : (s.withMem m).initSeen = s.initSeen := rfl
@[simp] theorem State.withMem_history (s : State) (m : Memory) : (s.withMem m).history = s.history := rfl
@[simp] theorem State.withMem_draws (s : State) (m : Memory) : (s.withMem m).draws = s.draws := rfl

@[simp] theorem State.withSource_x (s : State) (bs : List Byte) : (s.withSource bs).x = s.x := rfl
@[simp] theorem State.withSource_inFlight (s : State) (bs : List Byte) : (s.withSource bs).inFlight = s.inFlight := rfl
@[simp] theorem State.withSource_store (s : State) (bs : List Byte) : (s.withSource bs).store = s.store := rfl
@[simp] theorem State.withSource_env (s : State) (bs : List Byte) : (s.withSource bs).env = { s.env with source := bs } := rfl
@[simp] theorem State.withSource_mark (s : State) (bs : List Byte) : (s.withSource bs).mark = s.mark := rfl
@[simp] theorem State.withSource_initSeen (s : State) (bs : List Byte) : (s.withSource bs).initSeen = s.initSeen := rfl
@[simp] theorem State.withSource_history (s : State) (bs : List Byte) : (s.withSource bs).history = s.history := rfl
@[simp] theorem State.withSource_draws (s : State) (bs : List Byte) : (s.withSource bs).draws = s.draws := rfl

@[simp] theorem takeRequest_x (r : Request) (rest : List Request) (s : State) : (takeRequest r rest s).x = s.x := rfl
@[simp] theorem takeRequest_inFlight (r : Request) (rest : List Request) (s : State) : (takeRequest r rest s).inFlight = s.inFlight := rfl
@[simp] theorem takeRequest_store (r : Request) (rest : List Request) (s : State) : (takeRequest r rest s).store = s.store := rfl
@[simp] theorem takeRequest_env (r : Request) (rest : List Request) (s : State) : (takeRequest r rest s).env = { s.env with requests := rest } := rfl
@[simp] theorem takeRequest_mark (r : Request) (rest : List Request) (s : State) : (takeRequest r rest s).mark = s.mark := rfl
@[simp] theorem takeRequest_initSeen (r : Request) (rest : List Request) (s : State) : (takeRequest r rest s).initSeen = s.initSeen := rfl
@[simp] theorem takeRequest_history (r : Request) (rest : List Request) (s : State) : (takeRequest r rest s).history = s.history ++ [.request r] := rfl
@[simp] theorem takeRequest_draws (r : Request) (rest : List Request) (s : State) : (takeRequest r rest s).draws = s.draws := rfl

@[simp] theorem accept_x (cmd : CmdCode) (a : Loc) (w : Data) (c : Count) (s : State) : (accept cmd a w c s).x = { s.x with op := cmd, base := a, wdata := w, n := byteCount cmd c, k := 0, acc := 0, ok := false } := rfl
@[simp] theorem accept_inFlight (cmd : CmdCode) (a : Loc) (w : Data) (c : Count) (s : State) : (accept cmd a w c s).inFlight = none := rfl
@[simp] theorem accept_store (cmd : CmdCode) (a : Loc) (w : Data) (c : Count) (s : State) : (accept cmd a w c s).store = s.store := rfl
@[simp] theorem accept_env (cmd : CmdCode) (a : Loc) (w : Data) (c : Count) (s : State) : (accept cmd a w c s).env = s.env := rfl
@[simp] theorem accept_mark (cmd : CmdCode) (a : Loc) (w : Data) (c : Count) (s : State) : (accept cmd a w c s).mark = s.mark := rfl
@[simp] theorem accept_initSeen (cmd : CmdCode) (a : Loc) (w : Data) (c : Count) (s : State) : (accept cmd a w c s).initSeen = s.initSeen := rfl
@[simp] theorem accept_history (cmd : CmdCode) (a : Loc) (w : Data) (c : Count) (s : State) : (accept cmd a w c s).history = s.history := rfl
@[simp] theorem accept_draws (cmd : CmdCode) (a : Loc) (w : Data) (c : Count) (s : State) : (accept cmd a w c s).draws = s.draws := rfl

@[simp] theorem performReset_x (c : ResetCause) (s : State) : (performReset c s).x = InFlight.reset := rfl
@[simp] theorem performReset_inFlight (c : ResetCause) (s : State) : (performReset c s).inFlight = none := rfl
@[simp] theorem pendReset_none (c : ResetCause) : pendReset none c = c := rfl
@[simp] theorem pendReset_powerLoss_pending (c : ResetCause) : pendReset (some .powerLoss) c = .powerLoss := rfl
@[simp] theorem pendReset_blockReset_pending (c : ResetCause) : pendReset (some .blockReset) c = c := rfl
@[simp] theorem pendReset_powerLoss (p : Option ResetCause) : pendReset p .powerLoss = .powerLoss := by
  rcases p with _ | _ | _ <;> rfl
@[simp] theorem performReset_env (c : ResetCause) (s : State) : (performReset c s).env = { s.env with resetLine := none } := rfl
@[simp] theorem performReset_mark (c : ResetCause) (s : State) : (performReset c s).mark = s.mark := rfl
@[simp] theorem performReset_history (c : ResetCause) (s : State) : (performReset c s).history = s.history := rfl
@[simp] theorem performReset_draws (c : ResetCause) (s : State) : (performReset c s).draws = s.draws + 1 := rfl

@[simp] theorem noteInit_initSeen (cmd : CmdCode) (s : State) : (noteInit cmd s).initSeen = true := rfl

@[simp] theorem performReset_status_block (s : State) : (performReset .blockReset s).store.status = s.store.status := rfl
@[simp] theorem performReset_status_power (s : State) : (performReset .powerLoss s).store.status = .uninit := rfl
@[simp] theorem performReset_mem (c : ResetCause) (s : State) : (performReset c s).store.mem = s.memAfterReset := rfl
@[simp] theorem performReset_initSeen_block (s : State) : (performReset .blockReset s).initSeen = s.initSeen := rfl
@[simp] theorem performReset_initSeen_power (s : State) : (performReset .powerLoss s).initSeen = false := rfl

theorem commandInFlight_idle {s : State} (h : s.x.ph = .idle) : s.commandInFlight = none := by
  simp [State.commandInFlight, h]
theorem commandInFlight_busy {s : State} (h : s.x.ph ≠ .idle) : s.commandInFlight = some s.x.op := by
  simp [State.commandInFlight, h]

/-! `State.answered` changes what is offered alone. -/

@[simp] theorem answered_x (s : State) (a b c : Readiness) (bs : List Byte) : (s.answered a b c bs).x = s.x := rfl
@[simp] theorem answered_inFlight (s : State) (a b c : Readiness) (bs : List Byte) : (s.answered a b c bs).inFlight = s.inFlight := rfl
@[simp] theorem answered_store (s : State) (a b c : Readiness) (bs : List Byte) : (s.answered a b c bs).store = s.store := rfl
@[simp] theorem answered_mark (s : State) (a b c : Readiness) (bs : List Byte) : (s.answered a b c bs).mark = s.mark := rfl
@[simp] theorem answered_initSeen (s : State) (a b c : Readiness) (bs : List Byte) : (s.answered a b c bs).initSeen = s.initSeen := rfl
@[simp] theorem answered_history (s : State) (a b c : Readiness) (bs : List Byte) : (s.answered a b c bs).history = s.history := rfl
@[simp] theorem answered_draws (s : State) (a b c : Readiness) (bs : List Byte) : (s.answered a b c bs).draws = s.draws := rfl
@[simp] theorem answered_resetLine (s : State) (a b c : Readiness) (bs : List Byte) : (s.answered a b c bs).env.resetLine = s.env.resetLine := rfl
@[simp] theorem answered_source (s : State) (a b c : Readiness) (bs : List Byte) : (s.answered a b c bs).env.source = s.env.source ++ bs := rfl
@[simp] theorem Readiness.plus_zero (r : Readiness) : r.plus (.times 0) = r := by cases r <;> rfl

/-! `raise Refuse` changes the mark alone, and only where none is set. -/

@[simp] theorem raiseRefuse_mark (r : RefuseReason) (cmd : Option CmdCode) (s : State) :
    (raiseRefuse r cmd s).mark = s.mark.or (some { reason := r, cmd := cmd }) := by
  unfold raiseRefuse; cases h : s.mark <;> simp [h]

/-- Setting the mark is a record update of the mark. -/
theorem raiseRefuse_eq (r : RefuseReason) (cmd : Option CmdCode) (s : State) :
    raiseRefuse r cmd s = { s with mark := s.mark.or (some { reason := r, cmd := cmd }) } := by
  obtain ⟨x, f, st, e, m, i, h, d⟩ := s
  cases m <;> rfl

@[simp] theorem raiseRefuse_x (r : RefuseReason) (cmd : Option CmdCode) (s : State) : (raiseRefuse r cmd s).x = s.x := by
  rw [raiseRefuse_eq]
@[simp] theorem raiseRefuse_inFlight (r : RefuseReason) (cmd : Option CmdCode) (s : State) : (raiseRefuse r cmd s).inFlight = s.inFlight := by
  rw [raiseRefuse_eq]
@[simp] theorem raiseRefuse_store (r : RefuseReason) (cmd : Option CmdCode) (s : State) : (raiseRefuse r cmd s).store = s.store := by
  rw [raiseRefuse_eq]
@[simp] theorem raiseRefuse_env (r : RefuseReason) (cmd : Option CmdCode) (s : State) : (raiseRefuse r cmd s).env = s.env := by
  rw [raiseRefuse_eq]
@[simp] theorem raiseRefuse_initSeen (r : RefuseReason) (cmd : Option CmdCode) (s : State) : (raiseRefuse r cmd s).initSeen = s.initSeen := by
  rw [raiseRefuse_eq]
@[simp] theorem raiseRefuse_history (r : RefuseReason) (cmd : Option CmdCode) (s : State) : (raiseRefuse r cmd s).history = s.history := by
  rw [raiseRefuse_eq]
@[simp] theorem raiseRefuse_draws (r : RefuseReason) (cmd : Option CmdCode) (s : State) : (raiseRefuse r cmd s).draws = s.draws := by
  rw [raiseRefuse_eq]

/-- Noting an INIT: the mark where one was seen before, and the note. -/
theorem noteInit_eq (cmd : CmdCode) (s : State) :
    noteInit cmd s =
      { s with mark := if s.initSeen then s.mark.or (some { reason := .repeatedInit, cmd := some cmd }) else s.mark,
               initSeen := true } := by
  unfold noteInit; cases h : s.initSeen <;> simp [raiseRefuse_eq]

@[simp] theorem noteInit_x (cmd : CmdCode) (s : State) : (noteInit cmd s).x = s.x := by
  rw [noteInit_eq]
@[simp] theorem noteInit_inFlight (cmd : CmdCode) (s : State) : (noteInit cmd s).inFlight = s.inFlight := by
  rw [noteInit_eq]
@[simp] theorem noteInit_store (cmd : CmdCode) (s : State) : (noteInit cmd s).store = s.store := by
  rw [noteInit_eq]
@[simp] theorem noteInit_env (cmd : CmdCode) (s : State) : (noteInit cmd s).env = s.env := by
  rw [noteInit_eq]
@[simp] theorem noteInit_history (cmd : CmdCode) (s : State) : (noteInit cmd s).history = s.history := by
  rw [noteInit_eq]
@[simp] theorem noteInit_draws (cmd : CmdCode) (s : State) : (noteInit cmd s).draws = s.draws := by
  rw [noteInit_eq]

/-! Progress. -/

@[simp] theorem Progress.went_andThen (s : State) (f : State → Progress) : (Progress.went s).andThen f = f s := rfl
@[simp] theorem Progress.waits_andThen (s : State) (f : State → Progress) : (Progress.waits s).andThen f = .waits s := rfl
@[simp] theorem Progress.went_state (s : State) : (Progress.went s).state = s := rfl
@[simp] theorem Progress.waits_state (s : State) : (Progress.waits s).state = s := rfl

/-- Going on is associative. -/
theorem Progress.andThen_assoc (p : Progress) (f g : State → Progress) :
    (p.andThen f).andThen g = p.andThen fun s => (f s).andThen g := by
  cases p <;> rfl

@[simp] theorem repeatBytes_zero (body : State → Progress) (s : State) : repeatBytes 0 body s = .went s := rfl
@[simp] theorem repeatBytes_succ (n : Nat) (body : State → Progress) (s : State) :
    repeatBytes (n + 1) body s = (body s).andThen (repeatBytes n body) := rfl

/-- What every body keeps, the repetition keeps. -/
theorem repeatBytes_keeps {P : State → Prop} {body : State → Progress} (h : ∀ s, P s → P (body s).state) (n : Nat)
    (s : State) (hs : P s) : P (repeatBytes n body s).state := by
  induction n generalizing s with
  | zero => exact hs
  | succ n ih =>
    have hb := h s hs
    cases hp : body s with
    | went t => rw [hp] at hb; simpa [hp] using ih t hb
    | waits t => rw [hp] at hb; simpa [hp] using hb

/-- What a step and its continuation keep, both together keep. -/
theorem Progress.andThen_keeps {P : State → Prop} {p : Progress} {f : State → Progress} (hp : P p.state)
    (hf : ∀ s, P s → P (f s).state) : P (p.andThen f).state := by
  cases p with
  | went t => exact hf t hp
  | waits t => exact hp

end Sys2Proof.Machine
end

