-- ==== Sys2Proof/Laws/Memory.lean ====
section
/-! SUPPORT. The byte space: read after write, and the canonical form is kept by every operation. -/

namespace Sys2Proof.Machine

open Sys2Proof

/-! ### The list of cells -/

theorem findCell_eraseCell_same (a : Nat) (l : List Host.Cell) : findCell a (eraseCell a l) = none := by
  induction l with
  | nil => rfl
  | cons c l ih =>
    obtain ⟨a', b⟩ := c
    by_cases h : a' = a <;> simp [eraseCell, findCell, h, ih]

theorem findCell_eraseCell_other {a a' : Nat} (h : a' ≠ a) (l : List Host.Cell) :
    findCell a' (eraseCell a l) = findCell a' l := by
  induction l with
  | nil => rfl
  | cons c l ih =>
    obtain ⟨c, b⟩ := c
    by_cases hc : c = a
    · subst hc; simp [eraseCell, findCell, h.symm, ih]
    · simp only [eraseCell, hc, if_false, findCell, ih]

theorem findCell_insertCell_same (a : Nat) (b : Byte) (l : List Host.Cell) (h : findCell a l = none) :
    findCell a (insertCell a b l) = some b := by
  induction l with
  | nil => simp [insertCell, findCell]
  | cons c l ih =>
    obtain ⟨c, b'⟩ := c
    simp only [findCell] at h
    split at h
    · cases h
    · rename_i hc
      by_cases hlt : a < c <;> simp [insertCell, findCell, hlt, hc, ih h]

theorem findCell_insertCell_other {a a' : Nat} (b : Byte) (h : a' ≠ a) (l : List Host.Cell) :
    findCell a' (insertCell a b l) = findCell a' l := by
  induction l with
  | nil => simp [insertCell, findCell, h.symm]
  | cons c l ih =>
    obtain ⟨c, b'⟩ := c
    by_cases hlt : a < c
    · simp [insertCell, hlt, findCell, h.symm]
    · simp only [insertCell, hlt, if_false, findCell, ih]

/-! ### Reading what was written -/

@[simp] theorem Memory.write_lost (m : Memory) (a : Nat) (b : Byte) : (m.write a b).lost = m.lost := by
  unfold Memory.write; split <;> rfl

@[simp] theorem Memory.unlisted_write (m : Memory) (a a' : Nat) (b : Byte) :
    (m.write a b).unlisted a' = m.unlisted a' := by
  simp [Memory.unlisted]

@[simp] theorem Memory.read_write_same (m : Memory) (a : Nat) (b : Byte) : (m.write a b).read a = b := by
  unfold Memory.write
  split
  · rename_i h
    simp [Memory.read, findCell_eraseCell_same, Memory.unlisted, h]
  · simp [Memory.read, findCell_insertCell_same a b _ (findCell_eraseCell_same a m.cells)]

theorem Memory.read_write_other (m : Memory) {a a' : Nat} (b : Byte) (h : a' ≠ a) :
    (m.write a b).read a' = m.read a' := by
  unfold Memory.write
  split
  · simp [Memory.read, findCell_eraseCell_other h, Memory.unlisted]
  · simp [Memory.read, findCell_insertCell_other b h, findCell_eraseCell_other h, Memory.unlisted]

/-- Reading after a write, at any offset. -/
theorem Memory.read_write (m : Memory) (a a' : Nat) (b : Byte) :
    (m.write a b).read a' = if a' = a then b else m.read a' := by
  by_cases h : a' = a
  · subst h; simp
  · simp [h, Memory.read_write_other m b h]

/-! ### Cells -/

/-- Reading one byte after a cell is written. -/
theorem Memory.read_writeCell (m : Memory) (i : WordIndex) (w : CellWord) (a : Nat) :
    (m.writeCell i w).read a =
      if a = 2 * i.toNat + 1 then w.extractLsb' 8 8 else if a = 2 * i.toNat then w.extractLsb' 0 8 else m.read a := by
  simp [Memory.writeCell, Memory.read_write]

theorem append_halves (w : CellWord) : w.extractLsb' 8 8 ++ w.extractLsb' 0 8 = w := by
  ext j hj
  simp only [BitVec.getElem_append, BitVec.getElem_extractLsb']
  split
  · simp [BitVec.getLsbD_eq_getElem hj]
  · rename_i h
    have : 8 + (j - 8) = j := by omega
    simp [this, BitVec.getLsbD_eq_getElem hj]

@[simp] theorem Memory.cell_writeCell_same (m : Memory) (i : WordIndex) (w : CellWord) :
    (m.writeCell i w).cell i = w := by
  simp [Memory.cell, Memory.read_writeCell, append_halves]

theorem Memory.cell_writeCell_other (m : Memory) {i j : WordIndex} (w : CellWord) (h : j ≠ i) :
    (m.writeCell i w).cell j = m.cell j := by
  have hn : j.toNat ≠ i.toNat := fun e => h (BitVec.eq_of_toNat_eq e)
  have h2 : 2 * j.toNat + 1 ≠ 2 * i.toNat := by omega
  have h3 : 2 * j.toNat ≠ 2 * i.toNat + 1 := by omega
  simp [Memory.cell, Memory.read_writeCell, h2, h3, hn]

/-- Cells depend on the bytes alone. -/
theorem Memory.cell_congr {m m' : Memory} (h : ∀ a, m.read a = m'.read a) (i : WordIndex) : m.cell i = m'.cell i := by
  simp [Memory.cell, h]

/-! ### The canonical form -/

theorem risingFrom_mono {lo lo' : Nat} (h : lo' ≤ lo) (l : List Host.Cell) (hl : risingFrom lo l = true) :
    risingFrom lo' l = true := by
  cases l with
  | nil => rfl
  | cons c l =>
    obtain ⟨a, b⟩ := c
    simp only [risingFrom, Bool.and_eq_true, decide_eq_true_eq] at hl ⊢
    exact ⟨h.trans hl.1, hl.2⟩

theorem risingFrom_eraseCell (a lo : Nat) (l : List Host.Cell) (hl : risingFrom lo l = true) :
    risingFrom lo (eraseCell a l) = true := by
  induction l generalizing lo with
  | nil => rfl
  | cons c l ih =>
    obtain ⟨a', b⟩ := c
    simp only [risingFrom, Bool.and_eq_true, decide_eq_true_eq] at hl
    by_cases h : a' = a
    · simp only [eraseCell, h, if_true]
      exact risingFrom_mono (by omega) _ (ih (a' + 1) hl.2)
    · simp only [eraseCell, h, if_false, risingFrom, Bool.and_eq_true, decide_eq_true_eq]
      exact ⟨hl.1, ih (a' + 1) hl.2⟩

theorem risingFrom_insertCell (a lo : Nat) (b : Byte) (l : List Host.Cell) (hlo : lo ≤ a) (hl : risingFrom lo l = true)
    (hn : findCell a l = none) : risingFrom lo (insertCell a b l) = true := by
  induction l generalizing lo with
  | nil => simpa [insertCell, risingFrom] using hlo
  | cons c l ih =>
    obtain ⟨a', b'⟩ := c
    simp only [risingFrom, Bool.and_eq_true, decide_eq_true_eq] at hl
    have hne : a' ≠ a := by rintro rfl; simp [findCell] at hn
    have hn' : findCell a l = none := by simpa [findCell, hne] using hn
    by_cases h : a < a'
    · simp only [insertCell, h, if_true, risingFrom, Bool.and_eq_true, decide_eq_true_eq]
      exact ⟨hlo, by omega, hl.2⟩
    · simp only [insertCell, h, if_false, risingFrom, Bool.and_eq_true, decide_eq_true_eq]
      exact ⟨hl.1, ih (a' + 1) (by omega) hl.2 hn'⟩

theorem mem_eraseCell {a : Nat} {c : Host.Cell} {l : List Host.Cell} (h : c ∈ eraseCell a l) : c ∈ l := by
  induction l with
  | nil => exact h
  | cons d l ih =>
    obtain ⟨a', b⟩ := d
    by_cases ha : a' = a
    · simp only [eraseCell, ha, if_true] at h
      exact List.mem_cons_of_mem _ (ih h)
    · simp only [eraseCell, ha, if_false, List.mem_cons] at h
      exact h.elim (fun e => e ▸ List.mem_cons_self) fun e => List.mem_cons_of_mem _ (ih e)

theorem mem_insertCell {a : Nat} {b : Byte} {c : Host.Cell} {l : List Host.Cell} (h : c ∈ insertCell a b l) :
    c = (a, b) ∨ c ∈ l := by
  induction l with
  | nil => simpa [insertCell] using h
  | cons d l ih =>
    obtain ⟨a', b'⟩ := d
    by_cases ha : a < a'
    · simpa [insertCell, ha] using h
    · simp only [insertCell, ha, if_false, List.mem_cons] at h
      rcases h with h | h
      · exact .inr (h ▸ List.mem_cons_self)
      · exact (ih h).imp id (List.mem_cons_of_mem _)

/-- What the canonical form says. -/
theorem Memory.wf_iff (m : Memory) :
    m.wf = true ↔ risingFrom 0 m.cells = true ∧ ∀ c ∈ m.cells, c.1 < Config.logSize ∧ c.2 ≠ m.unlisted c.1 := by
  simp [Memory.wf, List.all_eq_true]

/-- A write keeps the canonical form. -/
theorem Memory.write_wf (m : Memory) (a : Nat) (b : Byte) (ha : a < Config.logSize) (h : m.wf = true) :
    (m.write a b).wf = true := by
  rw [Memory.wf_iff] at h ⊢
  simp only [Memory.unlisted_write]
  unfold Memory.write
  split
  · exact ⟨risingFrom_eraseCell a 0 _ h.1, fun c hc => h.2 c (mem_eraseCell hc)⟩
  · rename_i hb
    refine ⟨risingFrom_insertCell a 0 b _ (Nat.zero_le a) (risingFrom_eraseCell a 0 _ h.1)
      (findCell_eraseCell_same a _), fun c hc => ?_⟩
    rcases mem_insertCell hc with rfl | hc
    · exact ⟨ha, hb⟩
    · exact h.2 c (mem_eraseCell hc)

/-- Writing a cell keeps the canonical form. -/
theorem Memory.writeCell_wf (m : Memory) (i : WordIndex) (w : CellWord) (h : m.wf = true) :
    (m.writeCell i w).wf = true := by
  have hi : i.toNat < 2048 := i.isLt
  have h1 : 2 * i.toNat < Config.logSize := by unfold Config.logSize; omega
  have h2 : 2 * i.toNat + 1 < Config.logSize := by unfold Config.logSize; omega
  exact Memory.write_wf _ _ _ h2 (Memory.write_wf _ _ _ h1 h)

@[simp] theorem Memory.lose_wf (m : Memory) (d : Nat) : (m.lose d).wf = true := rfl
@[simp] theorem Memory.empty_wf : Memory.empty.wf = true := rfl

/-- A store write keeps the canonical form, whatever the store's status. -/
theorem State.memAfterWrite_wf (s : State) (i : WordIndex) (w : CellWord) (h : s.store.mem.wf = true) :
    (s.memAfterWrite i w).wf = true := by
  unfold State.memAfterWrite
  split
  · exact Memory.writeCell_wf _ _ _ h
  · exact Memory.lose_wf _ _
  · exact Memory.lose_wf _ _

/-- A reset keeps the canonical form. -/
theorem State.memAfterReset_wf (s : State) (h : s.store.mem.wf = true) : s.memAfterReset.wf = true := by
  unfold State.memAfterReset
  split
  · exact State.memAfterWrite_wf _ _ _ h
  · exact h

/-- The memory after power-up has the canonical form. -/
theorem State.reset_mem_wf : State.reset.store.mem.wf = true := rfl

/-- Every move of the environment keeps the canonical form. -/
theorem envMove_mem_wf (m : EnvMove) (s : State) (h : s.store.mem.wf = true) : (envMove m s).store.mem.wf = true := by
  cases m with
  | foreignWrite i w => simpa [envMove, foreignWrite] using State.memAfterWrite_wf s i w h
  | _ => exact h

end Sys2Proof.Machine
end

