-- ==== Sys2Proof/Laws/Ops.lean ====
section
/-! SUPPORT. What each shared operation can do, said once: translation and lanes, readiness, the transfers, the stages. -/

namespace Sys2Proof.Machine

open Sys2Proof

/-! ### Translation and lanes -/

theorem wordIndex_toNat (off : Offset) : (wordIndex off).toNat = off.toNat / 2 := by
  have := off.isLt
  simp only [wordIndex, BitVec.extractLsb'_toNat, Nat.shiftRight_eq_div_pow]
  omega

theorem lane_eq (off : Offset) : lane off = decide (off.toNat % 2 = 1) := by
  simp [lane, BitVec.getLsbD, Nat.testBit_zero]

/-- An offset is twice its word index, plus one in the high lane (20_memory.md R51, R52). -/
theorem offset_eq (off : Offset) : off.toNat = 2 * (wordIndex off).toNat + if lane off then 1 else 0 := by
  rw [wordIndex_toNat, lane_eq]
  by_cases h : off.toNat % 2 = 1 <;> simp [h] <;> omega

theorem extractLsb'_append_high (a b : Byte) : (a ++ b).extractLsb' 8 8 = a := by
  ext j hj
  rw [BitVec.getElem_extractLsb', BitVec.getLsbD_append]
  simp [BitVec.getLsbD_eq_getElem hj]

theorem extractLsb'_append_low (a b : Byte) : (a ++ b).extractLsb' 0 8 = b := by
  ext j hj
  rw [BitVec.getElem_extractLsb', BitVec.getLsbD_append]
  simp [hj]

/-- The lane byte of a cell is the byte at the offset (20_memory.md R55, R60). -/
theorem laneByte_cell (m : Memory) (off : Offset) : laneByte off (m.cell (wordIndex off)) = m.read off.toNat := by
  have h := offset_eq off
  unfold laneByte Memory.cell
  cases hl : lane off <;> simp only [hl, if_true, Bool.false_eq_true, if_false] at h ⊢
  · rw [extractLsb'_append_low, h]; rfl
  · rw [extractLsb'_append_high, h]

/-- Writing back the merge of a cell stores the one byte and keeps every other (20_memory.md R56, R57). -/
theorem read_writeCell_merge (m : Memory) (off : Offset) (b : Byte) (a : Nat) :
    (m.writeCell (wordIndex off) (mergeByte off b (m.cell (wordIndex off)))).read a =
      if a = off.toNat then b else m.read a := by
  have h := offset_eq off
  rw [Memory.read_writeCell]
  unfold mergeByte Memory.cell
  cases hl : lane off <;> simp only [hl, if_true, Bool.false_eq_true, if_false] at h ⊢
  · by_cases h1 : a = 2 * (wordIndex off).toNat + 1
    · have : a ≠ off.toNat := by omega
      rw [if_pos h1, if_neg this, extractLsb'_append_high, extractLsb'_append_high, h1]
    · simp only [h1, if_false, h, Nat.add_zero, extractLsb'_append_low]
  · by_cases h1 : a = 2 * (wordIndex off).toNat + 1
    · simp only [h1, if_true, h, extractLsb'_append_high]
    · by_cases h2 : a = 2 * (wordIndex off).toNat
      · have : a ≠ off.toNat := by omega
        rw [if_neg h1, if_pos h2, if_neg this, extractLsb'_append_low, extractLsb'_append_low, h2]
      · have : a ≠ off.toNat := by omega
        simp only [h1, h2, this, if_false]

/-! ### Readiness -/

@[simp] theorem Readiness.after_zero (r : Readiness) : r.after 0 = r := by cases r <;> rfl

theorem Readiness.after_after (r : Readiness) (j k : Nat) : (r.after j).after k = r.after (j + k) := by
  cases r with
  | always => rfl
  | times n => simp [Readiness.after, Nat.sub_sub]

/-- An agent that answers one more transfer is spent by one. -/
theorem Readiness.take_of_admits {r : Readiness} {k : Nat} (h : r.admits (k + 1) = true) : r.take = some (r.after 1) := by
  cases r with
  | always => rfl
  | times n =>
    simp only [Readiness.admits, decide_eq_true_eq] at h
    obtain ⟨n, rfl⟩ : ∃ n', n = n' + 1 := ⟨n - 1, by omega⟩
    rfl

theorem Readiness.admits_after {r : Readiness} {j k : Nat} (h : r.admits (j + k) = true) : (r.after j).admits k = true := by
  cases r with
  | always => rfl
  | times n => simp only [Readiness.admits, Readiness.after, decide_eq_true_eq] at h ⊢; omega

theorem Readiness.admits_mono {r : Readiness} {j k : Nat} (hjk : j ≤ k) (h : r.admits k = true) : r.admits j = true := by
  cases r with
  | always => rfl
  | times n => simp only [Readiness.admits, decide_eq_true_eq] at h ⊢; omega

theorem Readiness.take_eq_none {r : Readiness} : r.take = none ↔ r = .times 0 := by
  cases r with
  | always => simp [Readiness.take]
  | times n => cases n <;> simp [Readiness.take]

/-! ### The transfers: if one is made, this is the state it leaves -/

theorem storeRead_some {i : WordIndex} {s t : State} {w : CellWord} (h : storeRead i s = some (w, t)) :
    ∃ r, s.env.storeReady.take = some r ∧ w = s.readWord i ∧
      t = { s with env := { s.env with storeReady := r }, inFlight := none, draws := s.drawsNext,
                   history := s.history ++ [.storeRead i w] } := by
  unfold storeRead at h
  split at h
  · cases h
  · rename_i r hr
    obtain ⟨rfl, rfl⟩ := by simpa using h
    exact ⟨r, hr, rfl, rfl⟩

theorem storeWrite_some {i : WordIndex} {w : CellWord} {s t : State} (h : storeWrite i w s = some t) :
    ∃ r, s.env.storeReady.take = some r ∧
      t = { s with env := { s.env with storeReady := r }, inFlight := none, draws := s.drawsNext,
                   store := { s.store with mem := s.memAfterWrite i w }, history := s.history ++ [.storeWrite i w] } := by
  unfold storeWrite at h
  split at h
  · cases h
  · rename_i r hr
    obtain rfl := by simpa using h
    exact ⟨r, hr, rfl⟩

theorem storeInit_some {s t : State} {c : StatusCode} (h : storeInit s = some (c, t)) :
    ∃ r, s.env.storeReady.take = some r ∧ c = s.env.initAnswer ∧
      t = { s with env := { s.env with storeReady := r }, inFlight := none,
                   store := { s.store with status := c.toStatus }, history := s.history ++ [.storeInit c] } := by
  unfold storeInit at h
  split at h
  · cases h
  · rename_i r hr
    obtain ⟨rfl, rfl⟩ := by simpa using h
    exact ⟨r, hr, rfl, rfl⟩

theorem srcByte_some {s t : State} {b : Byte} (h : srcByte s = some (b, t)) :
    ∃ rest, s.env.source = b :: rest ∧
      t = { s with env := { s.env with source := rest }, inFlight := none,
                   history := s.history ++ [.source s.x.k b] } := by
  unfold srcByte at h
  split at h
  · cases h
  · rename_i b' rest hs
    obtain ⟨rfl, rfl⟩ := by simpa using h
    exact ⟨rest, hs, rfl⟩

theorem dstByte_some {s t : State} {b : Byte} (h : dstByte b s = some t) :
    ∃ r, s.env.dstReady.take = some r ∧
      t = { s with env := { s.env with dstReady := r }, inFlight := none,
                   history := s.history ++ [.destination s.x.k b] } := by
  unfold dstByte at h
  split at h
  · cases h
  · rename_i r hr
    obtain rfl := by simpa using h
    exact ⟨r, hr, rfl⟩

/-! ### The stages where the other agent answers, and where it does not -/

section Stages
variable {s : State} {r : Readiness}

theorem initStage_went (h : s.env.storeReady.take = some r) :
    initStage s = .went
      { s with x := { s.x with ph := .init, ok := s.env.initAnswer.isOk }
               env := { s.env with storeReady := r }, inFlight := none
               store := { s.store with status := s.env.initAnswer.toStatus }
               history := s.history ++ [.storeInit s.env.initAnswer] ++ diagUnlessOk s.env.initAnswer.isOk } := by
  simp [initStage, storeInit, h]

theorem initStage_waits (h : s.env.storeReady.take = none) :
    initStage s = .waits { s with x := { s.x with ph := .init }, inFlight := some .storePort } := by
  simp [initStage, storeInit, h, State.awaiting, State.enter]

theorem readStage_went (h : s.env.storeReady.take = some r) :
    readStage s = .went
      { s with x := { s.x with ph := .rd, cur := laneByte s.currentOffset (s.readWord (wordIndex s.currentOffset)) }
               env := { s.env with storeReady := r }, inFlight := none, draws := s.drawsNext
               history := s.history ++ [.storeRead (wordIndex s.currentOffset) (s.readWord (wordIndex s.currentOffset))] } := by
  simp [readStage, storeRead, h, State.readWord, State.drawsNext]

theorem readStage_waits (h : s.env.storeReady.take = none) :
    readStage s = .waits { s with x := { s.x with ph := .rd }, inFlight := some .storePort } := by
  simp [readStage, storeRead, h, State.awaiting, State.enter]

theorem rmwRead_went (h : s.env.storeReady.take = some r) :
    rmwRead s = .went
      { s with x := { s.x with ph := .rmwRd, old := s.readWord (wordIndex s.currentOffset) }
               env := { s.env with storeReady := r }, inFlight := none, draws := s.drawsNext
               history := s.history ++ [.storeRead (wordIndex s.currentOffset) (s.readWord (wordIndex s.currentOffset))] } := by
  simp [rmwRead, storeRead, h, State.readWord, State.drawsNext]

theorem rmwRead_waits (h : s.env.storeReady.take = none) :
    rmwRead s = .waits { s with x := { s.x with ph := .rmwRd }, inFlight := some .storePort } := by
  simp [rmwRead, storeRead, h, State.awaiting, State.enter]

theorem rmwWrite_went (h : s.env.storeReady.take = some r) :
    rmwWrite s = .went
      { s with x := { s.x with ph := .rmwWr, k := s.x.k + 1 }
               env := { s.env with storeReady := r }, inFlight := none, draws := s.drawsNext
               store := { s.store with
                 mem := s.memAfterWrite (wordIndex s.currentOffset) (mergeByte s.currentOffset s.x.cur s.x.old) }
               history := s.history ++
                 [.storeWrite (wordIndex s.currentOffset) (mergeByte s.currentOffset s.x.cur s.x.old)] } := by
  simp [rmwWrite, storeWrite, h, State.drawsNext, State.nextByte, State.memAfterWrite]

theorem rmwWrite_waits (h : s.env.storeReady.take = none) :
    rmwWrite s = .waits { s with x := { s.x with ph := .rmwWr }, inFlight := some .storePort } := by
  simp [rmwWrite, storeWrite, h, State.awaiting, State.enter]

theorem fetchSource_went {b : Byte} {rest : List Byte} (h : s.env.source = b :: rest) :
    fetchSource s = .went
      { s with x := { s.x with ph := .fetch, cur := b }, env := { s.env with source := rest }, inFlight := none
               history := s.history ++ [.source s.x.k b] } := by
  simp [fetchSource, srcByte, h]

theorem fetchSource_waits (h : s.env.source = []) :
    fetchSource s = .waits { s with x := { s.x with ph := .fetch }, inFlight := some .source } := by
  simp [fetchSource, srcByte, h, State.awaiting, State.enter]

theorem deliverByte_went (h : s.env.dstReady.take = some r) :
    deliverByte s = .went
      { s with x := { s.x with ph := .dst, k := s.x.k + 1 }, env := { s.env with dstReady := r }, inFlight := none
               history := s.history ++ [.destination s.x.k s.x.cur] } := by
  simp [deliverByte, dstByte, h, State.nextByte]

theorem deliverByte_waits (h : s.env.dstReady.take = none) :
    deliverByte s = .waits { s with x := { s.x with ph := .dst }, inFlight := some .destination } := by
  simp [deliverByte, dstByte, h, State.awaiting, State.enter]

theorem respond_went {d : Data} {ok : Bool} (h : s.env.rspReady.take = some r) :
    respond d ok s = .went
      { s with x := { s.x with ph := .idle }, env := { s.env with rspReady := r }, inFlight := none
               history := s.history ++ [.response d ok] } := by
  simp [respond, h]

theorem respond_waits {d : Data} {ok : Bool} (h : s.env.rspReady.take = none) :
    respond d ok s = .waits { s with x := { s.x with ph := .resp }, inFlight := some .response } := by
  simp [respond, h, State.awaiting, State.enter]

/-! ### The single-byte operations where the store answers -/

/-- `ReadByte` into the assembled value: one store read, byte `x[k]` of `x[acc]`, `x[k]` counted up (20_memory.md R55). -/
theorem readDataByte_went (h : s.env.storeReady.take = some r) :
    readDataByte s = .went
      { s with x := { s.x with
                 ph := .rd, cur := laneByte s.currentOffset (s.readWord (wordIndex s.currentOffset))
                 acc := putDataByte s.x.acc s.x.k (laneByte s.currentOffset (s.readWord (wordIndex s.currentOffset)))
                 k := s.x.k + 1 }
               env := { s.env with storeReady := r }, inFlight := none, draws := s.drawsNext
               history := s.history ++ [.storeRead (wordIndex s.currentOffset) (s.readWord (wordIndex s.currentOffset))] } := by
  simp [readDataByte, readStage_went h, assembleByte]

/-- `ReadByte` to the destination stream: one store read, one destination byte, `x[k]` counted up (43_block_access.md R141). -/
theorem readBlockByte_went {d : Readiness} (h : s.env.storeReady.take = some r) (hd : s.env.dstReady.take = some d) :
    readBlockByte s = .went
      { s with x := { s.x with
                 ph := .dst, cur := laneByte s.currentOffset (s.readWord (wordIndex s.currentOffset)), k := s.x.k + 1 }
               env := { s.env with storeReady := r, dstReady := d }, inFlight := none, draws := s.drawsNext
               history := s.history ++
                 [.storeRead (wordIndex s.currentOffset) (s.readWord (wordIndex s.currentOffset)),
                  .destination s.x.k (laneByte s.currentOffset (s.readWord (wordIndex s.currentOffset)))] } := by
  unfold readBlockByte
  rw [readStage_went h, Progress.went_andThen, deliverByte_went (r := d) (by simpa using hd)]
  simp

/-- `WriteByte` of a byte of the write data to a store that is OK: one store read, one store write of the merge
(20_memory.md R56). -/
theorem writeDataByte_ok {r' : Readiness} (hok : s.store.status = .ok) (h : s.env.storeReady.take = some r)
    (h' : r.take = some r') :
    writeDataByte s = .went
      { s with x := { s.x with
                 ph := .rmwWr, cur := dataByte s.x.wdata s.x.k, old := s.store.mem.cell (wordIndex s.currentOffset)
                 k := s.x.k + 1 }
               env := { s.env with storeReady := r' }, inFlight := none
               store := { s.store with
                 mem := s.store.mem.writeCell (wordIndex s.currentOffset)
                   (mergeByte s.currentOffset (dataByte s.x.wdata s.x.k) (s.store.mem.cell (wordIndex s.currentOffset))) }
               history := s.history ++
                 [.storeRead (wordIndex s.currentOffset) (s.store.mem.cell (wordIndex s.currentOffset)),
                  .storeWrite (wordIndex s.currentOffset)
                    (mergeByte s.currentOffset (dataByte s.x.wdata s.x.k)
                      (s.store.mem.cell (wordIndex s.currentOffset)))] } := by
  unfold writeDataByte fetchData
  rw [Progress.went_andThen, rmwRead_went (r := r) (by simpa using h), Progress.went_andThen,
    rmwWrite_went (r := r') (by simpa using h')]
  simp [State.memAfterWrite, State.readWord, State.drawsNext, State.currentOffset, hok]

/-- `WriteByte` of a source byte to a store that is OK (43_block_access.md R143). -/
theorem writeBlockByte_ok {r' : Readiness} {b : Byte} {rest : List Byte} (hok : s.store.status = .ok)
    (hs : s.env.source = b :: rest) (h : s.env.storeReady.take = some r) (h' : r.take = some r') :
    writeBlockByte s = .went
      { s with x := { s.x with
                 ph := .rmwWr, cur := b, old := s.store.mem.cell (wordIndex s.currentOffset), k := s.x.k + 1 }
               env := { s.env with storeReady := r', source := rest }, inFlight := none
               store := { s.store with
                 mem := s.store.mem.writeCell (wordIndex s.currentOffset)
                   (mergeByte s.currentOffset b (s.store.mem.cell (wordIndex s.currentOffset))) }
               history := s.history ++
                 [.source s.x.k b, .storeRead (wordIndex s.currentOffset) (s.store.mem.cell (wordIndex s.currentOffset)),
                  .storeWrite (wordIndex s.currentOffset)
                    (mergeByte s.currentOffset b (s.store.mem.cell (wordIndex s.currentOffset)))] } := by
  unfold writeBlockByte
  rw [fetchSource_went hs, Progress.went_andThen, rmwRead_went (r := r) (by simpa using h), Progress.went_andThen,
    rmwWrite_went (r := r') (by simpa using h')]
  simp [State.memAfterWrite, State.readWord, State.drawsNext, State.currentOffset, hok]

end Stages

end Sys2Proof.Machine
end

