-- ==== Sys2Proof/Laws/PerInstr.lean ====
section
/-! SUPPORT. Statements about every command, made one constructor at a time. -/

namespace Sys2Proof.Laws.EncodedCode

open Sys2Proof

/-- The low four bits of a command's request word are its code in the opcode map (30_encoding.md R82, R89), so bit 0 says
whether a data command writes and bit 3 whether it is a system or reserved code (R81). -/
def Statement (i : Instr) : Prop := (encodeWord i).extractLsb' 0 4 = i.code

/-- The code of a request stands in the low bits of its word. -/
theorem word_low (r : Request) : r.word.extractLsb' 0 4 = r.cmd := by
  ext j hj
  have h : j < 4 := hj
  unfold Request.word
  rw [BitVec.getElem_extractLsb', BitVec.getLsbD_append]
  simp [h]

theorem rd8 (addr : Loc) (wdata : Data) (count : Count) : Statement (.rd8 addr wdata count) := word_low _
theorem wr8 (addr : Loc) (wdata : Data) (count : Count) : Statement (.wr8 addr wdata count) := word_low _
theorem rd16 (addr : Loc) (wdata : Data) (count : Count) : Statement (.rd16 addr wdata count) := word_low _
theorem wr16 (addr : Loc) (wdata : Data) (count : Count) : Statement (.wr16 addr wdata count) := word_low _
theorem rd32 (addr : Loc) (wdata : Data) (count : Count) : Statement (.rd32 addr wdata count) := word_low _
theorem wr32 (addr : Loc) (wdata : Data) (count : Count) : Statement (.wr32 addr wdata count) := word_low _
theorem rdblk (addr : Loc) (wdata : Data) (count : Count) : Statement (.rdblk addr wdata count) := word_low _
theorem wrblk (addr : Loc) (wdata : Data) (count : Count) : Statement (.wrblk addr wdata count) := word_low _
theorem init (addr : Loc) (wdata : Data) (count : Count) : Statement (.init addr wdata count) := word_low _
theorem reserved9 (addr : Loc) (wdata : Data) (count : Count) : Statement (.reserved9 addr wdata count) := word_low _
theorem reservedA (addr : Loc) (wdata : Data) (count : Count) : Statement (.reservedA addr wdata count) := word_low _
theorem reservedB (addr : Loc) (wdata : Data) (count : Count) : Statement (.reservedB addr wdata count) := word_low _
theorem reservedC (addr : Loc) (wdata : Data) (count : Count) : Statement (.reservedC addr wdata count) := word_low _
theorem reservedD (addr : Loc) (wdata : Data) (count : Count) : Statement (.reservedD addr wdata count) := word_low _
theorem reservedE (addr : Loc) (wdata : Data) (count : Count) : Statement (.reservedE addr wdata count) := word_low _
theorem reservedF (addr : Loc) (wdata : Data) (count : Count) : Statement (.reservedF addr wdata count) := word_low _

end Sys2Proof.Laws.EncodedCode
end

