-- ==== Sys2Proof/Laws/Sequencer.lean ====
section
/-! SUPPORT. What one Controller step does, phase by phase, and how `ticks` and `resume` go on. -/

namespace Sys2Proof.Machine

open Sys2Proof

section Tick
variable {s : State}

theorem tick_reset {c : ResetCause} (h : s.env.resetLine = some c) : tick s = .went (performReset c s) := by
  simp [tick, h]

theorem tick_idle (h : s.env.resetLine = none) (hp : s.x.ph = .idle) : tick s = acceptStage s := by
  simp [tick, h, hp]

theorem tick_init (h : s.env.resetLine = none) (hp : s.x.ph = .init) :
    tick s = (initStage s).enter fun _ => .resp := by
  simp [tick, h, hp]

theorem tick_fetch (h : s.env.resetLine = none) (hp : s.x.ph = .fetch) : tick s = fetchPhase s := by
  simp [tick, h, hp]

theorem tick_rmwRd (h : s.env.resetLine = none) (hp : s.x.ph = .rmwRd) :
    tick s = (rmwRead s).enter fun _ => .rmwWr := by
  simp [tick, h, hp]

theorem tick_rmwWr (h : s.env.resetLine = none) (hp : s.x.ph = .rmwWr) :
    tick s = (rmwWrite s).enter (nextUnlessDone .fetch) := by
  simp [tick, h, hp]

theorem tick_rd (h : s.env.resetLine = none) (hp : s.x.ph = .rd) : tick s = readPhase s := by
  simp [tick, h, hp]

theorem tick_dst (h : s.env.resetLine = none) (hp : s.x.ph = .dst) :
    tick s = (deliverByte s).enter (nextUnlessDone .rd) := by
  simp [tick, h, hp]

theorem tick_resp (h : s.env.resetLine = none) (hp : s.x.ph = .resp) :
    tick s = respond (rdataOf s.x.op s.x.acc) (initOkOf s.x.op s.x.ok) s := by
  simp [tick, h, hp]

end Tick

@[simp] theorem Progress.went_enter (s : State) (f : State → Phase) :
    (Progress.went s).enter f = .went (s.enter (f s)) := rfl
@[simp] theorem Progress.waits_enter (s : State) (f : State → Phase) : (Progress.waits s).enter f = .waits s := rfl

@[simp] theorem ticks_zero (s : State) : ticks 0 s = s := rfl
@[simp] theorem ticks_succ (n : Nat) (s : State) : ticks (n + 1) s = ticks n (tick s).state := rfl

/-- A wait ends `resume`. -/
theorem resume_of_waits {s t : State} (h : tick s = .waits t) (fuel : Nat) : resume (fuel + 1) s = t := by
  simp [resume, h]

/-- The response ends `resume`. -/
theorem resume_of_idle {s t : State} (h : tick s = .went t) (hp : t.x.ph = .idle) (fuel : Nat) :
    resume (fuel + 1) s = t := by
  simp [resume, h, hp]

/-- Any other step leaves the rest to `resume`. -/
theorem resume_of_went {s t : State} (h : tick s = .went t) (hp : t.x.ph ≠ .idle) (fuel : Nat) :
    resume (fuel + 1) s = resume fuel t := by
  simp [resume, h, hp]

/-- What every Controller step keeps, `resume` keeps. -/
theorem resume_keeps {P : State → Prop} (h : ∀ s, P s → P (tick s).state) (fuel : Nat) (s : State) (hs : P s) :
    P (resume fuel s) := by
  induction fuel generalizing s with
  | zero => exact hs
  | succ fuel ih =>
    have ht := h s hs
    unfold resume
    split
    · rename_i t e
      rw [e] at ht
      split
      · exact ht
      · exact ih t ht
    · rename_i t e
      rw [e] at ht
      exact ht

/-- A pending power loss waits through every move of the other agents (log entry 25). -/
theorem envMove_resetLine_powerLoss {s : State} (h : s.env.resetLine = some .powerLoss) (m : EnvMove) :
    (envMove m s).env.resetLine = some .powerLoss := by
  cases m <;> simp [envMove, foreignWrite, h]

/-- What every act keeps, a run keeps. -/
theorem runActs_keeps {P : State → Prop} (h : ∀ a s, P s → P (act a s)) (acts : List Act) (s : State) (hs : P s) :
    P (runActs acts s) := by
  induction acts generalizing s with
  | nil => exact hs
  | cons a acts ih => exact ih _ (h a s hs)

end Sys2Proof.Machine
end

