-- ==== Sys2Proof/Tests/Slice0.lean ====
section
/-! SUPPORT. Tests. Expected results are the spec's test vectors (spec/95_test_vectors.md, named in each comment) or hand
calculation from its rules; and for each obligation with hypotheses a witness that meets them. -/

namespace Sys2Proof.Tests

open Sys2Proof Sys2Proof.Machine

set_option maxRecDepth 4096

/-! ### WellFormed: each check refuses an ill-formed term -/

theorem test_every_command_well_formed : (Instr.wrblk 0xFFFF 0xFFFFFFFF 0xFFFF).wellFormed = true := by decide
theorem test_request_word_above_68_bits_refused : requestWordInRange (2 ^ 68) = false := by decide
theorem test_request_word_in_range : requestWordInRange (2 ^ 68 - 1) = true := by decide
theorem test_address_operand_out_of_range_refused : operandInRange 16 0x10000 = false := by decide
theorem test_byte_list_of_wrong_length_refused : byteListInRange 3 [1, 2] = false := by decide
theorem test_byte_list_with_wide_byte_refused : byteListInRange 2 [1, 256] = false := by decide

/-! ### Decode: a word of every row, written out from 30_encoding.md R82 and R89 (`count_wdata_addr_cmd`) -/

theorem test_decode_rd8 : decodeWord 0x0000_00000000_0FFF_0#68 = .rd8 0x0FFF 0 0 := by decide
theorem test_decode_wr8 : decodeWord 0x0000_0000005A_0010_1#68 = .wr8 0x0010 0x5A 0 := by decide
theorem test_decode_rd16 : decodeWord 0x0000_00000000_0010_2#68 = .rd16 0x0010 0 0 := by decide
theorem test_decode_wr16 : decodeWord 0x0000_0000ABCD_0FFF_3#68 = .wr16 0x0FFF 0xABCD 0 := by decide
theorem test_decode_rd32 : decodeWord 0x0000_00000000_0101_4#68 = .rd32 0x0101 0 0 := by decide
theorem test_decode_wr32 : decodeWord 0x0000_DEADBEEF_0101_5#68 = .wr32 0x0101 0xDEADBEEF 0 := by decide
theorem test_decode_rdblk : decodeWord 0x0005_00000000_0FFD_6#68 = .rdblk 0x0FFD 0 5 := by decide
theorem test_decode_wrblk : decodeWord 0x0003_00000000_0FFE_7#68 = .wrblk 0x0FFE 0 3 := by decide
theorem test_decode_init : decodeWord 0xFFFF_FFFFFFFF_FFFF_8#68 = .init 0xFFFF 0xFFFFFFFF 0xFFFF := by decide
theorem test_decode_9 : decodeWord 0x0000_00000000_0000_9#68 = .reserved9 0 0 0 := by decide
theorem test_decode_A : decodeWord 0x0000_00000000_0000_A#68 = .reservedA 0 0 0 := by decide
theorem test_decode_B : decodeWord 0x0000_00000000_0000_B#68 = .reservedB 0 0 0 := by decide
theorem test_decode_C : decodeWord 0x0000_00000000_0000_C#68 = .reservedC 0 0 0 := by decide
theorem test_decode_D : decodeWord 0x0000_00000000_0000_D#68 = .reservedD 0 0 0 := by decide
theorem test_decode_E : decodeWord 0x0000_00000000_0000_E#68 = .reservedE 0 0 0 := by decide
theorem test_decode_F : decodeWord 0x0000_00000000_0010_F#68 = .reservedF 0x0010 0 0 := by decide
/-- WR16 `0x0FFF, 0xABCD` bit by bit (R89), as its nine bytes, least significant first. -/
theorem test_decode_bytes :
    decodeBytes [0b11110011, 0b11111111, 0b11010000, 0b10111100, 0b00001010, 0, 0, 0, 0, 0x77] =
      .ok (.wr16 0x0FFF 0xABCD 0, [0x77]) := by decide
theorem test_encode_bytes :
    encodeBytes (.wr16 0x0FFF 0xABCD 0) = [0xF3, 0xFF, 0xD0, 0xBC, 0x0A, 0, 0, 0, 0] := by decide
theorem test_decode_short_refused : decodeBytes [0, 1, 2] = .error .tooShort := by decide
theorem test_decode_stray_bits_refused : decodeBytes [0, 0, 0, 0, 0, 0, 0, 0, 0x10] = .error .strayHighBits := by decide

/-! ### Assembler (R90) -/

/-- Program P4 row 2. -/
theorem test_parse_wrblk :
    asmParse ['W', 'R', 'B', 'L', 'K', ' ', '0', 'x', '0', 'F', 'F', 'E', ',', '2', ',', '[', '0', 'x', 'A', '1', ',', '7',
      ']', ' ', ';', 'x'] = .line (.wrblk 0x0FFE 2 [0xA1, 7]) := by decide
theorem test_parse_out_of_range_refused :
    asmParse ['W', 'R', '8', ' ', '0', ',', '2', '5', '6'] = .refused := by decide
theorem test_parse_comment_is_blank : asmParse [' ', ';', 'I', 'N', 'I', 'T'] = .blank := by decide
theorem test_assemble_wr16 : (assemble (.wr16 0x0FFF 0xABCD)).map (fun p => p.1.word) =
    some 0x0000_0000ABCD_0FFF_3#68 := by decide

/-! ### Translation (95_test_vectors.md 2.1, X6, X8, X10 and the byte sequences) -/

theorem test_X6 : (wordIndex (normalise 0x1FFF), lane (normalise 0x1FFF)) = (0x7FF, true) := by decide
theorem test_X8 : (normalise 0x8123, wordIndex (normalise 0x8123)) = (0x123, 0x091) := by decide
theorem test_X10 : (wordIndex (normalise 0xABCD), lane (normalise 0xABCD)) = (0x5E6, true) := by decide
theorem test_byte_sequence :
    [byteOffset 0xFFFE 0, byteOffset 0xFFFE 1, byteOffset 0xFFFE 2, byteOffset 0x0000 4096] = [0xFFE, 0xFFF, 0x000, 0x000] := by
  decide

/-! ### Small states -/

/-- A store that is OK and holds the given cells, every agent ready, nothing waiting. -/
def okState (cells : List (WordIndex × CellWord)) : State :=
  { State.reset with
    store := { status := .ok, mem := cells.foldl (fun m c => m.writeCell c.1 c.2) Memory.empty }
    initSeen := true }

/-- The events of an outcome. -/
def events (o : Host.Outcome State Fault Refusal) : List Event :=
  match o with
  | .next s => s.history
  | _ => []

/-- Cell `i` after an outcome. -/
def cellOf (o : Host.Outcome State Fault Refusal) (i : WordIndex) : Option CellWord :=
  match o with
  | .next s => some (s.store.mem.cell i)
  | _ => none

/-! ### Commands (the vector is named in each comment) -/

/-- S2. -/
theorem test_rd8_high_lane :
    events (exec (.rd8 0x0001 0 0) (okState [(0, 0x1234)])) = [.storeRead 0 0x1234, .response 0x12 false] := by decide
/-- S3: an alias. -/
theorem test_rd8_alias :
    events (exec (.rd8 0xF001 0 0) (okState [(0, 0x1234)])) = [.storeRead 0 0x1234, .response 0x12 false] := by decide
/-- S5. -/
theorem test_wr8_high_lane :
    events (exec (.wr8 0x0001 0xAB 0) (okState [(0, 0x1234)])) =
      [.storeRead 0 0x1234, .storeWrite 0 0xAB34, .response 0 false] := by decide
/-- S8: `wdata[31:8]` ignored. -/
theorem test_wr8_high_data_ignored : cellOf (exec (.wr8 0x0004 0xFFFFFF77 0) (okState [])) 2 = some 0x0077 := by decide
/-- M2. -/
theorem test_rd16_odd :
    events (exec (.rd16 0x0011 0 0) (okState [(8, 0xA55A), (9, 0x1234)])) =
      [.storeRead 8 0xA55A, .storeRead 9 0x1234, .response 0x34A5 false] := by decide
/-- M1: the cell is read twice. -/
theorem test_rd16_even :
    events (exec (.rd16 0x0010 0 0) (okState [(8, 0xA55A)])) =
      [.storeRead 8 0xA55A, .storeRead 8 0xA55A, .response 0xA55A false] := by decide
/-- V1 step 1. -/
theorem test_wr16_wrap :
    events (exec (.wr16 0x0FFF 0xABCD 0) (okState [(0x7FF, 0x1111), (0, 0x2222)])) =
      [.storeRead 0x7FF 0x1111, .storeWrite 0x7FF 0xCD11, .storeRead 0 0x2222, .storeWrite 0 0x22AB, .response 0 false] := by
  decide
/-- M7. -/
theorem test_wr16_even :
    events (exec (.wr16 0x0020 0x9999BEEF 0) (okState [(0x10, 0x1234)])) =
      [.storeRead 0x10 0x1234, .storeWrite 0x10 0x12EF, .storeRead 0x10 0x12EF, .storeWrite 0x10 0xBEEF,
       .response 0 false] := by decide
/-- M5. -/
theorem test_rd32_odd :
    events (exec (.rd32 0x0003 0 0) (okState [(1, 0x4433), (2, 0x6655), (3, 0x8877)])) =
      [.storeRead 1 0x4433, .storeRead 2 0x6655, .storeRead 2 0x6655, .storeRead 3 0x8877,
       .response 0x77665544 false] := by decide
/-- P3 row 2. -/
theorem test_wr32_odd :
    events (exec (.wr32 0x0101 0xDEADBEEF 0) (okState [(0x80, 0x1111), (0x81, 0x2222), (0x82, 0x3333)])) =
      [.storeRead 0x80 0x1111, .storeWrite 0x80 0xEF11, .storeRead 0x81 0x2222, .storeWrite 0x81 0x22BE,
       .storeRead 0x81 0x22BE, .storeWrite 0x81 0xADBE, .storeRead 0x82 0x3333, .storeWrite 0x82 0x33DE,
       .response 0 false] := by decide
/-- B3. -/
theorem test_rdblk_wrap :
    events (exec (.rdblk 0x0FFE 0 3) (okState [(0x7FF, 0x2211), (0, 0x4433)])) =
      [.storeRead 0x7FF 0x2211, .destination 0 0x11, .storeRead 0x7FF 0x2211, .destination 1 0x22, .storeRead 0 0x4433,
       .destination 2 0x33, .response 0 false] := by decide
/-- B4. -/
theorem test_wrblk_wrap :
    events (exec (.wrblk 0x0FFE 0 3) ((okState [(0, 0xFFFF)]).withSource [0xA1, 0xB2, 0xC3])) =
      [.source 0 0xA1, .storeRead 0x7FF 0x0000, .storeWrite 0x7FF 0x00A1, .source 1 0xB2, .storeRead 0x7FF 0x00A1,
       .storeWrite 0x7FF 0xB2A1, .source 2 0xC3, .storeRead 0 0xFFFF, .storeWrite 0 0xFFC3, .response 0 false] := by decide
/-- B7: the Host gives two of three bytes; the Controller waits for `src[2]` and gives no response. -/
theorem test_wrblk_waits :
    events (exec (.wrblk 0 0 3) ((okState []).withSource [0x11, 0x22])) =
      [.source 0 0x11, .storeRead 0 0, .storeWrite 0 0x0011, .source 1 0x22, .storeRead 0 0x0011,
       .storeWrite 0 0x2211] := by decide
/-- I1. -/
theorem test_init_ok :
    events (exec (.init 0 0 0) (envMove (.answerInit .storeOk) State.reset)) =
      [.storeInit .storeOk, .response 0 true] := by decide
/-- The complement of the OK code is another code. -/
theorem not_storeOk_ne : ~~~ Config.storeOk ≠ Config.storeOk := by
  intro h
  have h0 : (~~~ Config.storeOk).getLsbD 0 = Config.storeOk.getLsbD 0 := by rw [h]
  have hw : 0 < Config.statusWidth := Nat.succ_pos _
  simp [hw] at h0
/-- I2, P5 row 1. -/
theorem test_init_failed :
    events (exec (.init 0 0 0) (envMove (.answerInit (.other (~~~ Config.storeOk))) State.reset)) =
      [.storeInit (.other (~~~ Config.storeOk)), .diag 1, .response 0 false] := by
  have h : StatusCode.isOk (.other (~~~ Config.storeOk)) = false := by simp [StatusCode.isOk, not_storeOk_ne]
  simp [events, exec, execInit, initStage, storeInit, respond, noteInit, accept, envMove, State.reset, Env.reset,
    Readiness.take, Progress.outcome, State.enter, h, diagUnlessOk, Config.initFailCode]
/-- Section 2.6 R1. -/
theorem test_reserved_9 :
    (match exec (.reserved9 0 0 0) (okState []) with
     | .next t => (t.history, t.mark)
     | _ => ([], none)) = ([.response 0 false], some ⟨.reservedCommand, some 0x9⟩) := by decide
/-- Section 2.6 R2. -/
theorem test_reserved_F :
    (match exec (.reservedF 0x0010 0 0) (okState []) with
     | .next t => (t.history, t.mark)
     | _ => ([], none)) = ([.response 0 false], some ⟨.reservedCommand, some 0xF⟩) := by decide
theorem test_reserved_A : events (exec (.reservedA 0 0 0) (okState [])) = [.response 0 false] := by decide
theorem test_reserved_B : events (exec (.reservedB 0 0 0) (okState [])) = [.response 0 false] := by decide
theorem test_reserved_C : events (exec (.reservedC 0 0 0) (okState [])) = [.response 0 false] := by decide
theorem test_reserved_D : events (exec (.reservedD 0 0 0) (okState [])) = [.response 0 false] := by decide
theorem test_reserved_E : events (exec (.reservedE 0 0 0) (okState [])) = [.response 0 false] := by decide

/-! ### Sequencer, reset, second master -/

/-- A WR32 of Z1 on the request channel. -/
def z1State : State :=
  envMove (.present ⟨0x5, 0x0101, 0xDEADBEEF, 0⟩) (okState [(0x80, 0x1111), (0x81, 0x2222), (0x82, 0x3333)])
/-- The bytes of cells 0x80 to 0x82. -/
def z1Cells (s : State) : List CellWord := [s.store.mem.cell 0x80, s.store.mem.cell 0x81, s.store.mem.cell 0x82]
/-- Z1: the reset comes after `R 0x80, W 0x80, R 0x81` have completed. -/
theorem test_Z1_reset_between_transfers :
    (let s := (tick (envMove (.assertReset .blockReset) (ticks 6 z1State))).state
     (s.x.ph, z1Cells s, s.history.length)) = (.idle, [0xEF11, 0x2222, 0x3333], 4) := by decide
/-- Z2: the reset comes while `W 0x81` is in flight: the cell is a draw. -/
theorem test_Z2_reset_in_a_store_write :
    z1Cells (tick (envMove (.assertReset .blockReset)
      (ticks 7 (envMove (.completeStore (.times 3)) z1State)))).state = [0xEF11, Config.draw 0, 0x3333] := by
  have hw : z1State.store.mem.wf = true := by decide
  have e : (envMove (.assertReset .blockReset) (ticks 7 (envMove (.completeStore (.times 3)) z1State))).writeInFlight =
      true := by decide
  have e1 : (envMove (.assertReset .blockReset) (ticks 7 (envMove (.completeStore (.times 3)) z1State))).store.status =
      .ok := by decide
  have e2 : wordIndex (envMove (.assertReset .blockReset)
      (ticks 7 (envMove (.completeStore (.times 3)) z1State))).currentOffset = 0x81 := by decide
  have e3 : (envMove (.assertReset .blockReset) (ticks 7 (envMove (.completeStore (.times 3)) z1State))).draws = 0 := by decide
  have e4 : (envMove (.assertReset .blockReset) (ticks 7 (envMove (.completeStore (.times 3)) z1State))).store.mem.cell 0x80 =
      0xEF11 := by decide
  have e5 : (envMove (.assertReset .blockReset) (ticks 7 (envMove (.completeStore (.times 3)) z1State))).store.mem.cell 0x82 =
      0x3333 := by decide
  have h : ∀ s : State, s.env.resetLine = some .blockReset → s.writeInFlight = true → s.store.status = .ok →
      wordIndex s.currentOffset = 0x81 → s.draws = 0 →
      z1Cells (tick s).state = [s.store.mem.cell 0x80, Config.draw 0, s.store.mem.cell 0x82] := by
    intro s h1 h2 h3 h4 h5
    simp only [tick, h1, z1Cells, Progress.went_state, performReset_mem, State.memAfterReset, h2, if_true,
      State.memAfterWrite, h3, h4, h5, Memory.cell_writeCell_same]
    rw [Memory.cell_writeCell_other _ _ (by decide), Memory.cell_writeCell_other _ _ (by decide)]
  rw [h _ rfl e e1 e2 e3, e4, e5]
/-- Section 2.6 R3: another agent writes the sibling byte between `R 8` and `W 8` of a WR8: its write is lost. -/
theorem test_foreign_write_lost :
    (let s := tick (envMove (.foreignWrite 8 0xEE34) (ticks 3 (envMove (.present ⟨1, 0x10, 0x5A, 0⟩)
       (okState [(8, 0x1234)]))))
     (s.state.store.mem.cell 8, s.state.mark)) = (0x125A, some ⟨.concurrentStoreMaster, some 1⟩) := by decide
/-- Between commands the mark names no command, whatever the dead `x[op]` holds (10_state.md R34). -/
theorem test_foreign_write_in_idle :
    (envMove (.foreignWrite 8 0xEE34) (tick (tick (tick (envMove (.present ⟨2, 0, 0, 0⟩) (okState []))).state).state).state).mark =
      some ⟨.concurrentStoreMaster, some 2⟩ ∧
    (envMove (.foreignWrite 8 0xEE34) (ticks 4 (envMove (.present ⟨2, 0, 0, 0⟩) (okState [])))).mark =
      some ⟨.concurrentStoreMaster, none⟩ := by decide
/-- A block reset asserted after a power loss that no step has taken does not drop it (log entry 25). -/
theorem test_power_loss_stays_pending :
    (tick (envMove (.assertReset .blockReset) (envMove (.assertReset .powerLoss) (okState [])))).state.store.status =
      .uninit := by decide
/-- Z3: a request presented in flight waits and is then accepted. -/
theorem test_Z3_request_waits :
    (ticks 7 (envMove (.present ⟨0, 0, 0, 0⟩) (ticks 2 (envMove (.present ⟨3, 0, 0xABCD, 0⟩) (okState []))))).history.getLast? =
      some (.request ⟨0, 0, 0, 0⟩) := by decide
/-- A command that waited goes on with the step when the Host moves (B7 continued by hand). -/
theorem test_step_resumes :
    (match step (envMove (.supply [0x33]) ((fun o => match o with
        | .next t => t
        | _ => State.reset) (exec (.wrblk 0 0 3) ((okState []).withSource [0x11, 0x22])))) with
     | .next t => (t.x.ph, t.store.mem.cell 1, t.history.getLast?)
     | _ => (.resp, 0, none)) = (.idle, 0x0033, some (.response 0 false)) := by decide

/-! ### Witnesses: the hypotheses of each obligation met together, at the boundary of each readiness -/

/-- An OK store that answers `k` more transfers, a Host that takes `j` destination bytes and `r` responses, three source
bytes. -/
def readyFor (k j r : Nat) : State :=
  { okState [(8, 0x1234)] with
    env := { Env.reset with storeReady := .times k, dstReady := .times j, rspReady := .times r, source := [1, 2, 3] } }

/-- The same with the store UNINIT. -/
def uninitFor (k r : Nat) : State :=
  { readyFor k 0 r with store := { status := .uninit, mem := Memory.empty }, initSeen := false }

theorem witness_DecodingUndoesEncoding : (Instr.wr32 0x0101 0xDEADBEEF 7).wellFormed = true := by decide
theorem witness_CanonicalMemories :
    (okState [(8, 0x1234)]).store.mem.wf = true ∧ ∀ a, (okState [(8, 0x1234)]).store.mem.read a =
      (okState [(8, 0x1234)]).store.mem.read a := ⟨by decide, fun _ => rfl⟩
theorem witness_Rd8 : (readyFor 1 0 1).env.storeReady.admits 1 = true ∧ (readyFor 1 0 1).env.rspReady.admits 1 = true := by
  decide
theorem witness_Wr8 : (readyFor 2 0 1).env.storeReady.admits 2 = true ∧ (readyFor 2 0 1).env.rspReady.admits 1 = true ∧
    (readyFor 2 0 1).store.status = .ok := by decide
theorem witness_ByteRoundTrip : (readyFor 3 0 2).store.status = .ok ∧ (readyFor 3 0 2).env.storeReady.admits 3 = true ∧
    (readyFor 3 0 2).env.rspReady.admits 2 = true := by decide
theorem witness_SiblingWrites : (readyFor 5 0 3).store.status = .ok ∧ (readyFor 5 0 3).env.storeReady.admits 5 = true ∧
    (readyFor 5 0 3).env.rspReady.admits 3 = true := by decide
theorem witness_Rd16 : (readyFor 2 0 1).env.storeReady.admits 2 = true ∧ (readyFor 2 0 1).env.rspReady.admits 1 = true := by
  decide
theorem witness_Rd32 : (uninitFor 4 1).env.storeReady.admits 4 = true ∧ (uninitFor 4 1).env.rspReady.admits 1 = true := by
  decide
theorem witness_Wr16 : (readyFor 4 0 1).env.storeReady.admits 4 = true ∧ (readyFor 4 0 1).env.rspReady.admits 1 = true ∧
    (readyFor 4 0 1).store.status = .ok := by decide
theorem witness_Wr32 : (readyFor 8 0 1).env.storeReady.admits 8 = true ∧ (readyFor 8 0 1).env.rspReady.admits 1 = true ∧
    (readyFor 8 0 1).store.status = .ok := by decide
theorem witness_AlignedWrites : (readyFor 8 0 0).store.status = .ok ∧ (readyFor 8 0 0).env.storeReady.admits 8 = true ∧
    (0xFFFE : Loc).toNat % 2 = 0 ∧ (0xFFFC : Loc).toNat % 4 = 0 := by decide
theorem witness_WordRoundTrip : (readyFor 6 0 2).store.status = .ok ∧ (readyFor 6 0 2).env.rspReady.admits 2 = true ∧
    (readyFor 6 0 2).env.storeReady.admits 6 = true := by decide
theorem witness_DoubleWordRoundTrip : (readyFor 12 0 2).store.status = .ok ∧
    (readyFor 12 0 2).env.rspReady.admits 2 = true ∧ (readyFor 12 0 2).env.storeReady.admits 12 = true := by decide
theorem witness_WritingTwice : (okState [(8, 0x1234)]).store.status = .ok ∧ (okState [(8, 0x1234)]).allReady ∧
    (Instr.wr8 0 1 0).code = 0x1 ∧ (Instr.wr16 0 1 0).code = 0x3 ∧ (Instr.wr32 0 1 0).code = 0x5 :=
  ⟨rfl, ⟨rfl, rfl, rfl⟩, rfl, rfl, rfl⟩
theorem witness_WritingTwice_block : ((okState []).withSource [7, 8, 7, 8]).store.status = .ok ∧
    ((okState []).withSource [7, 8, 7, 8]).allReady ∧
    ((okState []).withSource [7, 8, 7, 8]).env.source = [7, 8] ++ [7, 8] ++ [] ∧ [7, 8].length < 2 ^ 16 :=
  ⟨rfl, ⟨rfl, rfl, rfl⟩, rfl, by decide⟩
theorem witness_WritesNotOk : (uninitFor 8 0).store.status ≠ .ok ∧ (uninitFor 8 0).env.storeReady.admits (2 * 4) = true ∧
    (Instr.wr32 0 1 0, 4) ∈ [(Instr.wr8 0 1 0, 1), (Instr.wr16 0 1 0, 2), (Instr.wr32 0 1 0, 4)] := by decide
theorem witness_WrblkNotOk : (uninitFor 6 0).store.status ≠ .ok ∧ 0 < (3 : Count).toNat ∧
    (3 : Count).toNat ≤ (uninitFor 6 0).env.source.length ∧
    (uninitFor 6 0).env.storeReady.admits (2 * (3 : Count).toNat) = true := by decide
theorem witness_Rdblk : (readyFor 3 3 1).env.storeReady.admits (3 : Count).toNat = true ∧
    (readyFor 3 3 1).env.dstReady.admits (3 : Count).toNat = true ∧ (readyFor 3 3 1).env.rspReady.admits 1 = true := by decide
theorem witness_Wrblk : (readyFor 6 0 1).env.source = [1, 2, 3] ++ [] ∧ [1, 2, 3].length = (3 : Count).toNat ∧
    (readyFor 6 0 1).env.storeReady.admits (2 * (3 : Count).toNat) = true ∧
    (readyFor 6 0 1).env.rspReady.admits 1 = true ∧ (readyFor 6 0 1).store.status = .ok := by decide
theorem witness_ZeroCount : (readyFor 0 0 1).env.rspReady.admits 1 = true := by decide
theorem witness_BlockRoundTrip : (((okState []).withSource [7, 8, 9]).store.status = .ok ∧
    ((okState []).withSource [7, 8, 9]).allReady ∧ ((okState []).withSource [7, 8, 9]).env.source = [7, 8] ++ [9] ∧
    [7, 8].length = (2 : Count).toNat) ∧ (2 : Count).toNat ≤ 4096 := ⟨⟨rfl, ⟨rfl, rfl, rfl⟩, rfl, rfl⟩, by decide⟩
/-- The clause of BlockRoundTrip for repeated offsets: byte 4096 is the last written to the offset of byte 0. -/
theorem witness_BlockRoundTrip_repeats : ((okState []).withSource (List.replicate 4097 7)).env.source =
    List.replicate 4097 7 ++ [] ∧ (List.replicate 4097 (7 : Byte)).length = (4097 : Count).toNat ∧
    offsetAt 0 4096 = offsetAt 0 0 ∧ ∀ j', 4096 < j' → j' < (4097 : Count).toNat → offsetAt 0 j' ≠ offsetAt 0 0 := by
  refine ⟨(List.append_nil _).symm, List.length_replicate, by decide, fun j' h h' => ?_⟩
  have : (4097 : Count).toNat = 4097 := rfl
  omega
theorem witness_LongBlock : (okState []).store.status = .ok ∧ (okState []).allReady ∧ 0 + 4096 < (4097 : Count).toNat :=
  ⟨rfl, ⟨rfl, rfl, rfl⟩, by decide⟩
theorem witness_ReadSpellings : (okState []).allReady ∧
    (Instr.rd32 5 0 0, 4) ∈ [(Instr.rd8 5 0 0, 1), (Instr.rd16 5 0 0, 2), (Instr.rd32 5 0 0, 4)] :=
  ⟨⟨rfl, rfl, rfl⟩, by decide⟩
theorem witness_WriteSpellings : (okState []).allReady ∧
    (Instr.wr16 5 9 0, 2) ∈ [(Instr.wr8 5 9 0, 1), (Instr.wr16 5 9 0, 2), (Instr.wr32 5 9 0, 4)] :=
  ⟨⟨rfl, rfl, rfl⟩, by decide⟩
theorem witness_FirstInit_ok : (envMove (.answerInit .storeOk) (uninitFor 1 1)).initSeen = false ∧
    (envMove (.answerInit .storeOk) (uninitFor 1 1)).env.storeReady.admits 1 = true ∧
    (envMove (.answerInit .storeOk) (uninitFor 1 1)).env.rspReady.admits 1 = true ∧
    (envMove (.answerInit .storeOk) (uninitFor 1 1)).env.initAnswer.bits = Config.storeOk := ⟨rfl, rfl, rfl, rfl⟩
theorem witness_FirstInit_failed :
    (envMove (.answerInit (.other (~~~ Config.storeOk))) (uninitFor 1 1)).initSeen = false ∧
    (envMove (.answerInit (.other (~~~ Config.storeOk))) (uninitFor 1 1)).env.storeReady.admits 1 = true ∧
    (envMove (.answerInit (.other (~~~ Config.storeOk))) (uninitFor 1 1)).env.rspReady.admits 1 = true ∧
    (envMove (.answerInit (.other (~~~ Config.storeOk))) (uninitFor 1 1)).env.initAnswer.bits ≠ Config.storeOk :=
  ⟨rfl, rfl, rfl, not_storeOk_ne⟩
theorem witness_RepeatedInit : (okState []).initSeen = true := rfl
theorem witness_ReservedCodes : 0x9 ≤ (Instr.reserved9 1 2 3).code.toNat ∧ 0x9 ≤ (Instr.reservedF 1 2 3).code.toNat ∧
    (readyFor 0 0 1).env.rspReady.admits 1 = true := by decide
theorem witness_EveryCommand : ((okState []).withSource [1, 2]).allReady ∧
    ∀ (a : Loc) (w : Data) (n : Count), Instr.wrblk 0 0 2 = .wrblk a w n →
      n.toNat ≤ ((okState []).withSource [1, 2]).env.source.length := by
  refine ⟨⟨rfl, rfl, rfl⟩, fun a w n h => ?_⟩
  obtain ⟨rfl, rfl, rfl⟩ := by simpa using h
  decide
theorem witness_StoreReads : (okState []).store.status = .ok ∧ (Instr.wr32 0x101 5 0).code ≠ 0x8 := ⟨rfl, by decide⟩
theorem witness_StepRuns : z1State.env.resetLine = none ∧ z1State.x.ph = .idle ∧
    z1State.env.requests = ⟨0x5, 0x0101, 0xDEADBEEF, 0⟩ :: [] ∧
    decodeTableWord 68 0xFFFFFFFFFFFFFFFFF = some (.reservedF 0xFFFF 0xFFFFFFFF 0xFFFF) := by decide
theorem witness_Sequencer : (uninitFor 3 1).env.resetLine = none := rfl

/-- A WR8 whose store write waits. -/
def waitingState : State :=
  { readyFor 0 0 1 with
    x := { ph := .rmwWr, op := 1, base := 0x10, wdata := 0x5A, n := 1, k := 0, acc := 0, cur := 0x5A, old := 0x1234,
           ok := false }
    inFlight := some .storePort }
theorem witness_StepKeeps : waitingState.Inv ∧ step waitingState = .next waitingState :=
  ⟨⟨by decide, ⟨rfl, by decide⟩, fun _ => .inr rfl, .inr rfl, fun _ => rfl, fun _ => by decide, fun _ => by decide⟩, rfl⟩
theorem witness_DeadRegisters : (okState []).x.ph = .idle ∧ { waitingState.x with ph := .idle }.ph = .idle := by decide
theorem witness_Sequencer_in_flight : (waitingState.answered (.times 1) (.times 0) (.times 0) []).Inv ∧
    (waitingState.answered (.times 1) (.times 0) (.times 0) []).x.ph ≠ .idle ∧
    (waitingState.answered (.times 1) (.times 0) (.times 0) []).env.resetLine = none :=
  ⟨⟨by decide, ⟨rfl, by decide⟩, fun _ => .inr rfl, .inr rfl, fun _ => rfl, fun _ => by decide, fun _ => by decide⟩,
   by decide, rfl⟩
theorem witness_Sequencer_waits : (uninitFor 3 1).env.resetLine = none ∧
    (match exec (.rd32 0x101 0 0) (uninitFor 3 1) with
     | .next t => t.x.ph
     | _ => .idle) ≠ .idle := by decide
theorem witness_RefusedMark : { waitingState with mark := some ⟨.repeatedInit, some 0x8⟩ }.mark = some ⟨.repeatedInit, some 0x8⟩ := rfl
theorem witness_Waits : waitingState.env.resetLine = none ∧ tick waitingState = .waits waitingState := ⟨rfl, rfl⟩
theorem witness_WaitingRequests : waitingState.x.ph ≠ .idle := by decide
theorem witness_Prefix : (readyFor 3 0 0).store.status = .ok ∧ (readyFor 3 0 0).env.storeReady = .times 3 ∧ 3 < 8 ∧
    (readyFor 0 0 0).env.storeReady = .times 0 ∧ (readyFor 7 0 0).env.storeReady = .times 7 := by decide
theorem witness_Prefix_byte_and_word : (readyFor 1 0 0).store.status = .ok ∧ (readyFor 1 0 0).env.storeReady = .times 1 ∧
    (readyFor 3 0 0).env.storeReady = .times 3 ∧ 1 < 2 * 1 ∧ 3 < 2 * 2 := by decide
theorem witness_Prefix_block : (readyFor 5 0 0).env.source = [1, 2, 3] ++ [] ∧ [1, 2, 3].length = (3 : Count).toNat ∧
    (readyFor 5 0 0).env.storeReady = .times 5 ∧ 5 < 2 * (3 : Count).toNat := by decide
theorem witness_BlockWriteWaits : ((okState []).withSource [1, 2]).store.status = .ok ∧
    ((okState []).withSource [1, 2]).env.storeReady = .always ∧
    ((okState []).withSource [1, 2]).env.source.length < (3 : Count).toNat := by decide
theorem witness_ResetAbandons : (envMove (.assertReset .blockReset) (ticks 3 z1State)).env.resetLine = some .blockReset ∧
    (envMove (.assertReset .blockReset) (ticks 3 z1State)).writeInFlight = false := by decide
theorem witness_ResetDuringAStoreWrite :
    (envMove (.assertReset .blockReset) waitingState).env.resetLine = some .blockReset ∧
    (envMove (.assertReset .blockReset) waitingState).x.ph = .rmwWr ∧
    (envMove (.assertReset .blockReset) waitingState).inFlight = some .storePort ∧
    (envMove (.assertReset .blockReset) waitingState).store.status = .ok := by decide
theorem witness_PowerLoss : (envMove (.assertReset .powerLoss) waitingState).env.resetLine = some .powerLoss := rfl
theorem witness_StoreStatus_run : (uninitFor 3 1).store.status = .uninit ∧
    (runActs [.env (.present ⟨0, 0, 0, 0⟩), .controller, .controller, .env (.assertReset .blockReset), .controller]
      (uninitFor 3 1)).history = (uninitFor 3 1).history ++
        [.request ⟨0, 0, 0, 0⟩, .storeRead 0 (Config.draw 0)] := ⟨rfl, rfl⟩
theorem witness_PowerLossIsNeverDropped : waitingState.env.resetLine = none := rfl
theorem witness_Idle : (okState []).x.ph = .idle ∧ (okState []).env.requests = [] ∧ (okState []).env.resetLine = none := by
  decide
theorem witness_ForeignWrite : (envMove (.completeStore (.times 1)) waitingState).store.status = .ok ∧
    (envMove (.completeStore (.times 1)) waitingState).x.ph = .rmwWr ∧
    (envMove (.completeStore (.times 1)) waitingState).env.resetLine = none ∧
    (envMove (.completeStore (.times 1)) waitingState).env.storeReady.admits 1 = true := by decide
theorem witness_HighWriteData : (0xFFFFFF77 : Data).extractLsb' 0 8 = (0x77 : Data).extractLsb' 0 8 ∧
    (0x9999BEEF : Data).extractLsb' 0 16 = (0xBEEF : Data).extractLsb' 0 16 := by decide

end Sys2Proof.Tests
end

section
/-! The event history under every act (00_scope.md R14, 20_memory.md R67): a transfer appends its event, a wait, a reset and a
move of another agent append nothing. `s.history <+: t.history` says that `t` is reached without taking an event back. -/

namespace Sys2Proof.Machine

open Sys2Proof

/-! ### The stages -/

@[simp] theorem Progress.enter_state_history (p : Progress) (next : State → Phase) :
    (p.enter next).state.history = p.state.history := by
  cases p <;> rfl

theorem initStage_history_grows (s : State) : s.history <+: (initStage s).state.history := by
  cases h : s.env.storeReady.take with
  | none => simp [initStage_waits h]
  | some r => simp [initStage_went h]

@[simp] theorem fetchData_history (s : State) : (fetchData s).state.history = s.history := rfl

theorem fetchSource_history_grows (s : State) : s.history <+: (fetchSource s).state.history := by
  cases h : s.env.source with
  | nil => simp [fetchSource_waits h]
  | cons b rest => simp [fetchSource_went h]

theorem rmwRead_history_grows (s : State) : s.history <+: (rmwRead s).state.history := by
  cases h : s.env.storeReady.take with
  | none => simp [rmwRead_waits h]
  | some r => simp [rmwRead_went h]

theorem rmwWrite_history_grows (s : State) : s.history <+: (rmwWrite s).state.history := by
  cases h : s.env.storeReady.take with
  | none => simp [rmwWrite_waits h]
  | some r => simp [rmwWrite_went h]

theorem readStage_history_grows (s : State) : s.history <+: (readStage s).state.history := by
  cases h : s.env.storeReady.take with
  | none => simp [readStage_waits h]
  | some r => simp [readStage_went h]

@[simp] theorem assembleByte_history (s : State) : (assembleByte s).state.history = s.history := rfl

theorem readDataByte_history_grows (s : State) : s.history <+: (readDataByte s).state.history :=
  Progress.andThen_keeps (P := fun t => s.history <+: t.history) (readStage_history_grows s)
    fun t ht => by rwa [assembleByte_history]

theorem deliverByte_history_grows (s : State) : s.history <+: (deliverByte s).state.history := by
  cases h : s.env.dstReady.take with
  | none => simp [deliverByte_waits h]
  | some r => simp [deliverByte_went h]

theorem respond_history_grows (rdata : Data) (initOk : Bool) (s : State) :
    s.history <+: (respond rdata initOk s).state.history := by
  cases h : s.env.rspReady.take with
  | none => simp [respond_waits h]
  | some r => simp [respond_went h]

/-! ### Acceptance and the phases -/

@[simp] theorem markOnAccept_history (cmd : CmdCode) (s : State) : (markOnAccept cmd s).history = s.history := by
  unfold markOnAccept
  split
  · exact raiseRefuse_history ..
  · split
    · exact noteInit_history ..
    · rfl

@[simp] theorem latchRequest_history (r : Request) (s : State) : (latchRequest r s).history = s.history := by
  simp [latchRequest]

theorem acceptStage_history_grows (s : State) : s.history <+: (acceptStage s).state.history := by
  unfold acceptStage
  split
  · exact List.prefix_rfl
  · simp

theorem fetchPhase_history_grows (s : State) : s.history <+: (fetchPhase s).state.history := by
  rw [fetchPhase, Progress.enter_state_history]
  split
  · exact fetchSource_history_grows s
  · rw [fetchData_history]

theorem readPhase_history_grows (s : State) : s.history <+: (readPhase s).state.history := by
  unfold readPhase
  split
  · rw [Progress.enter_state_history]
    exact readStage_history_grows s
  · rw [Progress.enter_state_history]
    exact readDataByte_history_grows s

/-! ### Controller steps, moves and acts -/

/-- A Controller step keeps every event: a reset and a wait add none, each row of the phase table (10_state.md R24) appends
those of its transfer. -/
theorem tick_history_grows (s : State) : s.history <+: (tick s).state.history := by
  cases hr : s.env.resetLine with
  | some c => simp [tick_reset hr]
  | none =>
    cases hp : s.x.ph with
    | idle => simpa [tick_idle hr hp] using acceptStage_history_grows s
    | init => simpa [tick_init hr hp] using initStage_history_grows s
    | fetch => simpa [tick_fetch hr hp] using fetchPhase_history_grows s
    | rmwRd => simpa [tick_rmwRd hr hp] using rmwRead_history_grows s
    | rmwWr => simpa [tick_rmwWr hr hp] using rmwWrite_history_grows s
    | rd => simpa [tick_rd hr hp] using readPhase_history_grows s
    | dst => simpa [tick_dst hr hp] using deliverByte_history_grows s
    | resp => simpa [tick_resp hr hp] using respond_history_grows _ _ s

@[simp] theorem foreignWrite_history (i : WordIndex) (w : CellWord) (s : State) :
    (foreignWrite i w s).history = s.history := raiseRefuse_history ..

/-- The moves of the other agents are no events of the block's history. -/
@[simp] theorem envMove_history (m : EnvMove) (s : State) : (envMove m s).history = s.history := by
  cases m with
  | foreignWrite i w => exact foreignWrite_history i w s
  | _ => rfl

theorem act_history_grows (a : Act) (s : State) : s.history <+: (act a s).history := by
  cases a with
  | controller => exact tick_history_grows s
  | env m => simp [act]

theorem runActs_history_grows (acts : List Act) (s : State) : s.history <+: (runActs acts s).history :=
  runActs_keeps (P := fun t => s.history <+: t.history) (fun a t ht => ht.trans (act_history_grows a t)) acts s
    List.prefix_rfl

/-- Settles O48: every act extends the history, so a run does. -/
theorem historyOnlyGrows : Obligations.HistoryOnlyGrows := by
  intro acts s
  obtain ⟨es, hes⟩ := runActs_history_grows acts s
  exact ⟨es, hes.symm⟩

end Sys2Proof.Machine
end

section
/-! One rule for all commands. `exec` has an arm per command; as states, they are one: acceptance with its mark, the bytes of
the command (or the store init), and the response (30_encoding.md R84, R85). -/

namespace Sys2Proof.Machine

open Sys2Proof

/-- One byte of a data command, by the fields of its code (30_encoding.md R81). -/
def byteRule (cmd : CmdCode) : State → Progress :=
  if isBlock cmd then (if isWrite cmd then writeBlockByte else readBlockByte)
  else if isWrite cmd then writeDataByte else readDataByte

/-- What a command does between acceptance and response; a reserved code has a count of 0 and does nothing. -/
def commandBody (cmd : CmdCode) (n : Count) : State → Progress :=
  if isInit cmd then initStage else repeatBytes n.toNat (byteRule cmd)

/-- The response of a command (30_encoding.md R85). -/
def respondFor (cmd : CmdCode) (s : State) : Progress := respond (rdataOf cmd s.x.acc) (initOkOf cmd s.x.ok) s

/-- A request accepted: latched and marked. -/
def admitted (cmd : CmdCode) (addr : Loc) (wdata : Data) (count : Count) (s : State) : State :=
  markOnAccept cmd (accept cmd addr wdata count s)

/-- A whole command, from its acceptance on. -/
def commandRule (cmd : CmdCode) (addr : Loc) (wdata : Data) (count : Count) (s : State) : Progress :=
  (commandBody cmd (byteCount cmd count) (admitted cmd addr wdata count s)).andThen (respondFor cmd)

theorem latchRequest_eq (r : Request) (s : State) :
    latchRequest r s = (admitted r.cmd r.addr r.wdata r.count s).enter (firstPhase r.cmd (byteCount r.cmd r.count)) := rfl

/-! What acceptance marks, by the kind of the code (60_exceptions.md R161). -/

theorem isInit_iff (cmd : CmdCode) : isInit cmd = true ↔ cmd = 0x8 := by simp [isInit]

theorem isSystem_of_isInit {cmd : CmdCode} (h : isInit cmd = true) : isSystem cmd = true := by
  rw [(isInit_iff cmd).mp h]; rfl

theorem admitted_data {cmd : CmdCode} (h : isSystem cmd = false) (addr : Loc) (wdata : Data) (count : Count) (s : State) :
    admitted cmd addr wdata count s = accept cmd addr wdata count s := by
  have hi : isInit cmd = false := by
    rw [← Bool.not_eq_true]
    intro hi
    simp [isSystem_of_isInit hi] at h
  simp [admitted, markOnAccept, isReserved, h, hi]

theorem admitted_init (addr : Loc) (wdata : Data) (count : Count) (s : State) :
    admitted 0x8 addr wdata count s = noteInit 0x8 (accept 0x8 addr wdata count s) := by
  simp [admitted, markOnAccept, isReserved, isInit]

theorem admitted_reserved {cmd : CmdCode} (h : isReserved cmd = true) (addr : Loc) (wdata : Data) (count : Count)
    (s : State) :
    admitted cmd addr wdata count s = raiseRefuse .reservedCommand (some cmd) (accept cmd addr wdata count s) := by
  simp [admitted, h, markOnAccept]

/-- Every arm of `exec` is the one rule at the command's code. -/
theorem exec_eq_commandRule (i : Instr) (s : State) :
    exec i s = .next
      (commandRule i.code (encodeRequest i).addr (encodeRequest i).wdata (encodeRequest i).count s).state := by
  cases i <;> simp only [encodeRequest, Instr.code, commandRule]
  case init => rw [admitted_init]; rfl
  case rd8 | wr8 | rd16 | wr16 | rd32 | wr32 | rdblk | wrblk => rw [admitted_data rfl]; rfl
  all_goals rw [admitted_reserved rfl]; rfl

/-- A request is the encoding of the command it decodes to, so it has its code and its fields. -/
theorem encodeRequest_decodeRequest (r : Request) : encodeRequest (decodeRequest r) = r := by
  obtain ⟨⟨⟨v, hv⟩⟩, addr, wdata, count⟩ := r
  interval_cases v <;> rfl

theorem encodeRequest_cmd (i : Instr) : (encodeRequest i).cmd = i.code := by cases i <;> rfl

theorem exec_decodeRequest (r : Request) (s : State) :
    exec (decodeRequest r) s = .next (commandRule r.cmd r.addr r.wdata r.count s).state := by
  rw [exec_eq_commandRule, ← encodeRequest_cmd, encodeRequest_decodeRequest]

end Sys2Proof.Machine
end

section
/-! What the stages leave unchanged, and what they do not look at: the command in flight, the store's status but for INIT, the
phase they are entered from, the reset input, and the part of `x[base]` above the offset (20_memory.md R54). -/

namespace Sys2Proof.Machine

open Sys2Proof

/-! ### The command in flight -/

/-- The command in flight is the same: the registers that acceptance alone writes (10_state.md R24), the reset input, the
refused mark and the note of an INIT. -/
structure SameCommand (s t : State) : Prop where
  op : t.x.op = s.x.op
  base : t.x.base = s.x.base
  wdata : t.x.wdata = s.x.wdata
  n : t.x.n = s.x.n
  resetLine : t.env.resetLine = s.env.resetLine
  mark : t.mark = s.mark
  initSeen : t.initSeen = s.initSeen

theorem SameCommand.refl (s : State) : SameCommand s s := ⟨rfl, rfl, rfl, rfl, rfl, rfl, rfl⟩

theorem SameCommand.trans {s t u : State} (h : SameCommand s t) (h' : SameCommand t u) : SameCommand s u :=
  ⟨h'.op.trans h.op, h'.base.trans h.base, h'.wdata.trans h.wdata, h'.n.trans h.n, h'.resetLine.trans h.resetLine,
    h'.mark.trans h.mark, h'.initSeen.trans h.initSeen⟩

theorem SameCommand.andThen {s : State} {p : Progress} {f : State → Progress} (hp : SameCommand s p.state)
    (hf : ∀ t, SameCommand t (f t).state) : SameCommand s (p.andThen f).state :=
  Progress.andThen_keeps (P := SameCommand s) hp fun t ht => ht.trans (hf t)

theorem SameCommand.enter {s : State} {p : Progress} (hp : SameCommand s p.state) (next : State → Phase) :
    SameCommand s (p.enter next).state :=
  hp.andThen fun _ => ⟨rfl, rfl, rfl, rfl, rfl, rfl, rfl⟩

section Stages
variable (s : State)

theorem initStage_sameCommand : SameCommand s (initStage s).state := by
  cases h : s.env.storeReady.take with
  | none => rw [initStage_waits h]; constructor <;> rfl
  | some r => rw [initStage_went h]; constructor <;> rfl

theorem fetchData_sameCommand : SameCommand s (fetchData s).state := ⟨rfl, rfl, rfl, rfl, rfl, rfl, rfl⟩

theorem fetchSource_sameCommand : SameCommand s (fetchSource s).state := by
  cases h : s.env.source with
  | nil => rw [fetchSource_waits h]; constructor <;> rfl
  | cons b rest => rw [fetchSource_went h]; constructor <;> rfl

theorem rmwRead_sameCommand : SameCommand s (rmwRead s).state := by
  cases h : s.env.storeReady.take with
  | none => rw [rmwRead_waits h]; constructor <;> rfl
  | some r => rw [rmwRead_went h]; constructor <;> rfl

theorem rmwWrite_sameCommand : SameCommand s (rmwWrite s).state := by
  cases h : s.env.storeReady.take with
  | none => rw [rmwWrite_waits h]; constructor <;> rfl
  | some r => rw [rmwWrite_went h]; constructor <;> rfl

theorem readStage_sameCommand : SameCommand s (readStage s).state := by
  cases h : s.env.storeReady.take with
  | none => rw [readStage_waits h]; constructor <;> rfl
  | some r => rw [readStage_went h]; constructor <;> rfl

theorem assembleByte_sameCommand : SameCommand s (assembleByte s).state := ⟨rfl, rfl, rfl, rfl, rfl, rfl, rfl⟩

theorem deliverByte_sameCommand : SameCommand s (deliverByte s).state := by
  cases h : s.env.dstReady.take with
  | none => rw [deliverByte_waits h]; constructor <;> rfl
  | some r => rw [deliverByte_went h]; constructor <;> rfl

theorem respond_sameCommand (d : Data) (ok : Bool) : SameCommand s (respond d ok s).state := by
  cases h : s.env.rspReady.take with
  | none => rw [respond_waits h]; constructor <;> rfl
  | some r => rw [respond_went h]; constructor <;> rfl

end Stages

theorem byteRule_sameCommand (cmd : CmdCode) (s : State) : SameCommand s (byteRule cmd s).state := by
  have read := readStage_sameCommand s
  have write {t : State} {p : Progress} (h : SameCommand t p.state) :
      SameCommand t ((p.andThen rmwRead).andThen rmwWrite).state :=
    (h.andThen rmwRead_sameCommand).andThen rmwWrite_sameCommand
  unfold byteRule
  split
  · split
    · exact write (fetchSource_sameCommand s)
    · exact read.andThen deliverByte_sameCommand
  · split
    · exact write (fetchData_sameCommand s)
    · exact read.andThen assembleByte_sameCommand

theorem commandBody_sameCommand (cmd : CmdCode) (n : Count) (s : State) : SameCommand s (commandBody cmd n s).state := by
  unfold commandBody
  split
  · exact initStage_sameCommand s
  · exact repeatBytes_keeps (P := SameCommand s) (fun t ht => ht.trans (byteRule_sameCommand cmd t)) _ s (.refl s)

/-! ### The store: only the write of a byte changes its bytes, only the store init its status -/

section Store
variable (s : State)

@[simp] theorem fetchData_store : (fetchData s).state.store = s.store := rfl
@[simp] theorem assembleByte_store : (assembleByte s).state.store = s.store := rfl

@[simp] theorem fetchSource_store : (fetchSource s).state.store = s.store := by
  cases h : s.env.source with
  | nil => rw [fetchSource_waits h]; rfl
  | cons b rest => rw [fetchSource_went h]; rfl

@[simp] theorem rmwRead_store : (rmwRead s).state.store = s.store := by
  cases h : s.env.storeReady.take with
  | none => rw [rmwRead_waits h]; rfl
  | some r => rw [rmwRead_went h]; rfl

@[simp] theorem rmwWrite_status : (rmwWrite s).state.store.status = s.store.status := by
  cases h : s.env.storeReady.take with
  | none => rw [rmwWrite_waits h]; rfl
  | some r => rw [rmwWrite_went h]; rfl

theorem rmwWrite_mem_wf (hs : s.store.mem.wf = true) : (rmwWrite s).state.store.mem.wf = true := by
  cases h : s.env.storeReady.take with
  | none => rw [rmwWrite_waits h]; exact hs
  | some r => rw [rmwWrite_went h]; exact State.memAfterWrite_wf s _ _ hs

@[simp] theorem readStage_store : (readStage s).state.store = s.store := by
  cases h : s.env.storeReady.take with
  | none => rw [readStage_waits h]; rfl
  | some r => rw [readStage_went h]; rfl

@[simp] theorem deliverByte_store : (deliverByte s).state.store = s.store := by
  cases h : s.env.dstReady.take with
  | none => rw [deliverByte_waits h]; rfl
  | some r => rw [deliverByte_went h]; rfl

@[simp] theorem respond_store (d : Data) (ok : Bool) : (respond d ok s).state.store = s.store := by
  cases h : s.env.rspReady.take with
  | none => rw [respond_waits h]; rfl
  | some r => rw [respond_went h]; rfl

@[simp] theorem initStage_mem : (initStage s).state.store.mem = s.store.mem := by
  cases h : s.env.storeReady.take with
  | none => rw [initStage_waits h]; rfl
  | some r => rw [initStage_went h]; rfl

end Store

@[simp] theorem Progress.enter_store (p : Progress) (next : State → Phase) :
    (p.enter next).state.store = p.state.store := by
  cases p <;> rfl

@[simp] theorem readDataByte_store (s : State) : (readDataByte s).state.store = s.store :=
  Progress.andThen_keeps (P := fun t => t.store = s.store) (readStage_store s) fun t ht => by rwa [assembleByte_store]

@[simp] theorem readBlockByte_store (s : State) : (readBlockByte s).state.store = s.store :=
  Progress.andThen_keeps (P := fun t => t.store = s.store) (readStage_store s) fun t ht => by rwa [deliverByte_store]

theorem byteRule_status (cmd : CmdCode) (s : State) : (byteRule cmd s).state.store.status = s.store.status := by
  have write {p : Progress} (h : p.state.store = s.store) :
      ((p.andThen rmwRead).andThen rmwWrite).state.store.status = s.store.status :=
    Progress.andThen_keeps (P := fun t => t.store.status = s.store.status)
      (Progress.andThen_keeps (P := fun t => t.store.status = s.store.status) (by rw [h])
        fun t ht => by rwa [rmwRead_store])
      fun t ht => by rwa [rmwWrite_status]
  unfold byteRule
  split
  · split
    · exact write (fetchSource_store s)
    · rw [readBlockByte_store]
  · split
    · exact write (fetchData_store s)
    · rw [readDataByte_store]

@[simp] theorem admitted_x (cmd : CmdCode) (addr : Loc) (wdata : Data) (count : Count) (s : State) :
    (admitted cmd addr wdata count s).x =
      { s.x with op := cmd, base := addr, wdata := wdata, n := byteCount cmd count, k := 0, acc := 0, ok := false } := by
  unfold admitted markOnAccept
  split
  · simp
  · split <;> simp

@[simp] theorem admitted_inFlight (cmd : CmdCode) (addr : Loc) (wdata : Data) (count : Count) (s : State) :
    (admitted cmd addr wdata count s).inFlight = none := by
  unfold admitted markOnAccept
  split
  · simp
  · split <;> simp

@[simp] theorem admitted_env (cmd : CmdCode) (addr : Loc) (wdata : Data) (count : Count) (s : State) :
    (admitted cmd addr wdata count s).env = s.env := by
  unfold admitted markOnAccept
  split
  · simp
  · split <;> simp

@[simp] theorem admitted_store (cmd : CmdCode) (addr : Loc) (wdata : Data) (count : Count) (s : State) :
    (admitted cmd addr wdata count s).store = s.store := by
  unfold admitted markOnAccept
  split
  · simp
  · split <;> simp

/-- No command but INIT changes the store's status. -/
theorem commandRule_status {cmd : CmdCode} (h : cmd ≠ 0x8) (addr : Loc) (wdata : Data) (count : Count) (s : State) :
    (commandRule cmd addr wdata count s).state.store.status = s.store.status := by
  have hi : isInit cmd = false := by rw [← Bool.not_eq_true, isInit_iff]; exact h
  have hbody : (commandBody cmd (byteCount cmd count) (admitted cmd addr wdata count s)).state.store.status =
      s.store.status := by
    unfold commandBody
    rw [hi]
    exact repeatBytes_keeps (P := fun t => t.store.status = s.store.status)
      (fun t ht => by rwa [byteRule_status]) _ _ (by rw [admitted_store])
  exact Progress.andThen_keeps (P := fun t => t.store.status = s.store.status) hbody
    fun t ht => by rwa [respondFor, respond_store]

/-! ### The phase a stage is entered from -/

section Phase
variable (s : State) (ph : Phase)

@[simp] theorem rmwRead_enter : rmwRead (s.enter ph) = rmwRead s := rfl
@[simp] theorem rmwWrite_enter : rmwWrite (s.enter ph) = rmwWrite s := rfl
@[simp] theorem deliverByte_enter : deliverByte (s.enter ph) = deliverByte s := rfl
@[simp] theorem respondFor_enter (cmd : CmdCode) : respondFor cmd (s.enter ph) = respondFor cmd s := rfl

@[simp] theorem byteRule_enter (cmd : CmdCode) : byteRule cmd (s.enter ph) = byteRule cmd s := by
  unfold byteRule
  split
  · split <;> rfl
  · split <;> rfl

/-- A whole command does not see the phase it is entered from. -/
theorem commandBody_respondFor_enter (cmd : CmdCode) (n : Count) :
    (commandBody cmd n (s.enter ph)).andThen (respondFor cmd) = (commandBody cmd n s).andThen (respondFor cmd) := by
  unfold commandBody
  split
  · rfl
  · cases n.toNat with
    | zero => simp
    | succ m => simp

end Phase

/-! ### The reset input and the presented address above the offset -/

theorem byteOffset_toNat (loc : Loc) (k : Count) : (byteOffset loc k).toNat = (loc.toNat + k.toNat) % 4096 := by
  have hl := loc.isLt
  have hk := k.isLt
  simp only [byteOffset, BitVec.extractLsb'_toNat, BitVec.toNat_add, BitVec.toNat_setWidth]
  omega

/-- A multiple of 4096 added to the presented address leaves every byte's offset (10_state.md R28, 20_memory.md R54). -/
@[simp] theorem byteOffset_alias (loc : Loc) (j : Nat) (k : Count) :
    byteOffset (loc + BitVec.ofNat 16 (4096 * j)) k = byteOffset loc k := by
  apply BitVec.eq_of_toNat_eq
  simp only [byteOffset_toNat, BitVec.toNat_add, BitVec.toNat_ofNat]
  omega

/-- The same progress, to the state `f` makes of the one reached. -/
def Progress.map (f : State → State) : Progress → Progress
  | .went s => .went (f s)
  | .waits s => .waits (f s)

@[simp] theorem Progress.map_state (p : Progress) (f : State → State) : (p.map f).state = f p.state := by
  cases p <;> rfl

/-- The stage `g` does not see the change `f` of the state. -/
def Blind (f : State → State) (g : State → Progress) : Prop := ∀ s, g (f s) = (g s).map f

theorem Progress.map_andThen {f : State → State} {g : State → Progress} (h : Blind f g) (p : Progress) :
    (p.map f).andThen g = (p.andThen g).map f := by
  cases p with
  | went s => exact h s
  | waits s => rfl

theorem Blind.andThen {f : State → State} {g g' : State → Progress} (h : Blind f g) (h' : Blind f g') :
    Blind f fun s => (g s).andThen g' := by
  intro s
  simp only [h s, Progress.map_andThen h']

theorem Blind.repeatBytes {f : State → State} {g : State → Progress} (h : Blind f g) (n : Nat) :
    Blind f (repeatBytes n g) := by
  induction n with
  | zero => exact fun s => rfl
  | succ n ih => exact h.andThen ih

/-- The state with the presented address moved by a multiple of 4096 and another reset input: what no stage sees. -/
def State.aliased (j : Nat) (line : Option ResetCause) (s : State) : State :=
  { s with x := { s.x with base := s.x.base + BitVec.ofNat 16 (4096 * j) }, env := { s.env with resetLine := line } }

section Aliased
variable (j : Nat) (line : Option ResetCause)

@[simp] theorem currentOffset_aliased (s : State) : (s.aliased j line).currentOffset = s.currentOffset :=
  byteOffset_alias s.x.base j s.x.k

theorem initStage_blind : Blind (State.aliased j line) initStage := by
  intro s
  cases h : s.env.storeReady.take with
  | none => rw [initStage_waits h, initStage_waits (s := s.aliased j line) h]; rfl
  | some r => rw [initStage_went h, initStage_went (s := s.aliased j line) h]; rfl

theorem fetchData_blind : Blind (State.aliased j line) fetchData := fun _ => rfl

theorem fetchSource_blind : Blind (State.aliased j line) fetchSource := by
  intro s
  cases h : s.env.source with
  | nil => rw [fetchSource_waits h, fetchSource_waits (s := s.aliased j line) h]; rfl
  | cons b rest => rw [fetchSource_went h, fetchSource_went (s := s.aliased j line) h]; rfl

theorem rmwRead_blind : Blind (State.aliased j line) rmwRead := by
  intro s
  cases h : s.env.storeReady.take with
  | none => rw [rmwRead_waits h, rmwRead_waits (s := s.aliased j line) h]; rfl
  | some r => rw [rmwRead_went h, rmwRead_went (s := s.aliased j line) h, currentOffset_aliased]; rfl

theorem rmwWrite_blind : Blind (State.aliased j line) rmwWrite := by
  intro s
  cases h : s.env.storeReady.take with
  | none => rw [rmwWrite_waits h, rmwWrite_waits (s := s.aliased j line) h]; rfl
  | some r => rw [rmwWrite_went h, rmwWrite_went (s := s.aliased j line) h, currentOffset_aliased]; rfl

theorem readStage_blind : Blind (State.aliased j line) readStage := by
  intro s
  cases h : s.env.storeReady.take with
  | none => rw [readStage_waits h, readStage_waits (s := s.aliased j line) h]; rfl
  | some r => rw [readStage_went h, readStage_went (s := s.aliased j line) h, currentOffset_aliased]; rfl

theorem assembleByte_blind : Blind (State.aliased j line) assembleByte := fun _ => rfl

theorem deliverByte_blind : Blind (State.aliased j line) deliverByte := by
  intro s
  cases h : s.env.dstReady.take with
  | none => rw [deliverByte_waits h, deliverByte_waits (s := s.aliased j line) h]; rfl
  | some r => rw [deliverByte_went h, deliverByte_went (s := s.aliased j line) h]; rfl

theorem respondFor_blind (cmd : CmdCode) : Blind (State.aliased j line) (respondFor cmd) := by
  intro s
  unfold respondFor
  cases h : s.env.rspReady.take with
  | none => rw [respond_waits h, respond_waits (s := s.aliased j line) h]; rfl
  | some r => rw [respond_went h, respond_went (s := s.aliased j line) h]; rfl

theorem byteRule_blind (cmd : CmdCode) : Blind (State.aliased j line) (byteRule cmd) := by
  have read := readStage_blind j line
  have write {g : State → Progress} (h : Blind (State.aliased j line) g) :
      Blind (State.aliased j line) fun s => ((g s).andThen rmwRead).andThen rmwWrite :=
    (h.andThen (rmwRead_blind j line)).andThen (rmwWrite_blind j line)
  unfold byteRule
  split
  · split
    · exact write (fetchSource_blind j line)
    · exact read.andThen (deliverByte_blind j line)
  · split
    · exact write (fetchData_blind j line)
    · exact read.andThen (assembleByte_blind j line)

theorem commandBody_blind (cmd : CmdCode) (n : Count) : Blind (State.aliased j line) (commandBody cmd n) := by
  unfold commandBody
  split
  · exact initStage_blind j line
  · exact (byteRule_blind j line cmd).repeatBytes _

theorem admitted_aliased (cmd : CmdCode) (addr : Loc) (wdata : Data) (count : Count) (s : State) :
    admitted cmd (addr + BitVec.ofNat 16 (4096 * j)) wdata count { s with env := { s.env with resetLine := line } } =
      (admitted cmd addr wdata count s).aliased j line := by
  unfold admitted markOnAccept
  split
  · simp only [raiseRefuse_eq]; rfl
  · split
    · simp only [noteInit_eq]; rfl
    · rfl

/-- A command at another of the sixteen addresses of its offset, whatever the reset input, is the same command but for
`x[base]`. -/
theorem commandRule_aliased (cmd : CmdCode) (addr : Loc) (wdata : Data) (count : Count) (s : State) :
    commandRule cmd (addr + BitVec.ofNat 16 (4096 * j)) wdata count { s with env := { s.env with resetLine := line } } =
      (commandRule cmd addr wdata count s).map (State.aliased j line) := by
  unfold commandRule
  rw [admitted_aliased, commandBody_blind, Progress.map_andThen (respondFor_blind j line cmd)]

end Aliased

/-- Between acceptance and response the command stays the one accepted. -/
theorem commandRule_sameCommand (cmd : CmdCode) (addr : Loc) (wdata : Data) (count : Count) (s : State) :
    SameCommand (admitted cmd addr wdata count s) (commandRule cmd addr wdata count s).state :=
  (commandBody_sameCommand _ _ _).andThen fun t => respond_sameCommand t _ _

/-- Settles O9: no stage sees the address above the offset, and acceptance latches it into `x[base]` alone. -/
theorem aliasesReachTheSameByte : Obligations.AliasesReachTheSameByte := by
  refine ⟨fun loc j k => byteOffset_alias loc j k, fun r j s =>
    ⟨_, _, exec_decodeRequest r s, exec_decodeRequest _ s, ?_⟩⟩
  have hcmd := commandRule_sameCommand r.cmd r.addr r.wdata r.count s
  have hbase := hcmd.base.trans (by rw [admitted_x])
  have hline := hcmd.resetLine.trans (by rw [admitted_env])
  have halias := commandRule_aliased j s.env.resetLine r.cmd r.addr r.wdata r.count s
  rw [show commandRule _ _ _ _ s = _ from halias, Progress.map_state, State.aliased, hbase, ← hline]

end Sys2Proof.Machine
end

section
/-! One Controller step: what it does to the registers, to the store and to the invariant. -/

namespace Sys2Proof.Machine

open Sys2Proof

/-! ### The store's status (10_state.md R32, 40_init.md R102) -/

theorem Readiness.take_eq_some {r : Readiness} : (∃ r', r.take = some r') ↔ r.admits 1 = true := by
  cases r with
  | always => simp [Readiness.take, Readiness.admits]
  | times n => cases n <;> simp [Readiness.take, Readiness.admits]

theorem StatusCode.toStatus_eq (c : StatusCode) : c.toStatus = if c.bits = Config.storeOk then .ok else .failed := by
  cases c with
  | storeOk => simp [StatusCode.toStatus, StatusCode.isOk, StatusCode.bits]
  | other b => by_cases h : b = Config.storeOk <;> simp [StatusCode.toStatus, StatusCode.isOk, StatusCode.bits, h]

theorem initStage_status (s : State) :
    (initStage s).state.store.status =
      if s.env.storeReady.admits 1 = true then s.env.initAnswer.toStatus else s.store.status := by
  cases h : s.env.storeReady.take with
  | none =>
    have hadmits : s.env.storeReady.admits 1 = false := by
      rw [← Bool.not_eq_true, ← Readiness.take_eq_some]
      simp [h]
    rw [initStage_waits h, hadmits]
    rfl
  | some r => rw [initStage_went h, if_pos (Readiness.take_eq_some.mp ⟨r, h⟩)]; rfl

@[simp] theorem fetchPhase_store (s : State) : (fetchPhase s).state.store = s.store := by
  unfold fetchPhase
  split <;> simp

@[simp] theorem readPhase_store (s : State) : (readPhase s).state.store = s.store := by
  unfold readPhase
  split
  · simp
  · rw [Progress.enter_store]
    exact readDataByte_store s

@[simp] theorem acceptStage_store (s : State) : (acceptStage s).state.store = s.store := by
  unfold acceptStage
  split
  · rfl
  · rw [Progress.went_state, latchRequest_eq, State.enter_store, admitted_store, takeRequest_store]

/-- With no reset asserted, a Controller step changes the store's status only where a store init completes. -/
theorem tick_status {s : State} (h : s.env.resetLine = none) :
    (tick s).state.store.status =
      if s.x.ph = .init ∧ s.env.storeReady.admits 1 = true then s.env.initAnswer.toStatus else s.store.status := by
  cases hp : s.x.ph with
  | idle => simp [tick_idle h hp]
  | init => simp [tick_init h hp, initStage_status]
  | fetch => simp [tick_fetch h hp]
  | rmwRd => simp [tick_rmwRd h hp]
  | rmwWr => simp [tick_rmwWr h hp]
  | rd => simp [tick_rd h hp]
  | dst => simp [tick_dst h hp]
  | resp => simp [tick_resp h hp]

@[simp] theorem envMove_status (m : EnvMove) (s : State) : (envMove m s).store.status = s.store.status := by
  cases m with
  | foreignWrite i w => simp [envMove, foreignWrite]
  | _ => rfl

/-- A store init that completes is an event of the history. -/
theorem tick_init_history {s : State} (h : s.env.resetLine = none) (hp : s.x.ph = .init)
    (hready : s.env.storeReady.admits 1 = true) :
    (tick s).state.history =
      s.history ++ (.storeInit s.env.initAnswer :: diagUnlessOk s.env.initAnswer.isOk) := by
  obtain ⟨r, hr⟩ := Readiness.take_eq_some.mpr hready
  simp [tick_init h hp, initStage_went hr]

/-- An act leaves an UNINIT store UNINIT unless it makes a store init. -/
theorem act_keeps_uninit {a : Act} {s : State} {es : List Event} (hs : s.store.status = .uninit)
    (hes : (act a s).history = s.history ++ es) (hno : ∀ c, Event.storeInit c ∉ es) :
    (act a s).store.status = .uninit := by
  cases a with
  | env m => rw [act, envMove_status, hs]
  | controller =>
    rw [act] at hes ⊢
    cases hr : s.env.resetLine with
    | some c => cases c <;> simp [tick_reset hr, hs]
    | none =>
      rw [tick_status hr]
      split
      · rename_i hinit
        obtain ⟨hp, hready⟩ := hinit
        rw [tick_init_history hr hp hready, List.append_cancel_left_eq] at hes
        exact absurd (hes ▸ List.mem_cons_self) (hno s.env.initAnswer)
      · exact hs

theorem runActs_keeps_uninit (acts : List Act) {s : State} {es : List Event} (hs : s.store.status = .uninit)
    (hes : (runActs acts s).history = s.history ++ es) (hno : ∀ c, Event.storeInit c ∉ es) :
    (runActs acts s).store.status = .uninit := by
  induction acts generalizing s es with
  | nil => exact hs
  | cons a acts ih =>
    obtain ⟨es₁, h₁⟩ := act_history_grows a s
    obtain ⟨es₂, h₂⟩ := runActs_history_grows acts (act a s)
    rw [runActs, ← h₂, ← h₁, List.append_assoc, List.append_cancel_left_eq] at hes
    subst hes
    refine ih (act_keeps_uninit hs h₁.symm fun c hc => hno c ?_) h₂.symm fun c hc => hno c ?_
    · exact List.mem_append_left _ hc
    · exact List.mem_append_right _ hc

/-- Settles O57: the only stage that sets the status is the store init, the only reset that does is power loss. -/
theorem onlyInitAndPowerLossChangeTheStoreStatus : Obligations.OnlyInitAndPowerLossChangeTheStoreStatus := by
  refine ⟨fun s => ?_, envMove_status, fun i s t hi ht => ?_, fun acts s es => runActs_keeps_uninit acts⟩
  · cases hr : s.env.resetLine with
    | some c => cases c <;> simp [tick_reset hr]
    | none => simp only [tick_status hr, StatusCode.toStatus_eq]
  · rw [exec_eq_commandRule] at ht
    cases ht
    exact commandRule_status hi ..

/-! ### The bytes of the store -/

theorem tick_mem_wf (s : State) (h : s.store.mem.wf = true) : (tick s).state.store.mem.wf = true := by
  cases hr : s.env.resetLine with
  | some c => simpa [tick_reset hr] using State.memAfterReset_wf s h
  | none =>
    cases hp : s.x.ph with
    | idle => simpa [tick_idle hr hp] using h
    | init => simpa [tick_init hr hp] using h
    | fetch => simpa [tick_fetch hr hp] using h
    | rmwRd => simpa [tick_rmwRd hr hp] using h
    | rmwWr => simpa [tick_rmwWr hr hp] using rmwWrite_mem_wf s h
    | rd => simpa [tick_rd hr hp] using h
    | dst => simpa [tick_dst hr hp] using h
    | resp => simpa [tick_resp hr hp] using h

/-! ### A step with a command in flight: the registers (10_state.md R24) -/

/-- The command in flight stays the same from step to step. -/
theorem tick_sameCommand {s : State} (h : s.env.resetLine = none) (hbusy : s.x.ph ≠ .idle) :
    SameCommand s (tick s).state := by
  cases hp : s.x.ph with
  | idle => exact absurd hp hbusy
  | init => rw [tick_init h hp]; exact (initStage_sameCommand s).enter _
  | fetch =>
    rw [tick_fetch h hp, fetchPhase]
    split
    · exact (fetchSource_sameCommand s).enter _
    · exact (fetchData_sameCommand s).enter _
  | rmwRd => rw [tick_rmwRd h hp]; exact (rmwRead_sameCommand s).enter _
  | rmwWr => rw [tick_rmwWr h hp]; exact (rmwWrite_sameCommand s).enter _
  | rd =>
    rw [tick_rd h hp, readPhase]
    split
    · exact (readStage_sameCommand s).enter _
    · exact ((readStage_sameCommand s).andThen assembleByte_sameCommand).enter _
  | dst => rw [tick_dst h hp]; exact (deliverByte_sameCommand s).enter _
  | resp => rw [tick_resp h hp]; exact respond_sameCommand s _ _

/-- The byte index after a step that is made: counted up where the byte is done. -/
def InFlight.indexAfter (x : InFlight) : Count :=
  match x.ph with
  | .rmwWr | .dst => x.k + 1
  | .rd => if x.op = 0x6 then x.k else x.k + 1
  | .idle | .init | .fetch | .rmwRd | .resp => x.k

/-- The phase after a step that is made with a command in flight. -/
def InFlight.phaseAfter (x : InFlight) : Phase :=
  match x.ph with
  | .idle | .resp => .idle
  | .init => .resp
  | .fetch => .rmwRd
  | .rmwRd => .rmwWr
  | .rmwWr => if x.indexAfter = x.n then .resp else .fetch
  | .rd => if x.op = 0x6 then .dst else if x.indexAfter = x.n then .resp else .rd
  | .dst => if x.indexAfter = x.n then .resp else .rd

/-- The step waits with the transfer of its phase in progress, and nothing else changes (60_exceptions.md R173). -/
def WaitsInPhase (s : State) (p : Progress) : Prop :=
  ∃ c, phaseChannel s.x = some c ∧ p = .waits { s with inFlight := some c }

theorem waitsInPhase_of_phase {s : State} {ph : Phase} {c : Channel} (hp : s.x.ph = ph) (hc : phaseChannel s.x = some c) :
    WaitsInPhase s (.waits { s with x := { s.x with ph := ph }, inFlight := some c }) :=
  ⟨c, hc, by rw [← hp]⟩

/-- A step with a command in flight is made or waits. Made, the phase and the index are the next ones and no transfer is in
progress, unless the phase has none. -/
theorem tick_cases {s : State} (h : s.env.resetLine = none) (hbusy : s.x.ph ≠ .idle) :
    (∃ t, tick s = .went t ∧ t.x.ph = s.x.phaseAfter ∧ t.x.k = s.x.indexAfter ∧
      (t.inFlight = none ∨ t.inFlight = s.inFlight ∧ phaseChannel s.x = none)) ∨
    WaitsInPhase s (tick s) := by
  cases hp : s.x.ph with
  | idle => exact absurd hp hbusy
  | init =>
    rw [tick_init h hp]
    cases hr : s.env.storeReady.take with
    | none => right; rw [initStage_waits hr]; exact waitsInPhase_of_phase hp (by simp [phaseChannel, hp])
    | some r => left; rw [initStage_went hr]; simp [InFlight.phaseAfter, InFlight.indexAfter, hp]
  | fetch =>
    rw [tick_fetch h hp, fetchPhase]
    by_cases hop : s.x.op = 0x7
    · rw [if_pos hop]
      cases hs : s.env.source with
      | nil => right; rw [fetchSource_waits hs]; exact waitsInPhase_of_phase hp (by simp [phaseChannel, hp, hop])
      | cons b rest => left; rw [fetchSource_went hs]; simp [InFlight.phaseAfter, InFlight.indexAfter, hp]
    · rw [if_neg hop]
      refine .inl ⟨_, rfl, ?_, ?_, .inr ⟨rfl, ?_⟩⟩
      · simp only [State.enter_x, InFlight.phaseAfter, hp]
      · simp only [State.enter_x, InFlight.indexAfter, hp]
      · simp only [phaseChannel, hp, hop, if_false]
  | rmwRd =>
    rw [tick_rmwRd h hp]
    cases hr : s.env.storeReady.take with
    | none => right; rw [rmwRead_waits hr]; exact waitsInPhase_of_phase hp (by simp [phaseChannel, hp])
    | some r => left; rw [rmwRead_went hr]; simp [InFlight.phaseAfter, InFlight.indexAfter, hp]
  | rmwWr =>
    rw [tick_rmwWr h hp]
    cases hr : s.env.storeReady.take with
    | none => right; rw [rmwWrite_waits hr]; exact waitsInPhase_of_phase hp (by simp [phaseChannel, hp])
    | some r => left; rw [rmwWrite_went hr]; simp [InFlight.phaseAfter, InFlight.indexAfter, nextUnlessDone, hp]
  | rd =>
    rw [tick_rd h hp, readPhase]
    cases hr : s.env.storeReady.take with
    | none =>
      right
      rw [readStage_waits hr, Progress.waits_andThen, Progress.waits_enter, Progress.waits_enter, ite_self]
      exact waitsInPhase_of_phase hp (by simp [phaseChannel, hp])
    | some r =>
      left
      rw [readStage_went hr]
      by_cases hop : s.x.op = 0x6
      · rw [if_pos hop]
        refine ⟨_, rfl, ?_, ?_, .inl rfl⟩
        · simp only [State.enter_x, InFlight.phaseAfter, hp, hop, if_true]
        · simp only [State.enter_x, InFlight.indexAfter, hp, hop, if_true]
      · rw [if_neg hop]
        refine ⟨_, rfl, ?_, ?_, .inl rfl⟩
        · simp only [State.enter_x, nextUnlessDone, InFlight.phaseAfter, InFlight.indexAfter, hp, hop, if_false]
        · simp only [State.enter_x, InFlight.indexAfter, hp, hop, if_false]
  | dst =>
    rw [tick_dst h hp]
    cases hr : s.env.dstReady.take with
    | none => right; rw [deliverByte_waits hr]; exact waitsInPhase_of_phase hp (by simp [phaseChannel, hp])
    | some r => left; rw [deliverByte_went hr]; simp [InFlight.phaseAfter, InFlight.indexAfter, nextUnlessDone, hp]
  | resp =>
    rw [tick_resp h hp]
    cases hr : s.env.rspReady.take with
    | none => right; rw [respond_waits hr]; exact waitsInPhase_of_phase hp (by simp [phaseChannel, hp])
    | some r => left; rw [respond_went hr]; simp [InFlight.phaseAfter, InFlight.indexAfter, hp]

/-! ### The invariant -/

/-- Below the count, the next byte index is below it too, or is the count. -/
theorem next_index_lt {k n : Count} (h : k.toNat < n.toNat) (hne : ¬ k + 1 = n) : (k + 1).toNat < n.toNat := by
  bv_omega

/-- The registers after a step that is made fit their phase if they did before it. -/
theorem phaseLegal_after {x y : InFlight} (h : phaseLegal x) (hop : y.op = x.op) (hn : y.n = x.n)
    (hk : y.k = x.indexAfter) (hph : y.ph = x.phaseAfter) : phaseLegal y := by
  unfold phaseLegal InFlight.phaseAfter InFlight.indexAfter at *
  rw [hop, hn, hk, hph]
  cases hp : x.ph <;> simp only [hp] at h ⊢
  case init => exact h.2
  case fetch | rmwRd => exact h
  case rmwWr =>
    obtain ⟨hw, hlt⟩ := h
    by_cases hdone : x.k + 1 = x.n
    · simp only [hdone, if_true]
    · simp only [hdone, if_false]
      exact ⟨hw, next_index_lt hlt hdone⟩
  case rd =>
    obtain ⟨hr, hlt⟩ := h
    by_cases h6 : x.op = 0x6
    · simp only [h6, if_true]
      exact ⟨trivial, hlt⟩
    · by_cases hdone : x.k + 1 = x.n
      · simp only [h6, hdone, if_true, if_false]
      · simp only [h6, hdone, if_false]
        exact ⟨hr, next_index_lt hlt hdone⟩
  case dst =>
    obtain ⟨h6, hlt⟩ := h
    by_cases hdone : x.k + 1 = x.n
    · simp only [hdone, if_true]
    · simp only [hdone, if_false]
      exact ⟨by rw [h6]; rfl, next_index_lt hlt hdone⟩

/-- The registers after acceptance fit the first phase (10_state.md R24, row IDLE). -/
theorem phaseLegal_first {x : InFlight} {count : Count} (hph : x.ph = firstPhase x.op x.n) (hk : x.k = 0)
    (hn : x.n = byteCount x.op count) : phaseLegal x := by
  have system (h : isSystem x.op = true) : x.k = x.n := by rw [hk, hn, byteCount, if_pos h]
  unfold firstPhase at hph
  split at hph
  · rename_i hinit
    simp only [phaseLegal, hph]
    exact ⟨(isInit_iff _).mp hinit, system (isSystem_of_isInit hinit)⟩
  · rename_i hinit
    split at hph
    · rename_i hresp
      simp only [phaseLegal, hph]
      rw [Bool.or_eq_true] at hresp
      rcases hresp with hres | hzero
      · exact system (Bool.and_eq_true _ _ ▸ hres).1
      · rw [hk, of_decide_eq_true hzero]
    · rename_i hresp
      rw [Bool.or_eq_true, not_or, decide_eq_true_eq] at hresp
      obtain ⟨hres, hzero⟩ := hresp
      have hlt : x.k.toNat < x.n.toNat := by
        rw [hk]
        bv_omega
      split at hph
      · rename_i hw
        simp only [phaseLegal, hph]
        exact ⟨hw, hlt⟩
      · rename_i hw
        simp only [phaseLegal, hph]
        refine ⟨?_, hlt⟩
        simpa [isReserved, hinit, hw] using hres

theorem byteCount_of_not_block {cmd : CmdCode} (h : isBlock cmd ≠ true) (count : Count) :
    byteCount cmd count = byteCount cmd 0 := by
  simp [byteCount, h]

theorem admitted_initSeen {s : State} (h : s.initSeen = true) (cmd : CmdCode) (addr : Loc) (wdata : Data) (count : Count) :
    (admitted cmd addr wdata count s).initSeen = true := by
  unfold admitted markOnAccept
  split
  · simpa using h
  · split
    · simp
    · exact h

/-- Acceptance reaches the invariant from any store that has its part of it. -/
theorem latchRequest_inv {s : State} (hmem : s.store.mem.wf = true)
    (hinit : s.store.status ≠ .uninit → s.initSeen = true) (r : Request) : (latchRequest r s).Inv := by
  rw [latchRequest_eq]
  constructor
  case mem => simpa using hmem
  case phase => exact phaseLegal_first (count := r.count) (by simp) (by simp) (by simp)
  case count =>
    intro _
    by_cases hb : isBlock r.cmd = true
    · exact .inl (by simpa using hb)
    · exact .inr (by simpa using byteCount_of_not_block hb r.count)
  case channel => exact .inl (by simp)
  case initialised =>
    intro h
    exact admitted_initSeen (hinit (by simpa using h)) ..
  case initNoted =>
    intro _ h8
    have hcmd : r.cmd = 0x8 := by simpa using h8
    rw [State.enter_initSeen, hcmd, admitted_init, noteInit_initSeen]
  case reservedMarked =>
    intro _ hres
    have hcmd : isReserved r.cmd = true := by simpa using hres
    rw [State.enter_mark, admitted_reserved hcmd, raiseRefuse_mark]
    simp

theorem performReset_inv (c : ResetCause) {s : State} (h : s.Inv) : (performReset c s).Inv := by
  constructor
  case mem => exact State.memAfterReset_wf s h.mem
  case phase => exact trivial
  case count => exact fun hb => absurd rfl hb
  case channel => exact .inl rfl
  case initialised =>
    cases c with
    | blockReset => exact h.initialised
    | powerLoss => exact fun hs => absurd rfl hs
  case initNoted => exact fun hb => absurd rfl hb
  case reservedMarked => exact fun hb => absurd rfl hb

/-- A Controller step with a command in flight keeps the invariant. -/
theorem tick_inFlight_inv {s : State} (h : s.Inv) (hline : s.env.resetLine = none) (hbusy : s.x.ph ≠ .idle) :
    (tick s).state.Inv := by
  have same := tick_sameCommand hline hbusy
  have hmem := tick_mem_wf s h.mem
  have hinit : (tick s).state.store.status ≠ .uninit → s.initSeen = true := by
    rw [tick_status hline]
    split
    · rename_i hi
      intro _
      have hphase := h.phase
      simp only [phaseLegal, hi.1] at hphase
      exact h.initNoted hbusy hphase.1
    · exact h.initialised
  rcases tick_cases hline hbusy with ⟨t, ht, hph, hk, hchannel⟩ | hwait
  · rw [ht, Progress.went_state] at same hmem hinit ⊢
    exact {
      mem := hmem
      phase := phaseLegal_after h.phase same.op same.n hk hph
      count := fun _ => by rw [same.op, same.n]; exact h.count hbusy
      channel := .inl (by
        rcases hchannel with hnone | ⟨hsame, hnone⟩
        · exact hnone
        · rw [hsame]
          exact h.channel.elim id fun hc => hc.trans hnone)
      initialised := fun hs => by rw [same.initSeen]; exact hinit hs
      initNoted := fun _ h8 => by rw [same.initSeen]; exact h.initNoted hbusy (same.op ▸ h8)
      reservedMarked := fun _ hr => by rw [same.mark]; exact h.reservedMarked hbusy (same.op ▸ hr) }
  · obtain ⟨c, hc, hwait⟩ := hwait
    rw [hwait, Progress.waits_state]
    exact ⟨h.mem, h.phase, h.count, .inr hc.symm, h.initialised, h.initNoted, h.reservedMarked⟩

/-- Every Controller step keeps the invariant. -/
theorem tick_inv {s : State} (h : s.Inv) : (tick s).state.Inv := by
  cases hline : s.env.resetLine with
  | some c => rw [tick_reset hline]; exact performReset_inv c h
  | none =>
    by_cases hp : s.x.ph = .idle
    · rw [tick_idle hline hp]
      unfold acceptStage
      split
      · exact h
      · rename_i r rest _
        exact latchRequest_inv (s := takeRequest r rest s) h.mem h.initialised r
    · exact tick_inFlight_inv h hline hp

/-- Another agent's write changes the bytes, the draws and the mark alone. -/
theorem envMove_foreignWrite (i : WordIndex) (w : CellWord) (s : State) :
    envMove (.foreignWrite i w) s =
      { s with store := { s.store with mem := s.memAfterWrite i w }, draws := s.drawsNext
               mark := s.mark.or (some { reason := .concurrentStoreMaster, cmd := s.commandInFlight }) } :=
  raiseRefuse_eq ..

/-- Every move of another agent keeps the invariant. -/
theorem envMove_inv (m : EnvMove) {s : State} (h : s.Inv) : (envMove m s).Inv := by
  have hmem := envMove_mem_wf m s h.mem
  cases m with
  | foreignWrite i w =>
    rw [envMove_foreignWrite] at hmem ⊢
    refine ⟨hmem, h.phase, h.count, h.channel, h.initialised, h.initNoted, fun _ _ => ?_⟩
    simp
  | _ => exact ⟨hmem, h.phase, h.count, h.channel, h.initialised, h.initNoted, h.reservedMarked⟩

/-- Settles O46: Controller steps and moves keep the invariant, so runs do. -/
theorem runsKeepTheInvariant : Obligations.RunsKeepTheInvariant := by
  refine fun acts s => runActs_keeps (fun a s h => ?_) acts s
  cases a with
  | controller => exact tick_inv h
  | env m => exact envMove_inv m h

/-- Settles O44: nothing is in flight, the byte space is empty and the store UNINIT. -/
theorem resetMeetsTheInvariant : Obligations.ResetMeetsTheInvariant where
  mem := State.reset_mem_wf
  phase := trivial
  count := fun h => absurd rfl h
  channel := .inl rfl
  initialised := fun h => absurd rfl h
  initNoted := fun h => absurd rfl h
  reservedMarked := fun h => absurd rfl h

end Sys2Proof.Machine
end

section
/-! The Controller's steps from a state with a command in flight to where the command comes to rest: its response or a wait.
`resume` reaches that state, and for a request just latched it is the state the command's own rule leads to. -/

namespace Sys2Proof.Machine

open Sys2Proof

/-- Controller steps lead from `s` to `t`, where the command in flight has given its response or waits. -/
inductive RestsAt : State → State → Prop where
  | waits {s t : State} (h : tick s = .waits t) : RestsAt s t
  | responds {s t : State} (h : tick s = .went t) (hp : t.x.ph = .idle) : RestsAt s t
  | goesOn {s u t : State} (h : tick s = .went u) (hp : u.x.ph ≠ .idle) (ht : RestsAt u t) : RestsAt s t

theorem RestsAt.unique {s t t' : State} (h : RestsAt s t) (h' : RestsAt s t') : t = t' := by
  induction h with
  | waits h => cases h' <;> simp_all
  | responds h hp => cases h' <;> simp_all
  | goesOn h hp _ ih =>
    cases h' with
    | waits h₂ => simp [h] at h₂
    | responds h₂ hp₂ => simp_all
    | goesOn h₂ _ ht₂ =>
      cases h.symm.trans h₂
      exact ih ht₂

/-- What every Controller step keeps holds where the command rests. -/
theorem RestsAt.keeps {P : State → Prop} (hP : ∀ s, P s → P (tick s).state) {s t : State} (h : RestsAt s t) (hs : P s) :
    P t := by
  induction h with
  | waits h => simpa [h] using hP _ hs
  | responds h _ => simpa [h] using hP _ hs
  | goesOn h _ _ ih => exact ih (by simpa [h] using hP _ hs)

/-! ### Enough steps -/

/-- At most so many steps are left of the command in flight. -/
def InFlight.ticksLeft (x : InFlight) : Nat :=
  match x.ph with
  | .idle => 0
  | .resp => 1
  | .init => 2
  | .fetch => 3 * (x.n.toNat - x.k.toNat) + 1
  | .rmwRd => 3 * (x.n.toNat - x.k.toNat)
  | .rmwWr => 3 * (x.n.toNat - x.k.toNat) - 1
  | .rd => 2 * (x.n.toNat - x.k.toNat) + 1
  | .dst => 2 * (x.n.toNat - x.k.toNat)

theorem next_index_toNat {k n : Count} (h : k.toNat < n.toNat) : (k + 1).toNat = k.toNat + 1 := by
  bv_omega

/-- A step that is made leaves fewer. -/
theorem ticksLeft_after {x y : InFlight} (h : phaseLegal x) (hbusy : x.ph ≠ .idle) (hn : y.n = x.n)
    (hk : y.k = x.indexAfter) (hph : y.ph = x.phaseAfter) : y.ticksLeft < x.ticksLeft := by
  unfold phaseLegal at h
  unfold InFlight.ticksLeft
  unfold InFlight.phaseAfter InFlight.indexAfter at *
  rw [hn, hk, hph]
  cases hp : x.ph <;> simp only [hp] at h ⊢
  case idle => exact absurd hp hbusy
  case resp | init => omega
  case fetch | rmwRd => omega
  case rmwWr =>
    have hnext := next_index_toNat h.2
    by_cases hdone : x.k + 1 = x.n
    · simp only [hdone, if_true]
      omega
    · simp only [hdone, if_false]
      omega
  case rd =>
    have hnext := next_index_toNat h.2
    by_cases h6 : x.op = 0x6
    · simp only [h6, if_true]
      omega
    · by_cases hdone : x.k + 1 = x.n
      · simp only [h6, hdone, if_true, if_false]
        omega
      · simp only [h6, hdone, if_false]
        omega
  case dst =>
    have hnext := next_index_toNat h.2
    by_cases hdone : x.k + 1 = x.n
    · simp only [hdone, if_true]
      omega
    · simp only [hdone, if_false]
      omega

theorem ticksLeft_le_resumeFuel {s : State} (h : phaseLegal s.x) : s.x.ticksLeft ≤ resumeFuel s := by
  unfold phaseLegal at h
  unfold InFlight.ticksLeft resumeFuel
  cases hp : s.x.ph <;> simp only [hp] at h ⊢
  case idle | resp | init => omega
  all_goals
    have hleft : (s.x.n - s.x.k - 1).toNat + 1 = s.x.n.toNat - s.x.k.toNat := by bv_omega
    omega

theorem ticksLeft_pos {x : InFlight} (h : phaseLegal x) (hbusy : x.ph ≠ .idle) : 0 < x.ticksLeft := by
  unfold phaseLegal at h
  unfold InFlight.ticksLeft
  cases hp : x.ph <;> simp only [hp] at h ⊢
  case idle => exact absurd hp hbusy
  all_goals omega

/-- With a command in flight whose phase fits its registers, `resume` comes to where the command rests. -/
theorem restsAt_resume {fuel : Nat} {s : State} (hline : s.env.resetLine = none) (h : phaseLegal s.x)
    (hbusy : s.x.ph ≠ .idle) (hfuel : s.x.ticksLeft ≤ fuel) : RestsAt s (resume fuel s) := by
  induction fuel generalizing s with
  | zero => have := ticksLeft_pos h hbusy; omega
  | succ fuel ih =>
    rcases tick_cases hline hbusy with ⟨t, ht, hph, hk, -⟩ | ⟨c, -, hwait⟩
    · by_cases hidle : t.x.ph = .idle
      · rw [resume_of_idle ht hidle]
        exact .responds ht hidle
      · have same := tick_sameCommand hline hbusy
        rw [ht, Progress.went_state] at same
        have hless := ticksLeft_after h hbusy same.n hk hph
        rw [resume_of_went ht hidle]
        exact .goesOn ht hidle
          (ih (same.resetLine.trans hline) (phaseLegal_after h same.op same.n hk hph) hidle (by omega))
    · rw [resume_of_waits hwait]
      exact .waits hwait

/-- The step of the machine with a command in flight comes to where the command rests. -/
theorem step_restsAt {s t : State} (hline : s.env.resetLine = none) (h : phaseLegal s.x) (hbusy : s.x.ph ≠ .idle)
    (ht : RestsAt s t) : step s = .next t := by
  have hr := restsAt_resume hline h hbusy (ticksLeft_le_resumeFuel h)
  simp only [step, hline, hbusy, if_false, hr.unique ht]

/-! ### A wait is where the command rests -/

/-- No step with a transfer of its own looks at which transfer is in progress. -/
theorem tick_inFlight {s : State} {c : Channel} (hline : s.env.resetLine = none) (hc : phaseChannel s.x = some c)
    (f : Option Channel) : tick { s with inFlight := f } = tick s := by
  unfold phaseChannel at hc
  cases hp : s.x.ph <;> simp only [hp] at hc
  case idle => cases hc
  case init => rw [tick_init hline hp, tick_init (s := { s with inFlight := f }) hline hp]; rfl
  case fetch =>
    split at hc
    · rename_i h7
      rw [tick_fetch hline hp, tick_fetch (s := { s with inFlight := f }) hline hp, fetchPhase, fetchPhase, if_pos h7,
        if_pos h7]
      rfl
    · cases hc
  case rmwRd => rw [tick_rmwRd hline hp, tick_rmwRd (s := { s with inFlight := f }) hline hp]; rfl
  case rmwWr => rw [tick_rmwWr hline hp, tick_rmwWr (s := { s with inFlight := f }) hline hp]; rfl
  case rd => rw [tick_rd hline hp, tick_rd (s := { s with inFlight := f }) hline hp]; rfl
  case dst => rw [tick_dst hline hp, tick_dst (s := { s with inFlight := f }) hline hp]; rfl
  case resp => rw [tick_resp hline hp, tick_resp (s := { s with inFlight := f }) hline hp]; rfl

/-- Where a command rests with no response given it waits, and steps do not move it. -/
theorem RestsAt.ticks {s t : State} (h : RestsAt s t) (hline : s.env.resetLine = none) (hbusy : s.x.ph ≠ .idle) :
    ∃ m, 0 < m ∧ t = ticks m s ∧ (∀ m', m' < m → (ticks m' s).x.ph ≠ .idle) ∧
      (t.x.ph = .idle ∨ tick t = .waits t) := by
  have one {s t : State} (ht : (tick s).state = t) (hbusy : s.x.ph ≠ .idle) :
      t = Machine.ticks 1 s ∧ ∀ m', m' < 1 → (Machine.ticks m' s).x.ph ≠ .idle := by
    refine ⟨by rw [ticks_succ, ticks_zero, ht], fun m' hm' => ?_⟩
    obtain rfl : m' = 0 := by omega
    exact hbusy
  induction h with
  | @waits s t h =>
    obtain ⟨heq, hbefore⟩ := one (by rw [h, Progress.waits_state]) hbusy
    refine ⟨1, Nat.one_pos, heq, hbefore, .inr ?_⟩
    rcases tick_cases hline hbusy with ⟨t', ht', -⟩ | ⟨c, hc, hwait⟩
    · simp [h] at ht'
    · obtain rfl : t = _ := by simpa [h] using hwait
      rw [tick_inFlight hline hc, hwait]
  | @responds s t h hp =>
    obtain ⟨heq, hbefore⟩ := one (by rw [h, Progress.went_state]) hbusy
    exact ⟨1, Nat.one_pos, heq, hbefore, .inl hp⟩
  | @goesOn s u t h hp _ ih =>
    have same := tick_sameCommand hline hbusy
    rw [h, Progress.went_state] at same
    obtain ⟨m, -, heq, hbefore, hrest⟩ := ih (same.resetLine.trans hline) hp
    refine ⟨m + 1, Nat.succ_pos m, by rw [ticks_succ, h, Progress.went_state, heq], fun m' hm' => ?_, hrest⟩
    cases m' with
    | zero => exact hbusy
    | succ m' =>
      rw [ticks_succ, h]
      exact hbefore m' (by omega)

end Sys2Proof.Machine
end

section
/-! The phase table against the rules of the commands (10_state.md R24): the steps of a phase make one stage, the phases of a
byte one byte of the rule, and the phases of a command its whole rule. -/

namespace Sys2Proof.Machine

open Sys2Proof

/-- Controller steps from `s` make exactly what `p` came to: to where it waits, or through the state it reached. -/
def Carries (s : State) : Progress → Prop
  | .went t => ∀ u, RestsAt t u → RestsAt s u
  | .waits t => RestsAt s t

theorem carries_tick {s : State} (h : ∀ t, tick s = .went t → t.x.ph ≠ .idle) : Carries s (tick s) := by
  cases ht : tick s with
  | went t => exact fun u hu => .goesOn ht (h t ht) hu
  | waits t => exact .waits ht

theorem Carries.andThen {s : State} {p : Progress} {f : State → Progress} (h : Carries s p)
    (hf : ∀ t, p = .went t → Carries t (f t)) : Carries s (p.andThen f) := by
  cases p with
  | waits t => exact h
  | went t =>
    have ht := hf t rfl
    rw [Progress.went_andThen]
    cases hq : f t with
    | went u =>
      rw [hq] at ht
      exact fun v hv => h v (ht v hv)
    | waits u =>
      rw [hq] at ht
      exact h u ht

theorem Progress.enter_eq_went {p : Progress} {next : State → Phase} {t : State} (h : p.enter next = .went t) :
    ∃ u, p = .went u ∧ t = u.enter (next u) := by
  cases p with
  | went u => exact ⟨u, rfl, by cases h; rfl⟩
  | waits u => cases h

/-- The stage that follows does not see the phase entered for it. -/
theorem Progress.enter_andThen (p : Progress) {f : State → Progress} (hf : ∀ t ph, f (t.enter ph) = f t)
    (next : State → Phase) : (p.enter next).andThen f = p.andThen f := by
  cases p with
  | went t => exact hf t _
  | waits t => rfl

theorem Progress.andThen_enter (p : Progress) (f : State → Progress) (next : State → Phase) :
    (p.andThen f).enter next = p.andThen fun t => (f t).enter next :=
  Progress.andThen_assoc p f _

theorem Progress.andThen_eq_went {p : Progress} {f : State → Progress} {t : State} (h : p.andThen f = .went t) :
    ∃ u, p = .went u ∧ f u = .went t := by
  cases p with
  | went u => exact ⟨u, rfl, h⟩
  | waits u => cases h

/-- A step whose phase makes the stage `p` and enters another phase than IDLE carries the stage. -/
theorem carries_stage {s : State} {p : Progress} {next : State → Phase} (h : tick s = p.enter next)
    (hnext : ∀ u, next u ≠ .idle) : Carries s (p.enter next) := by
  rw [← h]
  refine carries_tick fun t ht => ?_
  obtain ⟨u, -, rfl⟩ := Progress.enter_eq_went (h.symm.trans ht)
  exact hnext u

theorem nextUnlessDone_ne {again ph : Phase} (h : again ≠ ph) (hresp : .resp ≠ ph) (s : State) :
    nextUnlessDone again s ≠ ph := by
  unfold nextUnlessDone
  split
  · exact hresp
  · exact h

/-! ### One byte -/

/-- The phase a byte of a data command begins in. -/
def byteStart (cmd : CmdCode) : Phase := if isWrite cmd then .fetch else .rd

theorem block_write_iff (cmd : CmdCode) : (isBlock cmd = true ∧ isWrite cmd = true) ↔ cmd = 0x7 := by
  revert cmd; decide

theorem block_read_iff (cmd : CmdCode) : (isBlock cmd = true ∧ isWrite cmd = false) ↔ cmd = 0x6 := by
  revert cmd; decide

/-- A byte write from the phase FETCH: the fetch `p`, the store read and the store write, one step each. -/
theorem write_carries {s : State} {p : Progress} (hline : s.env.resetLine = none)
    (hfetch : tick s = p.enter fun _ => .rmwRd) (hp : SameCommand s p.state) :
    Carries s (((p.andThen rmwRead).andThen rmwWrite).enter (nextUnlessDone .fetch)) := by
  have line {t u : State} (h : SameCommand s t) (hu : u.env = t.env) : u.env.resetLine = none := by
    rw [hu, h.resetLine, hline]
  rw [Progress.andThen_enter, ← p.enter_andThen rmwRead_enter fun _ => .rmwRd]
  have hread : Carries s (((p.enter fun _ => .rmwRd).andThen rmwRead).enter fun _ => .rmwWr) := by
    rw [Progress.andThen_enter]
    refine (carries_stage hfetch fun _ => nofun).andThen fun t ht => ?_
    obtain ⟨u, hu, rfl⟩ := Progress.enter_eq_went ht
    rw [hu] at hp
    exact carries_stage (tick_rmwRd (line hp rfl) rfl) fun _ => nofun
  rw [← Progress.enter_andThen _ (fun t ph => by rw [rmwWrite_enter]) fun _ => .rmwWr]
  refine hread.andThen fun t ht => ?_
  obtain ⟨u, hu, rfl⟩ := Progress.enter_eq_went ht
  have hsame : SameCommand s u := by
    have := (hp.enter fun _ => .rmwRd).andThen rmwRead_sameCommand
    rwa [hu] at this
  exact carries_stage (tick_rmwWr (line hsame rfl) rfl) (nextUnlessDone_ne nofun nofun)

/-- A byte of a data command, from the phase it begins in to the next byte or the response. -/
theorem byteRule_carries {cmd : CmdCode} {s : State} (hline : s.env.resetLine = none) (hop : s.x.op = cmd)
    (hph : s.x.ph = byteStart cmd) : Carries s ((byteRule cmd s).enter (nextUnlessDone (byteStart cmd))) := by
  by_cases hw : isWrite cmd = true
  · have hstart : byteStart cmd = .fetch := if_pos hw
    rw [hstart] at hph ⊢
    by_cases hb : isBlock cmd = true
    · have h7 := hop.trans ((block_write_iff cmd).mp ⟨hb, hw⟩)
      rw [byteRule, if_pos hb, if_pos hw]
      exact write_carries hline (by rw [tick_fetch hline hph, fetchPhase, if_pos h7]) (fetchSource_sameCommand s)
    · have h7 : s.x.op ≠ 0x7 := fun h => hb ((block_write_iff cmd).mpr (hop.symm.trans h)).1
      rw [byteRule, if_neg hb, if_pos hw]
      exact write_carries hline (by rw [tick_fetch hline hph, fetchPhase, if_neg h7]) (fetchData_sameCommand s)
  · have hstart : byteStart cmd = .rd := if_neg hw
    rw [hstart] at hph ⊢
    by_cases hb : isBlock cmd = true
    · have h6 := hop.trans ((block_read_iff cmd).mp ⟨hb, Bool.not_eq_true _ ▸ hw⟩)
      have hread : tick s = (readStage s).enter fun _ => .dst := by rw [tick_rd hline hph, readPhase, if_pos h6]
      rw [byteRule, if_pos hb, if_neg hw, readBlockByte, Progress.andThen_enter,
        ← Progress.enter_andThen _ (fun t ph => by rw [deliverByte_enter]) fun _ => .dst]
      refine (carries_stage hread fun _ => nofun).andThen fun t ht => ?_
      obtain ⟨u, hu, rfl⟩ := Progress.enter_eq_went ht
      have hsame := readStage_sameCommand s
      rw [hu, Progress.went_state] at hsame
      exact carries_stage (tick_dst (hsame.resetLine.trans hline) rfl) (nextUnlessDone_ne nofun nofun)
    · have h6 : s.x.op ≠ 0x6 := fun h => hb ((block_read_iff cmd).mpr (hop.symm.trans h)).1
      rw [byteRule, if_neg hb, if_neg hw, readDataByte]
      exact carries_stage (by rw [tick_rd hline hph, readPhase, if_neg h6]) (nextUnlessDone_ne nofun nofun)

section Index
variable {s t : State}

theorem fetchSource_index (h : fetchSource s = .went t) : t.x.k = s.x.k := by
  cases hs : s.env.source with
  | nil => rw [fetchSource_waits hs] at h; cases h
  | cons b rest => rw [fetchSource_went hs] at h; cases h; rfl

theorem rmwRead_index (h : rmwRead s = .went t) : t.x.k = s.x.k := by
  cases hr : s.env.storeReady.take with
  | none => rw [rmwRead_waits hr] at h; cases h
  | some r => rw [rmwRead_went hr] at h; cases h; rfl

theorem rmwWrite_index (h : rmwWrite s = .went t) : t.x.k = s.x.k + 1 := by
  cases hr : s.env.storeReady.take with
  | none => rw [rmwWrite_waits hr] at h; cases h
  | some r => rw [rmwWrite_went hr] at h; cases h; rfl

theorem readStage_index (h : readStage s = .went t) : t.x.k = s.x.k := by
  cases hr : s.env.storeReady.take with
  | none => rw [readStage_waits hr] at h; cases h
  | some r => rw [readStage_went hr] at h; cases h; rfl

theorem deliverByte_index (h : deliverByte s = .went t) : t.x.k = s.x.k + 1 := by
  cases hr : s.env.dstReady.take with
  | none => rw [deliverByte_waits hr] at h; cases h
  | some r => rw [deliverByte_went hr] at h; cases h; rfl

/-- A byte made counts the index up by one. -/
theorem byteRule_index {cmd : CmdCode} (h : byteRule cmd s = .went t) : t.x.k = s.x.k + 1 := by
  have write {p : Progress} (hp : ∀ u, p = .went u → u.x.k = s.x.k)
      (h : (p.andThen rmwRead).andThen rmwWrite = .went t) :
      t.x.k = s.x.k + 1 := by
    obtain ⟨v, hv, ht⟩ := Progress.andThen_eq_went h
    obtain ⟨u, hu, hv⟩ := Progress.andThen_eq_went hv
    rw [rmwWrite_index ht, rmwRead_index hv, hp u hu]
  unfold byteRule at h
  split at h
  · split at h
    · exact write (fun u hu => fetchSource_index hu) h
    · obtain ⟨u, hu, ht⟩ := Progress.andThen_eq_went h
      rw [deliverByte_index ht, readStage_index hu]
  · split at h
    · exact write (fun u hu => by cases hu; rfl) h
    · obtain ⟨u, hu, ht⟩ := Progress.andThen_eq_went h
      cases ht
      exact congrArg (· + 1) (readStage_index hu)

end Index

/-! ### All bytes, and the whole command -/

/-- The bytes left of a data command, from the phase the next one begins in to the response. -/
theorem bytes_carry {cmd : CmdCode} (m : Nat) {s : State} (hline : s.env.resetLine = none) (hop : s.x.op = cmd)
    (hph : s.x.ph = byteStart cmd) (hk : s.x.k.toNat + (m + 1) = s.x.n.toNat) :
    Carries s ((repeatBytes (m + 1) (byteRule cmd) s).enter fun _ => .resp) := by
  induction m generalizing s with
  | zero =>
    have hbyte := byteRule_carries hline hop hph
    rw [repeatBytes_succ]
    cases hb : byteRule cmd s with
    | waits t => rwa [hb] at hbyte
    | went t =>
      have hn := (byteRule_sameCommand cmd s).n
      rw [hb, Progress.went_state] at hn
      have hdone : t.x.k = t.x.n := by
        rw [byteRule_index hb, hn]
        bv_omega
      rw [hb, Progress.went_enter, nextUnlessDone, if_pos hdone] at hbyte
      exact hbyte
  | succ m ih =>
    have hbyte := byteRule_carries hline hop hph
    rw [repeatBytes_succ]
    cases hb : byteRule cmd s with
    | waits t => rwa [hb] at hbyte
    | went t =>
      have same := byteRule_sameCommand cmd s
      rw [hb] at hbyte same
      have hnext := next_index_toNat (k := s.x.k) (n := s.x.n) (by omega)
      have hn := same.n
      have hindex := byteRule_index hb
      rw [Progress.went_state] at hn
      have hmore : t.x.k ≠ t.x.n := by
        rw [hindex, hn]
        bv_omega
      have hstart : (t.enter (nextUnlessDone (byteStart cmd) t)) = t.enter (byteStart cmd) := by
        rw [nextUnlessDone, if_neg hmore]
      rw [Progress.went_enter, hstart] at hbyte
      have hrest := ih (s := t.enter (byteStart cmd)) (same.resetLine.trans hline) (same.op.trans hop) rfl
        (by simp only [State.enter_x]; rw [hindex, hn]; omega)
      rw [repeatBytes_succ, byteRule_enter, ← repeatBytes_succ] at hrest
      exact Carries.andThen (f := fun _ => (repeatBytes (m + 1) (byteRule cmd) t).enter fun _ => .resp) hbyte
        fun u hu => by cases hu; exact hrest

theorem byteCount_system {cmd : CmdCode} (h : isSystem cmd = true) (count : Count) : byteCount cmd count = 0 := by
  rw [byteCount, if_pos h]

/-- The response, from the phase RESP to rest. -/
theorem respondFor_restsAt {cmd : CmdCode} {s : State} (hline : s.env.resetLine = none) (hop : s.x.op = cmd) :
    RestsAt (s.enter .resp) (respondFor cmd s).state := by
  have htick : tick (s.enter .resp) = respondFor cmd s := by
    rw [tick_resp (s := s.enter .resp) hline rfl, ← hop]
    rfl
  cases hr : s.env.rspReady.take with
  | none =>
    rw [respondFor, respond_waits hr] at htick ⊢
    exact .waits htick
  | some r =>
    rw [respondFor, respond_went hr] at htick ⊢
    exact .responds htick rfl

/-- What comes between acceptance and response, from the first phase to the phase RESP. -/
theorem commandBody_carries {cmd : CmdCode} {count : Count} {s : State} (hline : s.env.resetLine = none)
    (hop : s.x.op = cmd) (hn : s.x.n = byteCount cmd count) (hk : s.x.k = 0)
    (hph : s.x.ph = firstPhase cmd (byteCount cmd count)) :
    Carries s ((commandBody cmd (byteCount cmd count) s).enter fun _ => .resp) := by
  unfold firstPhase at hph
  unfold commandBody
  by_cases hinit : isInit cmd = true
  · rw [if_pos hinit] at hph ⊢
    exact carries_stage (tick_init hline hph) fun _ => nofun
  · rw [if_neg hinit] at hph ⊢
    by_cases hzero : byteCount cmd count = 0
    · have hresp : s.x.ph = .resp := by simpa [hzero] using hph
      have henter : s.enter .resp = s := by rw [State.enter, ← hresp]
      rw [hzero]
      change Carries s (.went (s.enter .resp))
      rw [henter]
      exact fun u hu => hu
    · have hdata : isSystem cmd = false := by
        rw [← Bool.not_eq_true]
        exact fun h => hzero (byteCount_system h count)
      have hstart : s.x.ph = byteStart cmd := by
        rw [hph, if_neg (by simpa [isReserved, hdata] using hzero)]
        rfl
      obtain ⟨m, hm⟩ : ∃ m, (byteCount cmd count).toNat = m + 1 := ⟨(byteCount cmd count).toNat - 1, by bv_omega⟩
      rw [hm]
      exact bytes_carry m hline hop hstart (by rw [hk, hn, hm]; exact Nat.zero_add _)

/-- From a request just latched the Controller's steps lead to the state the command's own rule leads to. -/
theorem latchRequest_restsAt {s : State} (hline : s.env.resetLine = none) (r : Request) :
    RestsAt (latchRequest r s) (commandRule r.cmd r.addr r.wdata r.count s).state := by
  have hx : (latchRequest r s).x.op = r.cmd := by simp [latchRequest_eq]
  have hlatched : (latchRequest r s).env.resetLine = none := by simp [latchRequest_eq, hline]
  have hbody := commandBody_carries (s := latchRequest r s) (count := r.count) hlatched hx
    (by simp [latchRequest_eq]) (by simp [latchRequest_eq]) (by simp [latchRequest_eq])
  have same := commandBody_sameCommand r.cmd (byteCount r.cmd r.count) (latchRequest r s)
  rw [commandRule, ← commandBody_respondFor_enter _ (firstPhase r.cmd (byteCount r.cmd r.count)), ← latchRequest_eq]
  cases hb : commandBody r.cmd (byteCount r.cmd r.count) (latchRequest r s) with
  | waits t => rwa [hb] at hbody
  | went t =>
    rw [hb] at hbody same
    exact hbody _ (respondFor_restsAt (same.resetLine.trans hlatched) (same.op.trans hx))

theorem latchRequest_busy (r : Request) (s : State) : (latchRequest r s).x.ph ≠ .idle := by
  simp only [latchRequest_eq, State.enter_x, firstPhase]
  split
  · exact nofun
  · split
    · exact nofun
    · split <;> exact nofun

theorem latchRequest_phaseLegal (r : Request) (s : State) : phaseLegal (latchRequest r s).x :=
  phaseLegal_first (count := r.count) (by simp [latchRequest_eq]) (by simp [latchRequest_eq]) (by simp [latchRequest_eq])

/-- Settles O45: a reset and a wait in IDLE aside, the step is Controller steps from acceptance or from the phase of the
command in flight, and each of them keeps the invariant. -/
theorem stepKeepsTheInvariant : Obligations.StepKeepsTheInvariant := by
  intro s t h hstep
  unfold step at hstep
  split at hstep
  · cases hstep
    exact performReset_inv _ h
  · rename_i hline
    split at hstep
    · split at hstep
      · cases hstep
        exact h
      · rename_i r rest _
        rw [exec_decodeRequest] at hstep
        cases hstep
        refine (latchRequest_restsAt (s := takeRequest r rest s) hline r).keeps (fun _ => tick_inv) ?_
        exact latchRequest_inv (s := takeRequest r rest s) h.mem h.initialised r
    · cases hstep
      exact resume_keeps (fun _ => tick_inv) _ s h

end Sys2Proof.Machine
end

section
/-! A command that waited goes on as if what the agents offer now had been offered from the start (60_exceptions.md R173,
70_reset_and_hazards.md R192): a step that is made is made alike with more offered. -/

namespace Sys2Proof.Machine

open Sys2Proof

theorem Readiness.take_plus {r r' : Readiness} (h : r.take = some r') (more : Readiness) :
    (r.plus more).take = some (r'.plus more) := by
  cases r with
  | always => cases h; cases more <;> rfl
  | times n =>
    cases n with
    | zero => cases h
    | succ n =>
      cases h
      cases more with
      | always => rfl
      | times m => rw [Readiness.plus, Nat.succ_add]; rfl

section Stages
variable {s t : State} (stores dsts responses : Readiness) (bytes : List Byte)

theorem initStage_answered (h : initStage s = .went t) :
    initStage (s.answered stores dsts responses bytes) = .went (t.answered stores dsts responses bytes) := by
  cases hr : s.env.storeReady.take with
  | none => rw [initStage_waits hr] at h; cases h
  | some r => rw [initStage_went hr] at h; cases h; exact initStage_went (Readiness.take_plus hr stores)

theorem fetchSource_answered (h : fetchSource s = .went t) :
    fetchSource (s.answered stores dsts responses bytes) = .went (t.answered stores dsts responses bytes) := by
  cases hs : s.env.source with
  | nil => rw [fetchSource_waits hs] at h; cases h
  | cons b rest =>
    rw [fetchSource_went hs] at h
    cases h
    exact fetchSource_went (by rw [answered_source, hs]; rfl)

theorem rmwRead_answered (h : rmwRead s = .went t) :
    rmwRead (s.answered stores dsts responses bytes) = .went (t.answered stores dsts responses bytes) := by
  cases hr : s.env.storeReady.take with
  | none => rw [rmwRead_waits hr] at h; cases h
  | some r => rw [rmwRead_went hr] at h; cases h; exact rmwRead_went (Readiness.take_plus hr stores)

theorem rmwWrite_answered (h : rmwWrite s = .went t) :
    rmwWrite (s.answered stores dsts responses bytes) = .went (t.answered stores dsts responses bytes) := by
  cases hr : s.env.storeReady.take with
  | none => rw [rmwWrite_waits hr] at h; cases h
  | some r => rw [rmwWrite_went hr] at h; cases h; exact rmwWrite_went (Readiness.take_plus hr stores)

theorem readStage_answered (h : readStage s = .went t) :
    readStage (s.answered stores dsts responses bytes) = .went (t.answered stores dsts responses bytes) := by
  cases hr : s.env.storeReady.take with
  | none => rw [readStage_waits hr] at h; cases h
  | some r => rw [readStage_went hr] at h; cases h; exact readStage_went (Readiness.take_plus hr stores)

theorem deliverByte_answered (h : deliverByte s = .went t) :
    deliverByte (s.answered stores dsts responses bytes) = .went (t.answered stores dsts responses bytes) := by
  cases hr : s.env.dstReady.take with
  | none => rw [deliverByte_waits hr] at h; cases h
  | some r => rw [deliverByte_went hr] at h; cases h; exact deliverByte_went (Readiness.take_plus hr dsts)

theorem respond_answered {d : Data} {ok : Bool} (h : respond d ok s = .went t) :
    respond d ok (s.answered stores dsts responses bytes) = .went (t.answered stores dsts responses bytes) := by
  cases hr : s.env.rspReady.take with
  | none => rw [respond_waits hr] at h; cases h
  | some r => rw [respond_went hr] at h; cases h; exact respond_went (Readiness.take_plus hr responses)

/-- A step of the command in flight that is made is made alike with more offered. -/
theorem tick_answered (hline : s.env.resetLine = none) (hbusy : s.x.ph ≠ .idle) (h : tick s = .went t) :
    tick (s.answered stores dsts responses bytes) = .went (t.answered stores dsts responses bytes) := by
  have enter {p p' : Progress} {next : State → Phase} (ht : p.enter next = .went t)
      (hp : ∀ u, p = .went u → p' = .went (u.answered stores dsts responses bytes))
      (hnext : ∀ u, next (u.answered stores dsts responses bytes) = next u) :
      p'.enter next = .went (t.answered stores dsts responses bytes) := by
    obtain ⟨u, hu, rfl⟩ := Progress.enter_eq_went ht
    rw [hp u hu, Progress.went_enter, hnext]
    rfl
  cases hp : s.x.ph with
  | idle => exact absurd hp hbusy
  | init =>
    rw [tick_init hline hp] at h
    rw [tick_init (s := s.answered ..) hline hp]
    exact enter h (fun _ => initStage_answered stores dsts responses bytes) fun _ => rfl
  | fetch =>
    rw [tick_fetch hline hp, fetchPhase] at h
    rw [tick_fetch (s := s.answered ..) hline hp, fetchPhase, answered_x]
    split at h
    · rename_i h7
      rw [if_pos h7]
      exact enter h (fun _ => fetchSource_answered stores dsts responses bytes) fun _ => rfl
    · rename_i h7
      rw [if_neg h7]
      exact enter h (fun u hu => by cases hu; rfl) fun _ => rfl
  | rmwRd =>
    rw [tick_rmwRd hline hp] at h
    rw [tick_rmwRd (s := s.answered ..) hline hp]
    exact enter h (fun _ => rmwRead_answered stores dsts responses bytes) fun _ => rfl
  | rmwWr =>
    rw [tick_rmwWr hline hp] at h
    rw [tick_rmwWr (s := s.answered ..) hline hp]
    exact enter h (fun _ => rmwWrite_answered stores dsts responses bytes) fun _ => rfl
  | rd =>
    rw [tick_rd hline hp, readPhase] at h
    rw [tick_rd (s := s.answered ..) hline hp, readPhase, answered_x]
    split at h
    · rename_i h6
      rw [if_pos h6]
      exact enter h (fun _ => readStage_answered stores dsts responses bytes) fun _ => rfl
    · rename_i h6
      rw [if_neg h6]
      refine enter h (fun u hu => ?_) fun _ => rfl
      obtain ⟨v, hv, hu⟩ := Progress.andThen_eq_went hu
      rw [readStage_answered _ _ _ _ hv]
      cases hu
      rfl
  | dst =>
    rw [tick_dst hline hp] at h
    rw [tick_dst (s := s.answered ..) hline hp]
    exact enter h (fun _ => deliverByte_answered stores dsts responses bytes) fun _ => rfl
  | resp =>
    rw [tick_resp hline hp] at h
    rw [tick_resp (s := s.answered ..) hline hp]
    exact respond_answered _ _ _ _ h

end Stages

/-- Two states with the same next step come to rest alike. -/
theorem RestsAt.of_tick_eq {s s' t : State} (h : RestsAt s t) (heq : tick s' = tick s) : RestsAt s' t := by
  cases h with
  | waits h => exact .waits (heq.trans h)
  | responds h hp => exact .responds (heq.trans h) hp
  | goesOn h hp ht => exact .goesOn (heq.trans h) hp ht

/-- A command that waits, once more is offered, comes to rest where it would have with that offered before. -/
theorem RestsAt.answered {s t t' : State} (h : RestsAt s t) (hline : s.env.resetLine = none) (hbusy : s.x.ph ≠ .idle)
    (hwaits : t.x.ph ≠ .idle) (stores dsts responses : Readiness) (bytes : List Byte)
    (h' : RestsAt (s.answered stores dsts responses bytes) t') : RestsAt (t.answered stores dsts responses bytes) t' := by
  induction h with
  | @waits s t h =>
    refine h'.of_tick_eq ?_
    rcases tick_cases hline hbusy with ⟨u, hu, -⟩ | ⟨c, hc, hwait⟩
    · simp [h] at hu
    · obtain rfl : t = _ := by simpa [h] using hwait
      exact tick_inFlight (s := s.answered stores dsts responses bytes) hline hc (some c)
  | responds _ hp => exact absurd hp hwaits
  | @goesOn s u t h hp _ ih =>
    have same := tick_sameCommand hline hbusy
    rw [h, Progress.went_state] at same
    refine ih (same.resetLine.trans hline) hp hwaits ?_
    have hstep := tick_answered stores dsts responses bytes hline hbusy h
    cases h' with
    | waits h₂ => simp [hstep] at h₂
    | responds h₂ hp₂ =>
      cases hstep.symm.trans h₂
      exact absurd hp₂ hp
    | goesOn h₂ _ ht₂ =>
      cases hstep.symm.trans h₂
      exact ht₂

theorem latchRequest_answered (r : Request) (s : State) (stores dsts responses : Readiness) (bytes : List Byte) :
    latchRequest r (s.answered stores dsts responses bytes) =
      (latchRequest r s).answered stores dsts responses bytes := by
  unfold latchRequest markOnAccept
  split
  · simp only [raiseRefuse_eq]; rfl
  · split
    · simp only [noteInit_eq]; rfl
    · rfl

/-- The command in flight keeps the reset input and fits its phase at every step. -/
theorem RestsAt.keeps_phase {s t : State} (h : RestsAt s t) (hline : s.env.resetLine = none) (hlegal : phaseLegal s.x)
    (hbusy : s.x.ph ≠ .idle) : t.env.resetLine = none ∧ phaseLegal t.x := by
  induction h with
  | @waits s t h =>
    rcases tick_cases hline hbusy with ⟨u, hu, -⟩ | ⟨c, -, hwait⟩
    · simp [h] at hu
    · obtain rfl : t = _ := by simpa [h] using hwait
      exact ⟨hline, hlegal⟩
  | @responds s t h hp =>
    have same := tick_sameCommand hline hbusy
    rw [h, Progress.went_state] at same
    exact ⟨same.resetLine.trans hline, by simp only [phaseLegal, hp]⟩
  | @goesOn s u t h hp _ ih =>
    have same := tick_sameCommand hline hbusy
    rcases tick_cases hline hbusy with ⟨u', hu, hph, hk, -⟩ | ⟨c, -, hwait⟩
    · cases h.symm.trans hu
      rw [h, Progress.went_state] at same
      exact ih (same.resetLine.trans hline) (phaseLegal_after hlegal same.op same.n hk hph) hp
    · simp [h] at hwait

/-- `exec` of a command leads to where the Controller's steps from its acceptance come to rest. -/
theorem exec_restsAt {s : State} (hline : s.env.resetLine = none) (i : Instr) :
    ∃ t, exec i s = .next t ∧ RestsAt (latchRequest (encodeRequest i) s) t := by
  have hrest := latchRequest_restsAt hline (encodeRequest i)
  rw [encodeRequest_cmd] at hrest
  exact ⟨_, exec_eq_commandRule i s, hrest⟩

/-- Settles O43: `resume` follows the Controller's steps to where the command rests, which from acceptance is where the
command's rule leads, and a step that is made is made alike with more offered. -/
theorem sequencerAgreesWithTheCommandRules : Obligations.SequencerAgreesWithTheCommandRules := by
  refine ⟨fun s r rest hline => ⟨_, exec_decodeRequest r _, ?_⟩, fun s h hbusy hline => ?_,
    fun i s stores dsts responses bytes hline => ?_⟩
  · have hlatched : (latchRequest r (takeRequest r rest s)).env.resetLine = none := by simp [latchRequest_eq, hline]
    have hlegal := latchRequest_phaseLegal r (takeRequest r rest s)
    exact (restsAt_resume hlatched hlegal (latchRequest_busy _ _) (ticksLeft_le_resumeFuel hlegal)).unique
      (latchRequest_restsAt (s := takeRequest r rest s) hline r)
  · have hrest := restsAt_resume hline h.phase hbusy (ticksLeft_le_resumeFuel h.phase)
    obtain ⟨m, hm, heq, hbefore, hstays⟩ := hrest.ticks hline hbusy
    exact ⟨_, m, step_restsAt hline h.phase hbusy hrest, hm, heq, hbefore, hstays⟩
  · obtain ⟨t, ht, hrest⟩ := exec_restsAt hline i
    obtain ⟨t', ht', hrest'⟩ := exec_restsAt (s := s.answered stores dsts responses bytes) hline i
    refine ⟨t, ht, fun hwaits => ?_⟩
    have hlatched : (latchRequest (encodeRequest i) s).env.resetLine = none := by simp [latchRequest_eq, hline]
    obtain ⟨hline', hlegal⟩ := hrest.keeps_phase hlatched (latchRequest_phaseLegal ..) (latchRequest_busy _ _)
    rw [latchRequest_answered] at hrest'
    rw [ht']
    exact step_restsAt (s := t.answered stores dsts responses bytes) hline' hlegal hwaits
      (hrest.answered hlatched (latchRequest_busy _ _) hwaits stores dsts responses bytes hrest')

end Sys2Proof.Machine
end

section
/-! The dead in-flight registers (10_state.md R34). Acceptance writes every register but `x[cur]` and `x[old]`, so two states
that differ in the in-flight registers alone agree, once a request is latched, but for those two; and each phase reads them
only where an earlier phase of the same byte has written them. -/

namespace Sys2Proof.Machine

open Sys2Proof

/-- The state with other `x[cur]` and `x[old]`, the two registers that acceptance does not write. -/
def State.withCurOld (s : State) (cur : Byte) (old : CellWord) : State :=
  { s with x := { s.x with cur := cur, old := old } }

theorem withCurOld_op (s : State) (cur : Byte) (old : CellWord) : (s.withCurOld cur old).x.op = s.x.op := rfl

/-- The two states differ at most in `x[cur]` and `x[old]`, and in neither where the phase still reads it (10_state.md R24). -/
structure AgreeLive (s u : State) : Prop where
  eq : u = s.withCurOld u.x.cur u.x.old
  cur : s.x.ph = .rmwRd ∨ s.x.ph = .rmwWr ∨ s.x.ph = .dst → u.x.cur = s.x.cur
  old : s.x.ph = .rmwWr → u.x.old = s.x.old

theorem AgreeLive.refl (s : State) : AgreeLive s s := ⟨rfl, fun _ => rfl, fun _ => rfl⟩

/-- In a phase that reads neither register, nothing more is asked of the two. -/
theorem agreeLive_dead (s : State) (cur : Byte) (old : CellWord)
    (h : ¬ (s.x.ph = .rmwRd ∨ s.x.ph = .rmwWr ∨ s.x.ph = .dst)) :
    AgreeLive s (s.withCurOld cur old) :=
  ⟨rfl, fun hp => absurd hp h, fun hp => absurd (.inr (.inl hp)) h⟩

/-- In a phase that reads `x[cur]` alone, the two agree in it. -/
theorem agreeLive_old (s : State) (old : CellWord) (h : s.x.ph ≠ .rmwWr) :
    AgreeLive s (s.withCurOld s.x.cur old) :=
  ⟨rfl, fun _ => rfl, fun hp => absurd hp h⟩

/-- The two steps came to the same, but for dead registers. -/
inductive StepsAgree : Progress → Progress → Prop where
  | went {s u : State} (h : AgreeLive s u) : StepsAgree (.went s) (.went u)
  | waits {s u : State} (h : AgreeLive s u) : StepsAgree (.waits s) (.waits u)

theorem StepsAgree.refl (p : Progress) : StepsAgree p p := by
  cases p with
  | went s => exact .went (.refl s)
  | waits s => exact .waits (.refl s)

theorem StepsAgree.state {p q : Progress} (h : StepsAgree p q) : AgreeLive p.state q.state := by
  cases h with
  | went h => exact h
  | waits h => exact h

section Phases
variable {s : State} (hline : s.env.resetLine = none) (cur : Byte) (old : CellWord)
include hline

/-! A step from a phase that reads neither register. -/

theorem tick_init_agree (hp : s.x.ph = .init) :
    StepsAgree (tick s) (tick (s.withCurOld cur old)) := by
  rw [tick_init hline hp, tick_init (s := s.withCurOld cur old) hline hp]
  cases hr : s.env.storeReady.take with
  | none =>
    rw [initStage_waits hr, initStage_waits (s := s.withCurOld cur old) hr]
    exact .waits (agreeLive_dead _ cur old (by simp))
  | some r =>
    rw [initStage_went hr, initStage_went (s := s.withCurOld cur old) hr]
    exact .went (agreeLive_dead _ cur old (by simp))

theorem tick_fetch_agree (hp : s.x.ph = .fetch) :
    StepsAgree (tick s) (tick (s.withCurOld cur old)) := by
  rw [tick_fetch hline hp, tick_fetch (s := s.withCurOld cur old) hline hp]
  rw [fetchPhase, fetchPhase, withCurOld_op]
  split
  · cases hs : s.env.source with
    | nil =>
      rw [fetchSource_waits hs, fetchSource_waits (s := s.withCurOld cur old) hs]
      exact .waits (agreeLive_dead _ cur old (by simp))
    | cons b rest =>
      rw [fetchSource_went hs, fetchSource_went (s := s.withCurOld cur old) hs]
      exact .went (agreeLive_old _ old (by simp))
  · exact .went (agreeLive_old _ old (by simp))

theorem tick_rd_agree (hp : s.x.ph = .rd) :
    StepsAgree (tick s) (tick (s.withCurOld cur old)) := by
  rw [tick_rd hline hp, tick_rd (s := s.withCurOld cur old) hline hp]
  rw [readPhase, readPhase, withCurOld_op]
  cases hr : s.env.storeReady.take with
  | none =>
    rw [readStage_waits hr, readStage_waits (s := s.withCurOld cur old) hr]
    split <;> exact .waits (agreeLive_dead _ cur old (by simp))
  | some r =>
    rw [readStage_went hr, readStage_went (s := s.withCurOld cur old) hr]
    split
    · exact .went (agreeLive_old _ old (by simp))
    · exact .went (agreeLive_old _ old (nextUnlessDone_ne (again := .rd) (by decide) (by decide) _))

theorem tick_resp_agree (hp : s.x.ph = .resp) :
    StepsAgree (tick s) (tick (s.withCurOld cur old)) := by
  rw [tick_resp hline hp, tick_resp (s := s.withCurOld cur old) hline hp]
  cases hr : s.env.rspReady.take with
  | none =>
    rw [respond_waits hr, respond_waits (s := s.withCurOld cur old) hr]
    exact .waits (agreeLive_dead _ cur old (by simp))
  | some r =>
    rw [respond_went hr, respond_went (s := s.withCurOld cur old) hr]
    exact .went (agreeLive_dead _ cur old (by simp))

/-! A step from a phase that reads `x[cur]`. -/

theorem tick_rmwRd_agree (hp : s.x.ph = .rmwRd) :
    StepsAgree (tick s) (tick (s.withCurOld s.x.cur old)) := by
  rw [tick_rmwRd hline hp, tick_rmwRd (s := s.withCurOld s.x.cur old) hline hp]
  cases hr : s.env.storeReady.take with
  | none =>
    rw [rmwRead_waits hr, rmwRead_waits (s := s.withCurOld s.x.cur old) hr]
    exact .waits (agreeLive_old _ old (by simp))
  | some r =>
    rw [rmwRead_went hr, rmwRead_went (s := s.withCurOld s.x.cur old) hr]
    exact .refl _

theorem tick_dst_agree (hp : s.x.ph = .dst) :
    StepsAgree (tick s) (tick (s.withCurOld s.x.cur old)) := by
  rw [tick_dst hline hp, tick_dst (s := s.withCurOld s.x.cur old) hline hp]
  cases hr : s.env.dstReady.take with
  | none =>
    rw [deliverByte_waits hr, deliverByte_waits (s := s.withCurOld s.x.cur old) hr]
    exact .waits (agreeLive_old _ old (by simp))
  | some r =>
    rw [deliverByte_went hr, deliverByte_went (s := s.withCurOld s.x.cur old) hr]
    exact .went (agreeLive_old _ old (nextUnlessDone_ne (again := .rd) (by decide) (by decide) _))

end Phases

/-- A step with a command in flight does not read a dead register. -/
theorem tick_agree {s u : State} (h : AgreeLive s u) (hline : s.env.resetLine = none) (hbusy : s.x.ph ≠ .idle) :
    StepsAgree (tick s) (tick u) := by
  obtain ⟨heq, hcur, hold⟩ := h
  rw [heq]
  cases hp : s.x.ph with
  | idle => exact absurd hp hbusy
  | init => exact tick_init_agree hline _ _ hp
  | fetch => exact tick_fetch_agree hline _ _ hp
  | rd => exact tick_rd_agree hline _ _ hp
  | resp => exact tick_resp_agree hline _ _ hp
  | rmwRd =>
    rw [hcur (.inl hp)]
    exact tick_rmwRd_agree hline _ hp
  | dst =>
    rw [hcur (.inr (.inr hp))]
    exact tick_dst_agree hline _ hp
  | rmwWr =>
    rw [hcur (.inr (.inl hp)), hold hp]
    exact .refl _

/-- Commands in flight that agree but for dead registers come to rest so. -/
theorem RestsAt.agree {s t u : State} (h : RestsAt s t) (hline : s.env.resetLine = none) (hbusy : s.x.ph ≠ .idle)
    (hu : AgreeLive s u) : ∃ v, RestsAt u v ∧ AgreeLive t v := by
  induction h generalizing u with
  | waits h =>
    have hagree := tick_agree hu hline hbusy
    rw [h] at hagree
    generalize hq : tick u = q at hagree
    cases hagree with
    | @waits _ v hv => exact ⟨v, .waits hq, hv⟩
  | responds h hp =>
    have hagree := tick_agree hu hline hbusy
    rw [h] at hagree
    generalize hq : tick u = q at hagree
    cases hagree with
    | @went _ v hv => exact ⟨v, .responds hq (by rw [hv.eq]; exact hp), hv⟩
  | goesOn h hp _ ih =>
    have hagree := tick_agree hu hline hbusy
    have same := tick_sameCommand hline hbusy
    rw [h] at hagree same
    generalize hq : tick u = q at hagree
    cases hagree with
    | @went _ v hv =>
      obtain ⟨w, hw, htw⟩ := ih (same.resetLine.trans hline) hp hv
      exact ⟨w, .goesOn hq (by rw [hv.eq]; exact hp) hw, htw⟩

/-! ### Acceptance -/

theorem admitted_with_registers (cmd : CmdCode) (addr : Loc) (wdata : Data) (count : Count) (s : State) (x : InFlight)
    (c : Option Channel) :
    admitted cmd addr wdata count { s with x := x, inFlight := c } =
      { admitted cmd addr wdata count s with
        x := { (admitted cmd addr wdata count s).x with ph := x.ph, cur := x.cur, old := x.old } } := by
  unfold admitted markOnAccept
  split
  · simp only [raiseRefuse_eq]; rfl
  · split
    · simp only [noteInit_eq]; rfl
    · rfl

/-- A request latched leaves nothing of the registers before it but dead ones. -/
theorem latchRequest_agree (r : Request) (s : State) (x : InFlight) (c : Option Channel) :
    AgreeLive (latchRequest r s) (latchRequest r { s with x := x, inFlight := c }) := by
  rw [latchRequest_eq r s, latchRequest_eq, admitted_with_registers _ _ _ _ s x c]
  refine agreeLive_dead ((admitted r.cmd r.addr r.wdata r.count s).enter _) x.cur x.old ?_
  simp only [State.enter_x, firstPhase]
  split
  · simp
  · split
    · simp
    · split <;> simp

/-- A command sees nothing of the reset input. -/
theorem commandRule_resetLine (cmd : CmdCode) (addr : Loc) (wdata : Data) (count : Count) (s : State)
    (line : Option ResetCause) :
    (commandRule cmd addr wdata count { s with env := { s.env with resetLine := line } }).state =
      { (commandRule cmd addr wdata count s).state with
        env := { (commandRule cmd addr wdata count s).state.env with resetLine := line } } := by
  have h := commandRule_aliased 0 line cmd addr wdata count s
  simp only [Nat.mul_zero, BitVec.add_zero] at h
  rw [h, Progress.map_state, State.aliased]
  simp

theorem AgreeLive.withResetLine {s u : State} (h : AgreeLive s u) (line : Option ResetCause) :
    AgreeLive { s with env := { s.env with resetLine := line } } { u with env := { u.env with resetLine := line } } :=
  ⟨by rw [h.eq]; rfl, h.cur, h.old⟩

/-- A command reads nothing of the registers before it: it is the Controller's steps from its acceptance, whatever the reset
input. -/
theorem commandRule_agree (cmd : CmdCode) (addr : Loc) (wdata : Data) (count : Count) (s : State) (x : InFlight)
    (c : Option Channel) :
    AgreeLive (commandRule cmd addr wdata count s).state
      (commandRule cmd addr wdata count { s with x := x, inFlight := c }).state := by
  have agree {s : State} (hline : s.env.resetLine = none) :
      AgreeLive (commandRule cmd addr wdata count s).state
        (commandRule cmd addr wdata count { s with x := x, inFlight := c }).state := by
    obtain ⟨v, hv, hagree⟩ := (latchRequest_restsAt hline ⟨cmd, addr, wdata, count⟩).agree
      (by simpa [latchRequest_eq] using hline) (latchRequest_busy _ _) (latchRequest_agree _ s x c)
    rwa [← hv.unique (latchRequest_restsAt (s := { s with x := x, inFlight := c }) hline ⟨cmd, addr, wdata, count⟩)]
  have hs := commandRule_resetLine cmd addr wdata count { s with env := { s.env with resetLine := none } } s.env.resetLine
  have hu := commandRule_resetLine cmd addr wdata count
    { s with x := x, inFlight := c, env := { s.env with resetLine := none } } s.env.resetLine
  have h := (agree (s := { s with env := { s.env with resetLine := none } }) rfl).withResetLine s.env.resetLine
  rwa [← hs, ← hu] at h

/-- Settles O38: the command's rule is the Controller's steps from its acceptance, which agree but for dead registers. -/
theorem inFlightRegistersAreDeadBetweenCommands : Obligations.InFlightRegistersAreDeadBetweenCommands := by
  intro i s x c
  obtain ⟨heq, hcur, hold⟩ := commandRule_agree i.code (encodeRequest i).addr (encodeRequest i).wdata
    (encodeRequest i).count s x c
  exact ⟨_, _, exec_eq_commandRule i s, exec_eq_commandRule i _, heq, hcur, hold⟩

end Sys2Proof.Machine
end

section
/-! The dead in-flight registers over whole runs (10_state.md R34): resets, acceptance and moves of the other agents. -/

namespace Sys2Proof.Machine

open Sys2Proof

/-- The two states differ in dead registers alone: in any register but `x[ph]` while both are IDLE, else as `AgreeLive`. -/
inductive DifferInDead (s u : State) : Prop where
  | idle (hs : s.x.ph = .idle) (hu : u.x.ph = .idle) (heq : u = { s with x := u.x })
  | inFlight (h : AgreeLive s u)

theorem DifferInDead.refl (s : State) : DifferInDead s s := .inFlight (.refl s)

theorem DifferInDead.eq {s u : State} (h : DifferInDead s u) : u = { s with x := u.x } := by
  cases h with
  | idle _ _ heq => exact heq
  | inFlight h => rw [h.eq]; rfl

theorem DifferInDead.phase {s u : State} (h : DifferInDead s u) : u.x.ph = s.x.ph := by
  cases h with
  | idle hs hu _ => rw [hs, hu]
  | inFlight h => rw [h.eq]; rfl

theorem DifferInDead.commandInFlight {s u : State} (h : DifferInDead s u) : u.commandInFlight = s.commandInFlight := by
  cases h with
  | idle hs hu _ => rw [commandInFlight_idle hs, commandInFlight_idle hu]
  | inFlight h => rw [h.eq]; rfl

/-- A reset reads the registers only where a store write is in flight (70_reset_and_hazards.md R184). -/
theorem DifferInDead.memAfterReset {s u : State} (h : DifferInDead s u) : u.memAfterReset = s.memAfterReset := by
  cases h with
  | idle hs hu heq =>
    have hmem : u.store.mem = s.store.mem := by rw [heq]
    simp [State.memAfterReset, State.writeInFlight, hs, hu, hmem]
  | inFlight h => rw [h.eq]; rfl

theorem DifferInDead.performReset {s u : State} (h : DifferInDead s u) (c : ResetCause) :
    Machine.performReset c u = Machine.performReset c s := by
  unfold Machine.performReset
  rw [h.memAfterReset, h.eq]

@[simp] theorem envMove_x (m : EnvMove) (s : State) : (envMove m s).x = s.x := by
  cases m with
  | foreignWrite i w => rw [envMove_foreignWrite]
  | _ => rfl

/-- A move of another agent reads of the registers the command in flight alone. -/
theorem envMove_with_registers (m : EnvMove) {s u : State} (heq : u = { s with x := u.x })
    (hcmd : u.commandInFlight = s.commandInFlight) : envMove m u = { envMove m s with x := u.x } := by
  cases m with
  | foreignWrite i w =>
    rw [envMove_foreignWrite, envMove_foreignWrite, hcmd, heq]
    rfl
  | _ => rw [heq]; rfl

theorem DifferInDead.envMove {s u : State} (h : DifferInDead s u) (m : EnvMove) :
    DifferInDead (Machine.envMove m s) (Machine.envMove m u) := by
  have heq := envMove_with_registers m h.eq h.commandInFlight
  cases h with
  | idle hs hu _ => exact .idle (by rwa [envMove_x]) (by rwa [envMove_x]) (by rw [envMove_x, heq])
  | inFlight h =>
    have hx : u.x = { s.x with cur := u.x.cur, old := u.x.old } := by rw [h.eq]; rfl
    exact .inFlight ⟨by rw [envMove_x, State.withCurOld, envMove_x, heq, ← hx],
      by simpa using h.cur, by simpa using h.old⟩

theorem DifferInDead.acceptStage {s u : State} (h : DifferInDead s u) :
    DifferInDead (Machine.acceptStage s).state (Machine.acceptStage u).state := by
  have hreq : u.env.requests = s.env.requests := by rw [h.eq]
  unfold Machine.acceptStage
  rw [hreq]
  split
  · exact h
  · rename_i r rest _
    have hu : takeRequest r rest u = { takeRequest r rest s with x := u.x } := by rw [h.eq]; rfl
    rw [Progress.went_state, Progress.went_state, hu]
    exact .inFlight (latchRequest_agree r (takeRequest r rest s) u.x _)

theorem DifferInDead.tick {s u : State} (h : DifferInDead s u) :
    DifferInDead (Machine.tick s).state (Machine.tick u).state := by
  have hline : u.env.resetLine = s.env.resetLine := by rw [h.eq]
  cases hr : s.env.resetLine with
  | some c =>
    rw [tick_reset hr, tick_reset (hline.trans hr), Progress.went_state, Progress.went_state, h.performReset]
    exact .refl _
  | none =>
    by_cases hp : s.x.ph = .idle
    · rw [tick_idle hr hp, tick_idle (hline.trans hr) (h.phase.trans hp)]
      exact h.acceptStage
    · cases h with
      | idle hs _ _ => exact absurd hs hp
      | inFlight h => exact .inFlight (tick_agree h hr hp).state

theorem DifferInDead.runActs (acts : List Act) {s u : State} (h : DifferInDead s u) :
    DifferInDead (Machine.runActs acts s) (Machine.runActs acts u) := by
  induction acts generalizing s u with
  | nil => exact h
  | cons a acts ih =>
    cases a with
    | controller => exact ih h.tick
    | env m => exact ih (h.envMove m)

/-- Settles O39: both states IDLE, they differ in dead registers alone, and every act keeps that. -/
theorem deadRegistersAreNeverRead : Obligations.DeadRegistersAreNeverRead := by
  intro acts s x hs hx
  have h : DifferInDead (runActs acts s) (runActs acts { s with x := x }) :=
    DifferInDead.runActs acts (.idle hs hx rfl)
  exact ⟨h.eq, h.phase, h.commandInFlight⟩

end Sys2Proof.Machine
end

section
/-! Address translation, lanes, and the canonical form of the byte space (20_memory.md R50 to R57, R65). -/

namespace Sys2Proof.Machine

open Sys2Proof

/-! ### Translation and lanes -/

/-- Settles O6: the sum of two 16-bit values does not overflow 17 bits, and 4096 keeps its low 12. -/
theorem byteOffsetsWrapAt4096 : Obligations.ByteOffsetsWrapAt4096 := byteOffset_toNat

theorem normalise_toNat (loc : Loc) : (normalise loc).toNat = loc.toNat % 4096 := by
  simp [normalise]

/-- Byte 0 of a command is at the presented address, reduced. -/
theorem byteOffset_zero (loc : Loc) : byteOffset loc 0 = normalise loc :=
  BitVec.eq_of_toNat_eq (by rw [byteOffset_toNat, normalise_toNat]; rfl)

/-- The lane of a presented address is its parity (20_memory.md R52). -/
theorem lane_normalise (loc : Loc) : lane (normalise loc) = true ↔ loc.toNat % 2 = 1 := by
  rw [lane_eq, normalise_toNat, decide_eq_true_eq]
  omega

/-- Settles O7: the offset is the low 12 bits, the cell and the lane its quotient and remainder by two. -/
theorem translationOfAPresentedAddress : Obligations.TranslationOfAPresentedAddress := by
  intro loc
  refine ⟨normalise_toNat loc, byteOffset_zero loc, ?_, lane_normalise loc, fun w => ?_⟩
  · rw [wordIndex_toNat, normalise_toNat]
  · simp only [laneByte, lane_normalise]

/-- The sibling of an even offset is the one above it, that of an odd offset the one below (00_scope.md R12). -/
theorem sibling_toNat (off : Offset) :
    (sibling off).toNat = if off.toNat % 2 = 1 then off.toNat - 1 else off.toNat + 1 := by
  have hhalf : (off.toNat ^^^ 1) / 2 = off.toNat / 2 := by simp [Nat.xor_div_two]
  have hlow : (off.toNat ^^^ 1) % 2 = (off.toNat + 1) % 2 := Nat.xor_mod_two_eq
  have hxor : (sibling off).toNat = off.toNat ^^^ 1 := rfl
  split <;> omega

theorem wordIndex_sibling (off : Offset) : wordIndex (sibling off) = wordIndex off := by
  apply BitVec.eq_of_toNat_eq
  rw [wordIndex_toNat, wordIndex_toNat, sibling_toNat]
  split <;> omega

theorem lane_sibling (off : Offset) : lane (sibling off) = !lane off := by
  rw [lane_eq, lane_eq, sibling_toNat]
  by_cases h : off.toNat % 2 = 1
  · rw [if_pos h, decide_eq_true h, Bool.not_true, decide_eq_false_iff_not]
    omega
  · rw [if_neg h, decide_eq_false h, Bool.not_false, decide_eq_true_eq]
    omega

theorem laneByte_mergeByte (off : Offset) (b : Byte) (old : CellWord) : laneByte off (mergeByte off b old) = b := by
  unfold laneByte mergeByte
  cases lane off
  · exact extractLsb'_append_low _ b
  · exact extractLsb'_append_high b _

theorem laneByte_sibling_mergeByte (off : Offset) (b : Byte) (old : CellWord) :
    laneByte (sibling off) (mergeByte off b old) = laneByte (sibling off) old := by
  unfold laneByte mergeByte
  rw [lane_sibling]
  cases lane off
  · exact extractLsb'_append_high _ b
  · exact extractLsb'_append_low b _

/-- Settles O8: the sibling is the same cell's other lane, which the merge takes from the old word. -/
theorem mergeKeepsTheSiblingByte : Obligations.MergeKeepsTheSiblingByte := fun off b old =>
  ⟨laneByte_mergeByte off b old, laneByte_sibling_mergeByte off b old, wordIndex_sibling off⟩

/-! ### The canonical form determines the bytes -/

theorem findCell_below {lo a : Nat} (h : a < lo) {l : List Host.Cell} (hl : risingFrom lo l = true) :
    findCell a l = none := by
  induction l generalizing lo with
  | nil => rfl
  | cons c l ih =>
    obtain ⟨a', b⟩ := c
    simp only [risingFrom, Bool.and_eq_true, decide_eq_true_eq] at hl
    obtain ⟨hlo, hrest⟩ := hl
    rw [findCell, if_neg (by omega)]
    exact ih (by omega) hrest

theorem mem_of_findCell {a : Nat} {b : Byte} {l : List Host.Cell} (h : findCell a l = some b) : (a, b) ∈ l := by
  induction l with
  | nil => cases h
  | cons c l ih =>
    obtain ⟨a', b'⟩ := c
    rw [findCell] at h
    split at h
    · rename_i ha
      cases h
      exact ha ▸ List.mem_cons_self
    · exact List.mem_cons_of_mem _ (ih h)

/-- Where every offset finds the same byte in two lists, the head of the rising one is not above the head of the other. -/
theorem head_le_of_findCell_eq {a a' lo : Nat} {b b' : Byte} {l l' : List Host.Cell}
    (hl' : risingFrom lo ((a', b') :: l') = true)
    (h : ∀ o, findCell o ((a, b) :: l) = findCell o ((a', b') :: l')) : a' ≤ a := by
  by_contra hlt
  simp only [risingFrom, Bool.and_eq_true] at hl'
  have hfound := h a
  rw [findCell, if_pos rfl, findCell, if_neg (by omega), findCell_below (by omega) hl'.2] at hfound
  cases hfound

/-- Two rising lists in which every offset finds the same byte are the same list. -/
theorem eq_of_findCell_eq {lo lo' : Nat} {l l' : List Host.Cell} (hl : risingFrom lo l = true)
    (hl' : risingFrom lo' l' = true) (h : ∀ a, findCell a l = findCell a l') : l = l' := by
  induction l generalizing lo lo' l' with
  | nil =>
    cases l' with
    | nil => rfl
    | cons c l' => have := h c.1; simp [findCell] at this
  | cons c l ih =>
    cases l' with
    | nil => have := h c.1; simp [findCell] at this
    | cons c' l' =>
      obtain ⟨a, b⟩ := c
      obtain ⟨a', b'⟩ := c'
      obtain rfl : a = a' :=
        Nat.le_antisymm (head_le_of_findCell_eq hl fun o => (h o).symm) (head_le_of_findCell_eq hl' h)
      obtain rfl : b = b' := by simpa [findCell] using h a
      simp only [risingFrom, Bool.and_eq_true] at hl hl'
      rw [ih hl.2 hl'.2 fun o => ?_]
      by_cases ho : a = o
      · rw [findCell_below (by omega) hl.2, findCell_below (by omega) hl'.2]
      · simpa [findCell, ho] using h o

/-- In the canonical form an offset is listed exactly where it reads other than an unlisted one. -/
theorem Memory.findCell_eq {m : Memory} (h : m.wf = true) (a : Nat) :
    findCell a m.cells = if m.read a = m.unlisted a then none else some (m.read a) := by
  unfold Memory.read
  cases hf : findCell a m.cells with
  | none => simp
  | some b =>
    obtain ⟨-, hne⟩ := ((Memory.wf_iff m).mp h).2 _ (mem_of_findCell hf)
    simp [hne]

/-- Settles O10: the listed bytes are the bytes read that differ from an unlisted one, and a rising list is given by what
its offsets find. -/
theorem canonicalMemoriesThatReadAlikeAreEqual : Obligations.CanonicalMemoriesThatReadAlikeAreEqual := by
  intro m m' h h' hlost hread
  have hunlisted (a : Nat) : m.unlisted a = m'.unlisted a := by simp [Memory.unlisted, hlost]
  have hcells : m.cells = m'.cells :=
    eq_of_findCell_eq ((Memory.wf_iff m).mp h).1 ((Memory.wf_iff m').mp h').1 fun a => by
      rw [Memory.findCell_eq h, Memory.findCell_eq h', hread, hunlisted]
  cases m
  cases m'
  exact congr (congrArg Memory.mk hcells) hlost

end Sys2Proof.Machine
end

section
/-! The store under its trace (20_memory.md R71): every transfer on an OK store reads the cells as the writes before it leave
them, so a command does. -/

namespace Sys2Proof.Machine

open Sys2Proof

/-- The bytes after two lists of events are those of the second after the first. -/
theorem replay_append (m : Memory) (es es' : List Event) : replay m (es ++ es') = replay (replay m es) es' := by
  induction es generalizing m with
  | nil => rfl
  | cons e es ih => cases e <;> exact ih _

theorem coherent_append (m : Memory) (es es' : List Event) :
    coherent m (es ++ es') ↔ coherent m es ∧ coherent (replay m es) es' := by
  induction es generalizing m with
  | nil => simp [coherent, replay]
  | cons e es ih =>
    cases e with
    | storeRead i w => simp only [List.cons_append, coherent, replay, ih, and_assoc]
    | _ => exact ih _

/-- From `s` to `t` the OK store is faithful to its trace: the events made between the two read what the writes leave, and
the bytes are as the writes leave them. -/
structure Faithful (s t : State) : Prop where
  status : t.store.status = .ok
  trace : ∃ es, t.history = s.history ++ es ∧ coherent s.store.mem es ∧ t.store.mem = replay s.store.mem es

theorem Faithful.refl {s : State} (h : s.store.status = .ok) : Faithful s s :=
  ⟨h, [], by simp [coherent, replay]⟩

theorem Faithful.trans {s t u : State} (h : Faithful s t) (h' : Faithful t u) : Faithful s u := by
  obtain ⟨-, es, hist, hcoh, hmem⟩ := h
  obtain ⟨hok, es', hist', hcoh', hmem'⟩ := h'
  refine ⟨hok, es ++ es', ?_, ?_, ?_⟩
  · rw [hist', hist, List.append_assoc]
  · exact (coherent_append _ _ _).mpr ⟨hcoh, hmem ▸ hcoh'⟩
  · rw [hmem', hmem, replay_append]

theorem Faithful.andThen {s : State} {p : Progress} {f : State → Progress} (hp : Faithful s p.state)
    (hf : ∀ t, t.store.status = .ok → Faithful t (f t).state) : Faithful s (p.andThen f).state :=
  Progress.andThen_keeps (P := Faithful s) hp fun t ht => ht.trans (hf t ht.status)

section Stages
variable {s : State} (hok : s.store.status = .ok)
include hok

/-- A step that makes no event and no change of the store. -/
theorem faithful_of_no_event {t : State} (hstore : t.store = s.store) (hhist : t.history = s.history) : Faithful s t :=
  ⟨by rw [hstore, hok], [], by simp [coherent, replay, hstore, hhist]⟩

theorem fetchData_faithful : Faithful s (fetchData s).state := faithful_of_no_event hok rfl rfl

theorem fetchSource_faithful : Faithful s (fetchSource s).state := by
  cases hs : s.env.source with
  | nil => rw [fetchSource_waits hs]; exact faithful_of_no_event hok rfl rfl
  | cons b rest => rw [fetchSource_went hs]; exact ⟨hok, _, rfl, trivial, rfl⟩

theorem rmwRead_faithful : Faithful s (rmwRead s).state := by
  cases hr : s.env.storeReady.take with
  | none => rw [rmwRead_waits hr]; exact faithful_of_no_event hok rfl rfl
  | some r => rw [rmwRead_went hr]; exact ⟨hok, _, rfl, by simp [coherent, State.readWord, hok], rfl⟩

theorem rmwWrite_faithful : Faithful s (rmwWrite s).state := by
  cases hr : s.env.storeReady.take with
  | none => rw [rmwWrite_waits hr]; exact faithful_of_no_event hok rfl rfl
  | some r => rw [rmwWrite_went hr]; exact ⟨hok, _, rfl, trivial, by simp [replay, State.memAfterWrite, hok]⟩

theorem readStage_faithful : Faithful s (readStage s).state := by
  cases hr : s.env.storeReady.take with
  | none => rw [readStage_waits hr]; exact faithful_of_no_event hok rfl rfl
  | some r => rw [readStage_went hr]; exact ⟨hok, _, rfl, by simp [coherent, State.readWord, hok], rfl⟩

theorem assembleByte_faithful : Faithful s (assembleByte s).state := faithful_of_no_event hok rfl rfl

theorem deliverByte_faithful : Faithful s (deliverByte s).state := by
  cases hr : s.env.dstReady.take with
  | none => rw [deliverByte_waits hr]; exact faithful_of_no_event hok rfl rfl
  | some r => rw [deliverByte_went hr]; exact ⟨hok, _, rfl, trivial, rfl⟩

theorem respond_faithful (d : Data) (ok : Bool) : Faithful s (respond d ok s).state := by
  cases hr : s.env.rspReady.take with
  | none => rw [respond_waits hr]; exact faithful_of_no_event hok rfl rfl
  | some r => rw [respond_went hr]; exact ⟨hok, _, rfl, trivial, rfl⟩

theorem byteRule_faithful (cmd : CmdCode) : Faithful s (byteRule cmd s).state := by
  have read := readStage_faithful hok
  have write {p : Progress} (h : Faithful s p.state) : Faithful s ((p.andThen rmwRead).andThen rmwWrite).state :=
    (h.andThen fun _ => rmwRead_faithful).andThen fun _ => rmwWrite_faithful
  unfold byteRule
  split
  · split
    · exact write (fetchSource_faithful hok)
    · exact read.andThen fun _ => deliverByte_faithful
  · split
    · exact write (fetchData_faithful hok)
    · exact read.andThen fun _ => assembleByte_faithful

end Stages

@[simp] theorem admitted_history (cmd : CmdCode) (addr : Loc) (wdata : Data) (count : Count) (s : State) :
    (admitted cmd addr wdata count s).history = s.history := by
  simp [admitted]

/-- A whole command other than INIT on an OK store. -/
theorem commandRule_faithful {cmd : CmdCode} (hcmd : cmd ≠ 0x8) {s : State} (hok : s.store.status = .ok) (addr : Loc)
    (wdata : Data) (count : Count) : Faithful s (commandRule cmd addr wdata count s).state := by
  have hadmitted : Faithful s (admitted cmd addr wdata count s) :=
    faithful_of_no_event hok (admitted_store ..) (admitted_history ..)
  refine Faithful.andThen (f := respondFor cmd) ?_ fun t ht => respond_faithful ht _ _
  rw [commandBody, if_neg (by rwa [isInit_iff])]
  exact repeatBytes_keeps (P := Faithful s) (fun t ht => ht.trans (byteRule_faithful ht.status cmd)) _ _ hadmitted

/-- Settles O36: each stage is faithful to the trace, so the whole command is. -/
theorem storeReadsReturnTheLastWrite : Obligations.StoreReadsReturnTheLastWrite := by
  intro i s hok hcode
  obtain ⟨-, es, hist, hcoh, hmem⟩ := commandRule_faithful hcode hok (encodeRequest i).addr (encodeRequest i).wdata
    (encodeRequest i).count
  exact ⟨_, es, exec_eq_commandRule i s, hist, hcoh, fun a => by rw [hmem]⟩

end Sys2Proof.Machine
end

section
/-! Writing bytes at consecutive offsets (20_memory.md R54, R59): which byte each offset ends with, and the transfers that
write them, in closed form. -/

namespace Sys2Proof.Machine

open Sys2Proof

/-! ### Offsets -/

theorem offsetAt_toNat (loc : Loc) (j : Nat) : (offsetAt loc j).toNat = (loc.toNat + j) % 4096 := by
  rw [offsetAt, byteOffset_toNat, BitVec.toNat_ofNat]
  omega

theorem offsetAt_eq_iff (loc : Loc) (j k : Nat) : offsetAt loc j = offsetAt loc k ↔ j % 4096 = k % 4096 := by
  rw [← BitVec.toNat_inj, offsetAt_toNat, offsetAt_toNat]
  omega

/-! ### The byte each offset ends with -/

/-- The last of `bytes`, stored at `a_k, a_(k+1), …` in order, that is stored at offset `a`. -/
def storedByte (loc : Loc) (k : Nat) (bytes : List Byte) (a : Nat) : Option Byte :=
  match bytes with
  | [] => none
  | b :: bs => (storedByte loc (k + 1) bs a).or (if a = (offsetAt loc k).toNat then some b else none)

/-- An offset none of the bytes is stored at. -/
theorem storedByte_eq_none {loc : Loc} {k a : Nat} {bytes : List Byte}
    (h : ∀ i, k ≤ i → i < k + bytes.length → a ≠ (offsetAt loc i).toNat) : storedByte loc k bytes a = none := by
  induction bytes generalizing k with
  | nil => rfl
  | cons b bs ih =>
    rw [List.length_cons] at h
    have hrest : storedByte loc (k + 1) bs a = none := ih fun i hk hi => h i (by omega) (by omega)
    rw [storedByte, hrest, if_neg (h k (by omega) (by omega))]
    rfl

/-- The offset of byte `i`, where no later byte is stored at it. -/
theorem storedByte_eq_some {loc : Loc} {k i j : Nat} {b : Byte} {bytes : List Byte} (hi : i = k + j)
    (hb : bytes[j]? = some b)
    (hlast : ∀ i', i < i' → i' < k + bytes.length → offsetAt loc i' ≠ offsetAt loc i) :
    storedByte loc k bytes (offsetAt loc i).toNat = some b := by
  induction bytes generalizing k j with
  | nil => simp at hb
  | cons c bs ih =>
    rw [List.length_cons] at hlast
    rw [storedByte]
    cases j with
    | zero =>
      obtain rfl : c = b := by simpa using hb
      obtain rfl : i = k := hi
      have hrest : storedByte loc (i + 1) bs (offsetAt loc i).toNat = none := storedByte_eq_none fun i' hk hi' heq =>
        hlast i' (by omega) (by omega) (BitVec.eq_of_toNat_eq heq.symm)
      rw [hrest, if_pos rfl]
      rfl
    | succ j =>
      rw [ih (k := k + 1) (j := j) (by omega) (by simpa using hb) fun i' hlt hi' => hlast i' hlt (by omega)]
      rfl

/-- Bytes that are the ones last stored, where any is, and else as before, are the bytes stored in order. -/
theorem storedAt_of_storedByte {m m' : Memory} {loc : Loc} {bytes : List Byte}
    (h : ∀ a, m'.read a = (storedByte loc 0 bytes a).getD (m.read a)) : StoredAt m m' loc bytes := by
  refine ⟨fun j b hb hlast => ?_, fun a ha => ?_⟩
  · rw [h, storedByte_eq_some (Nat.zero_add j).symm hb (by simpa using hlast), Option.getD_some]
  · have hnone : storedByte loc 0 bytes a = none := storedByte_eq_none fun i _ hi heq => ha ⟨i, by omega, heq⟩
    rw [h, hnone, Option.getD_none]

/-! ### The transfers -/

/-- The event of fetching byte `k`: a block write takes it from the source stream, another write has it in `x[wdata]`. -/
def fetchEvents (block : Bool) (k : Count) (b : Byte) : List Event := if block then [.source k b] else []

/-- The events of writing `bytes` from byte `k` on to a faithful store that holds `m`, of a block write or another. -/
def writeEventsFor (block : Bool) (m : Memory) (loc : Loc) (k : Nat) (bytes : List Byte) : List Event :=
  if block then blockWriteEvents m loc k bytes else writeEvents m loc k bytes

@[simp] theorem writeEventsFor_nil (block : Bool) (m : Memory) (loc : Loc) (k : Nat) :
    writeEventsFor block m loc k [] = [] := by
  cases block <;> rfl

theorem writeEventsFor_cons (block : Bool) (m : Memory) (loc : Loc) (k : Nat) (b : Byte) (bs : List Byte) :
    writeEventsFor block m loc k (b :: bs) =
      fetchEvents block (BitVec.ofNat 16 k) b ++
        [.storeRead (cellAt loc k) (m.cell (cellAt loc k)),
         .storeWrite (cellAt loc k) (mergeByte (offsetAt loc k) b (m.cell (cellAt loc k)))] ++
        writeEventsFor block (m.write (offsetAt loc k).toNat b) loc (k + 1) bs := by
  cases block <;> rfl

/-- The events depend on the bytes the store holds alone. -/
theorem writeEventsFor_congr {m m' : Memory} (h : ∀ a, m.read a = m'.read a) (block : Bool) (loc : Loc) (k : Nat)
    (bytes : List Byte) : writeEventsFor block m loc k bytes = writeEventsFor block m' loc k bytes := by
  induction bytes generalizing m m' k with
  | nil => simp
  | cons b bs ih =>
    have hwrite (a : Nat) : (m.write (offsetAt loc k).toNat b).read a = (m'.write (offsetAt loc k).toNat b).read a := by
      rw [Memory.read_write, Memory.read_write, h]
    rw [writeEventsFor_cons, writeEventsFor_cons, Memory.cell_congr h, ih hwrite]

theorem fetchEvents_length (block : Bool) (k : Count) (b : Byte) : (fetchEvents block k b).length = block.toNat := by
  cases block <;> rfl

theorem writeEventsFor_length (block : Bool) (m : Memory) (loc : Loc) (k : Nat) (bytes : List Byte) :
    (writeEventsFor block m loc k bytes).length = (2 + block.toNat) * bytes.length := by
  induction bytes generalizing m k with
  | nil => simp
  | cons b bs ih =>
    rw [writeEventsFor_cons, List.length_append, List.length_append, fetchEvents_length, ih, List.length_cons,
      List.length_cons, List.length_cons, List.length_nil]
    ring

theorem storeTrace_append (es es' : List Event) : storeTrace (es ++ es') = storeTrace es ++ storeTrace es' :=
  List.filter_append ..

/-- Two store transfers for each byte (70_reset_and_hazards.md R195). -/
theorem storeTrace_writeEventsFor_length (block : Bool) (m : Memory) (loc : Loc) (k : Nat) (bytes : List Byte) :
    (storeTrace (writeEventsFor block m loc k bytes)).length = 2 * bytes.length := by
  induction bytes generalizing m k with
  | nil => simp [storeTrace]
  | cons b bs ih =>
    have hfetch : storeTrace (fetchEvents block (BitVec.ofNat 16 k) b) = [] := by cases block <;> rfl
    have hpair (i : WordIndex) (w w' : CellWord) :
        storeTrace [.storeRead i w, .storeWrite i w'] = [.storeRead i w, .storeWrite i w'] := rfl
    rw [writeEventsFor_cons, storeTrace_append, storeTrace_append, hfetch, hpair, List.length_append, ih,
      List.length_cons]
    exact Nat.add_comm 2 _

/-- The store after writing `bytes` from byte `k` on, each at its offset. -/
def Memory.writeBytes (m : Memory) (loc : Loc) (k : Nat) (bytes : List Byte) : Memory :=
  match bytes with
  | [] => m
  | b :: bs => (m.write (offsetAt loc k).toNat b).writeBytes loc (k + 1) bs

theorem Memory.read_writeBytes (m : Memory) (loc : Loc) (k : Nat) (bytes : List Byte) (a : Nat) :
    (m.writeBytes loc k bytes).read a = (storedByte loc k bytes a).getD (m.read a) := by
  induction bytes generalizing m k with
  | nil => rfl
  | cons b bs ih =>
    rw [Memory.writeBytes, ih, Memory.read_write, storedByte]
    cases storedByte loc (k + 1) bs a with
    | some c => rfl
    | none => by_cases h : a = (offsetAt loc k).toNat <;> simp [h]

theorem writeEventsFor_append (block : Bool) (m : Memory) (loc : Loc) (k : Nat) (bs bs' : List Byte) :
    writeEventsFor block m loc k (bs ++ bs') =
      writeEventsFor block m loc k bs ++ writeEventsFor block (m.writeBytes loc k bs) loc (k + bs.length) bs' := by
  induction bs generalizing m k with
  | nil => rw [writeEventsFor_nil]; rfl
  | cons b bs ih =>
    rw [List.cons_append, writeEventsFor_cons, writeEventsFor_cons, ih, List.append_assoc _ _ (writeEventsFor ..),
      Memory.writeBytes, List.length_cons, Nat.add_right_comm k]
    rfl

/-- The events up to the first `r` store transfers, 0 or 1, of one of the bytes. -/
theorem writeEventsFor_take (block : Bool) (m : Memory) (loc : Loc) (bs : List Byte) (b : Byte) (rest : List Byte) {r : Nat}
    (hr : r < 2) :
    (writeEventsFor block m loc 0 (bs ++ b :: rest)).take ((2 + block.toNat) * bs.length + (block.toNat + r)) =
      writeEventsFor block m loc 0 bs ++ (fetchEvents block (BitVec.ofNat 16 bs.length) b ++
        [.storeRead (cellAt loc bs.length) ((m.writeBytes loc 0 bs).cell (cellAt loc bs.length))].take r) := by
  rw [writeEventsFor_append, ← writeEventsFor_length block m loc 0 bs, List.take_length_add_append, Nat.zero_add,
    writeEventsFor_cons, List.append_assoc, ← fetchEvents_length block (BitVec.ofNat 16 bs.length) b,
    List.take_length_add_append]
  match r with
  | 0 => rfl
  | 1 => rfl

end Sys2Proof.Machine
end

section
/-! The write commands byte by byte (20_memory.md R56, R59, 43_block_access.md R143): one state for each byte written, and what
writing a list of bytes leaves in each field. WR8, WR16, WR32 and WRBLK differ in where a byte comes from alone. -/

namespace Sys2Proof.Machine

open Sys2Proof

/-! ### One byte -/

/-- Row FETCH: a block write takes the byte from the source stream, another write from `x[wdata]` (10_state.md R24). -/
def fetchFor (block : Bool) : State → Progress := if block then fetchSource else fetchData

/-- One byte of a write command. -/
def writeByte (block : Bool) (s : State) : Progress := ((fetchFor block s).andThen rmwRead).andThen rmwWrite

theorem byteRule_of_isWrite {cmd : CmdCode} (h : isWrite cmd = true) : byteRule cmd = writeByte (isBlock cmd) := by
  funext s
  unfold byteRule writeByte fetchFor
  rw [if_pos h, if_pos h]
  cases isBlock cmd <;> rfl

/-- The source bytes left after a write of `n` bytes. -/
def State.sourceAfter (s : State) (block : Bool) (n : Nat) : List Byte :=
  if block then s.env.source.drop n else s.env.source

/-- The next bytes the write fetches are `bytes`: they wait on the source stream, or are those of `x[wdata]` from byte `x[k]`
on (20_memory.md R58). -/
def State.offers (s : State) (block : Bool) (bytes : List Byte) : Prop :=
  if block then bytes <+: s.env.source
  else ∀ j b, bytes[j]? = some b → b = dataByte s.x.wdata (s.x.k + BitVec.ofNat 16 j)

/-- The state with the byte `b` fetched. -/
def State.fetched (s : State) (block : Bool) (b : Byte) : State :=
  { s with
      x := { s.x with ph := .fetch, cur := b }
      env := { s.env with source := s.sourceAfter block 1 }
      inFlight := if block then none else s.inFlight
      history := s.history ++ fetchEvents block s.x.k b }

/-- The state with the byte `b` written: fetched, the cell read, its merge written, whatever the store's status. -/
def State.wrote (block : Bool) (s : State) (b : Byte) : State :=
  { s with
      x := { s.x with ph := .rmwWr, cur := b, old := s.readWord (wordIndex s.currentOffset), k := s.x.k + 1 }
      inFlight := none
      env := { s.env with storeReady := s.env.storeReady.after 2, source := s.sourceAfter block 1 }
      store := { s.store with
        mem := State.memAfterWrite { s with draws := s.drawsAfter 1 } (wordIndex s.currentOffset)
          (mergeByte s.currentOffset b (s.readWord (wordIndex s.currentOffset))) }
      draws := s.drawsAfter 2
      history := s.history ++ fetchEvents block s.x.k b ++
        [.storeRead (wordIndex s.currentOffset) (s.readWord (wordIndex s.currentOffset)),
         .storeWrite (wordIndex s.currentOffset)
           (mergeByte s.currentOffset b (s.readWord (wordIndex s.currentOffset)))] }

/-- The Controller waits in the byte `b` of a write, fetched at the state `s`, with `r` of its two store transfers made, 0 or 1
(60_exceptions.md R173). -/
structure WaitsInByte (block : Bool) (b : Byte) (r : Nat) (s t : State) : Prop where
  store : t.store = s.store
  history : t.history = s.history ++ fetchEvents block s.x.k b ++
    [.storeRead (wordIndex s.currentOffset) (s.readWord (wordIndex s.currentOffset))].take r
  source : t.env.source = s.sourceAfter block 1
  index : t.x.k = s.x.k
  phase : t.x.ph = if r = 0 then .rmwRd else .rmwWr
  inFlight : t.inFlight = some .storePort

section Byte
variable {s : State} {block : Bool} {b : Byte} {bs : List Byte}

theorem fetchFor_went (h : s.offers block (b :: bs)) : fetchFor block s = .went (s.fetched block b) := by
  cases block with
  | true =>
    obtain ⟨rest, hrest⟩ := h
    rw [fetchFor, if_pos rfl, fetchSource_went hrest.symm]
    simp [State.fetched, State.sourceAfter, fetchEvents, ← hrest]
  | false =>
    have hb : b = dataByte s.x.wdata s.x.k := by
      have := h 0 b rfl
      rwa [BitVec.add_zero] at this
    simp [fetchFor, fetchData, State.fetched, State.sourceAfter, fetchEvents, hb]

theorem writeByte_went (hoff : s.offers block (b :: bs)) (hready : s.env.storeReady.admits 2 = true) :
    writeByte block s = .went (s.wrote block b) := by
  have hread : s.env.storeReady.take = some (s.env.storeReady.after 1) := Readiness.take_of_admits hready
  have hwrite : (s.env.storeReady.after 1).take = some (s.env.storeReady.after 2) := by
    rw [Readiness.take_of_admits (k := 0) (Readiness.admits_after (j := 1) hready), Readiness.after_after]
  rw [writeByte, fetchFor_went hoff, Progress.went_andThen, rmwRead_went (s := s.fetched block b) hread,
    Progress.went_andThen, rmwWrite_went hwrite]
  cases hst : s.store.status <;>
    simp [State.wrote, State.fetched, State.readWord, State.drawsNext, State.drawsAfter, State.memAfterWrite,
      State.currentOffset, hst]

theorem offers_wrote (h : s.offers block (b :: bs)) : (s.wrote block b).offers block bs := by
  cases block with
  | true =>
    obtain ⟨rest, hrest⟩ := h
    exact ⟨rest, by simp [State.wrote, State.sourceAfter, ← hrest]⟩
  | false =>
    intro j c hc
    rw [h (j + 1) c (by simpa using hc)]
    simp only [State.wrote, BitVec.add_assoc]
    congr 2
    rw [Nat.add_comm j 1, BitVec.ofNat_add]
    rfl

/-- A byte whose store answers `r` of its two transfers, 0 or 1, waits for the next of them. -/
theorem writeByte_waits {r : Nat} (hoff : s.offers block (b :: bs)) (hready : s.env.storeReady = .times r) (hr : r < 2) :
    ∃ t, writeByte block s = .waits t ∧ WaitsInByte block b r s t := by
  rw [writeByte, fetchFor_went hoff, Progress.went_andThen]
  match r with
  | 0 =>
    have hread : (s.fetched block b).env.storeReady.take = none := Readiness.take_eq_none.mpr hready
    rw [rmwRead_waits hread]
    exact ⟨_, rfl, rfl, (List.append_nil _).symm, rfl, rfl, rfl, rfl⟩
  | 1 =>
    have hread : (s.fetched block b).env.storeReady.take = some (.times 0) := by
      rw [State.fetched, hready]
      rfl
    rw [rmwRead_went hread, Progress.went_andThen, rmwWrite_waits rfl]
    exact ⟨_, rfl, rfl, rfl, rfl, rfl, rfl, rfl⟩

end Byte

/-! ### A list of bytes -/

/-- The state with `bytes` written, one after the other. -/
def State.wroteAll (s : State) (block : Bool) (bytes : List Byte) : State := bytes.foldl (State.wrote block) s

theorem wroteAll_cons (s : State) (block : Bool) (b : Byte) (bs : List Byte) :
    s.wroteAll block (b :: bs) = (s.wrote block b).wroteAll block bs := rfl

theorem repeatBytes_add (m n : Nat) (body : State → Progress) (s : State) :
    repeatBytes (m + n) body s = (repeatBytes m body s).andThen (repeatBytes n body) := by
  induction m generalizing s with
  | zero => rw [Nat.zero_add]; rfl
  | succ m ih =>
    rw [Nat.succ_add, repeatBytes_succ, repeatBytes_succ, Progress.andThen_assoc]
    exact congrArg _ (funext ih)

/-- A store that answers two transfers for each byte lets all be written, and the bytes after them are offered next. -/
theorem repeatBytes_writeByte {s : State} {block : Bool} {bs rest : List Byte} (hoff : s.offers block (bs ++ rest))
    (hready : s.env.storeReady.admits (2 * bs.length) = true) :
    repeatBytes bs.length (writeByte block) s = .went (s.wroteAll block bs) ∧
      (s.wroteAll block bs).offers block rest := by
  induction bs generalizing s with
  | nil => exact ⟨rfl, hoff⟩
  | cons b bs ih =>
    rw [List.length_cons, Nat.mul_succ, Nat.add_comm] at hready
    rw [List.length_cons, repeatBytes_succ, writeByte_went hoff (Readiness.admits_mono (by omega) hready)]
    exact ih (offers_wrote hoff) (Readiness.admits_after hready)

theorem wrote_sameCommand (s : State) (block : Bool) (b : Byte) : SameCommand s (s.wrote block b) :=
  ⟨rfl, rfl, rfl, rfl, rfl, rfl, rfl⟩

theorem wroteAll_sameCommand (s : State) (block : Bool) (bytes : List Byte) :
    SameCommand s (s.wroteAll block bytes) := by
  induction bytes generalizing s with
  | nil => exact .refl s
  | cons b bs ih => exact (wrote_sameCommand s block b).trans (ih _)

section Fields
variable (s : State) (block : Bool) (bytes : List Byte)

theorem wroteAll_status : (s.wroteAll block bytes).store.status = s.store.status := by
  induction bytes generalizing s with
  | nil => rfl
  | cons b bs ih => rw [wroteAll_cons, ih]; rfl

theorem wroteAll_index : (s.wroteAll block bytes).x.k = s.x.k + BitVec.ofNat 16 bytes.length := by
  induction bytes generalizing s with
  | nil => exact (BitVec.add_zero _).symm
  | cons b bs ih =>
    rw [wroteAll_cons, ih, List.length_cons, Nat.add_comm bs.length 1, BitVec.ofNat_add, ← BitVec.add_assoc]
    rfl

theorem wroteAll_storeReady :
    (s.wroteAll block bytes).env.storeReady = s.env.storeReady.after (2 * bytes.length) := by
  induction bytes generalizing s with
  | nil => exact (Readiness.after_zero _).symm
  | cons b bs ih =>
    rw [wroteAll_cons, ih, List.length_cons, Nat.mul_succ, Nat.add_comm, ← Readiness.after_after]
    rfl

theorem wroteAll_rspReady : (s.wroteAll block bytes).env.rspReady = s.env.rspReady := by
  induction bytes generalizing s with
  | nil => rfl
  | cons b bs ih => rw [wroteAll_cons, ih]; rfl

theorem wroteAll_source : (s.wroteAll block bytes).env.source = s.sourceAfter block bytes.length := by
  induction bytes generalizing s with
  | nil => cases block <;> rfl
  | cons b bs ih =>
    rw [wroteAll_cons, ih]
    cases block with
    | false => rfl
    | true => simp [State.sourceAfter, State.wrote, Nat.add_comm]

theorem wroteAll_draws : (s.wroteAll block bytes).draws = s.drawsAfter (2 * bytes.length) := by
  induction bytes generalizing s with
  | nil => cases h : s.store.status <;> simp [State.drawsAfter, State.wroteAll, h]
  | cons b bs ih =>
    rw [wroteAll_cons, ih]
    cases h : s.store.status <;> simp [State.drawsAfter, State.wrote, h]
    all_goals omega

end Fields

/-- A store that answers two transfers for each byte of `bs` and `r` more, 0 or 1, leaves the write waiting in the next
byte. -/
theorem repeatBytes_writeByte_waits {s : State} {block : Bool} {bs rest : List Byte} {b : Byte} {r : Nat}
    (hoff : s.offers block (bs ++ b :: rest)) (hready : s.env.storeReady = .times (2 * bs.length + r)) (hr : r < 2) :
    ∃ t, repeatBytes (bs ++ b :: rest).length (writeByte block) s = .waits t ∧
      WaitsInByte block b r (s.wroteAll block bs) t := by
  obtain ⟨hwent, hnext⟩ := repeatBytes_writeByte hoff (by simp [hready, Readiness.admits])
  obtain ⟨t, ht, hwaits⟩ := writeByte_waits (r := r) hnext (by simp [wroteAll_storeReady, hready, Readiness.after]) hr
  refine ⟨t, ?_, hwaits⟩
  rw [List.length_append, repeatBytes_add, hwent, Progress.went_andThen, List.length_cons, repeatBytes_succ, ht,
    Progress.waits_andThen]

/-! ### A store that is OK -/

section StoreOk
variable {s : State} (hok : s.store.status = .ok)
include hok

theorem wrote_read (block : Bool) (b : Byte) (a : Nat) :
    (s.wrote block b).store.mem.read a = if a = s.currentOffset.toNat then b else s.store.mem.read a := by
  simp [State.wrote, State.memAfterWrite, State.readWord, hok, read_writeCell_merge]

theorem wrote_history (block : Bool) (b : Byte) :
    (s.wrote block b).history = s.history ++ (fetchEvents block s.x.k b ++
      [.storeRead (wordIndex s.currentOffset) (s.store.mem.cell (wordIndex s.currentOffset)),
       .storeWrite (wordIndex s.currentOffset)
         (mergeByte s.currentOffset b (s.store.mem.cell (wordIndex s.currentOffset)))]) := by
  simp [State.wrote, State.readWord, hok]

/-- Each offset holds the byte last written to it, or what it held before. -/
theorem wroteAll_read (block : Bool) {k : Nat} (hk : s.x.k = BitVec.ofNat 16 k) (bytes : List Byte) (a : Nat) :
    (s.wroteAll block bytes).store.mem.read a = (storedByte s.x.base k bytes a).getD (s.store.mem.read a) := by
  induction bytes generalizing s k with
  | nil => rfl
  | cons b bs ih =>
    have hnext : (s.wrote block b).x.k = BitVec.ofNat 16 (k + 1) := by
      rw [BitVec.ofNat_add, ← hk]
      rfl
    have hoffset : s.currentOffset = offsetAt s.x.base k := by rw [State.currentOffset, hk]; rfl
    rw [wroteAll_cons, ih (s := s.wrote block b) hok hnext, wrote_read hok, hoffset, storedByte,
      (wrote_sameCommand s block b).base]
    cases storedByte s.x.base (k + 1) bs a with
    | some c => rfl
    | none => by_cases h : a = (offsetAt s.x.base k).toNat <;> simp [h]

theorem wroteAll_history (block : Bool) {k : Nat} (hk : s.x.k = BitVec.ofNat 16 k) (bytes : List Byte) :
    (s.wroteAll block bytes).history = s.history ++ writeEventsFor block s.store.mem s.x.base k bytes := by
  induction bytes generalizing s k with
  | nil => rw [writeEventsFor_nil, List.append_nil]; rfl
  | cons b bs ih =>
    have hnext : (s.wrote block b).x.k = BitVec.ofNat 16 (k + 1) := by
      rw [BitVec.ofNat_add, ← hk]
      rfl
    have hoffset : s.currentOffset = offsetAt s.x.base k := by rw [State.currentOffset, hk]; rfl
    have hread (a : Nat) :
        (s.wrote block b).store.mem.read a = (s.store.mem.write (offsetAt s.x.base k).toNat b).read a := by
      rw [wrote_read hok, Memory.read_write, hoffset]
    rw [wroteAll_cons, ih (s := s.wrote block b) hok hnext, wrote_history hok, (wrote_sameCommand s block b).base,
      writeEventsFor_congr hread, writeEventsFor_cons, List.append_assoc, hoffset, hk]
    rfl

end StoreOk

/-- After bytes written to a store that is not OK nothing is listed, and the last write's draw names every byte (20_memory.md
R68). -/
theorem wroteAll_mem_of_not_ok {s : State} (hok : s.store.status ≠ .ok) (block : Bool) {bytes : List Byte}
    (hne : bytes ≠ []) :
    (s.wroteAll block bytes).store.mem = { cells := [], lost := some (s.draws + 2 * bytes.length - 1) } := by
  obtain ⟨bs, b, rfl⟩ := List.eq_nil_or_concat' bytes |>.resolve_left hne
  have hst : (s.wroteAll block bs).store.status ≠ .ok := by rwa [wroteAll_status]
  have hdraws : (s.wroteAll block bs).draws = s.draws + 2 * bs.length := by
    rw [wroteAll_draws]
    cases h : s.store.status <;> simp [State.drawsAfter, h] at hok ⊢
  rw [State.wroteAll, List.foldl_concat, ← State.wroteAll]
  cases h : (s.wroteAll block bs).store.status with
  | ok => exact absurd h hst
  | _ => simp [State.wrote, State.memAfterWrite, State.drawsAfter, Memory.lose, h, hdraws]; omega

end Sys2Proof.Machine
end

section
/-! The write commands WR8, WR16, WR32 and WRBLK whole (41_byte_access.md R111, 42_multibyte_access.md R123, R124,
43_block_access.md R143): completed, run twice, at an aligned address, to a store that is not OK, and stopped half-way. -/

namespace Sys2Proof.Machine

open Sys2Proof

/-! ### The command and its bytes -/

theorem not_isSystem_of_isWrite {cmd : CmdCode} (h : isWrite cmd = true) : isSystem cmd = false := by
  simp only [isWrite, Bool.and_eq_true, Bool.not_eq_true'] at h
  exact h.1

/-- A write command responds 0/0 (30_encoding.md R85). -/
theorem respondFor_of_isWrite {cmd : CmdCode} (h : isWrite cmd = true) (s : State) :
    respondFor cmd s = respond 0 false s := by
  have hcode : (cmd = 0x0 || cmd = 0x2 || cmd = 0x4) = false ∧ (decide (cmd = 0x8)) = false := by
    revert cmd
    decide
  rw [respondFor, rdataOf, hcode.1, initOkOf, hcode.2]
  rfl

/-- A write command is the bytes of its count, written in order, and the response. -/
theorem commandRule_of_isWrite {cmd : CmdCode} (h : isWrite cmd = true) (addr : Loc) (wdata : Data) (count : Count)
    (s : State) :
    commandRule cmd addr wdata count s =
      (repeatBytes (byteCount cmd count).toNat (writeByte (isBlock cmd)) (accept cmd addr wdata count s)).andThen
        (respond 0 false) := by
  have hsystem := not_isSystem_of_isWrite h
  have hinit : ¬ isInit cmd = true := fun hi => by simp [isSystem_of_isInit hi] at hsystem
  rw [commandRule, admitted_data hsystem, commandBody, if_neg hinit, byteRule_of_isWrite h]
  congr 1
  funext t
  exact respondFor_of_isWrite h t

/-- A write of `n` bytes of the write data has them from acceptance on. -/
theorem accept_offers_data (cmd : CmdCode) (addr : Loc) (wdata : Data) (count : Count) (s : State) (n : Nat) :
    (accept cmd addr wdata count s).offers false (dataBytes wdata n) := by
  intro j b hb
  obtain ⟨_, rfl⟩ : j < n ∧ dataByte wdata (BitVec.ofNat 16 j) = b := by
    simpa [dataBytes, List.getElem?_eq_some_iff] using hb
  simp

theorem accept_offers_source (cmd : CmdCode) (addr : Loc) (wdata : Data) (count : Count) (s : State) {bs : List Byte}
    (h : bs <+: s.env.source) : (accept cmd addr wdata count s).offers true bs := h

theorem dataBytes_length (wdata : Data) (n : Nat) : (dataBytes wdata n).length = n := by simp [dataBytes]

/-- The write command `cmd` of the bytes `bytes`: its count is theirs, and they are offered once it is accepted. -/
structure Writes (cmd : CmdCode) (addr : Loc) (wdata : Data) (count : Count) (bytes : List Byte) (s : State) : Prop where
  isWrite : isWrite cmd = true
  length : bytes.length = (byteCount cmd count).toNat
  offers : (accept cmd addr wdata count s).offers (isBlock cmd) bytes

/-- A data command that is no block command writes the bytes of the write data (20_memory.md R58). -/
theorem writes_data {cmd : CmdCode} (hw : isWrite cmd = true) (hb : isBlock cmd = false) {n : Nat} {count : Count}
    (hn : (byteCount cmd count).toNat = n) (addr : Loc) (wdata : Data) (s : State) :
    Writes cmd addr wdata count (dataBytes wdata n) s where
  isWrite := hw
  length := by rw [dataBytes_length, hn]
  offers := by
    rw [hb]
    exact accept_offers_data cmd addr wdata count s n

theorem writes_wr8 (addr : Loc) (wdata : Data) (count : Count) (s : State) :
    Writes 0x1 addr wdata count (dataBytes wdata 1) s := writes_data rfl rfl rfl addr wdata s

theorem writes_wr16 (addr : Loc) (wdata : Data) (count : Count) (s : State) :
    Writes 0x3 addr wdata count (dataBytes wdata 2) s := writes_data rfl rfl rfl addr wdata s

theorem writes_wr32 (addr : Loc) (wdata : Data) (count : Count) (s : State) :
    Writes 0x5 addr wdata count (dataBytes wdata 4) s := writes_data rfl rfl rfl addr wdata s

/-- WRBLK writes the source bytes of its count (43_block_access.md R143). -/
theorem writes_source {bs : List Byte} {s : State} {count : Count} (h : bs <+: s.env.source)
    (hlen : bs.length = count.toNat) (addr : Loc) (wdata : Data) : Writes 0x7 addr wdata count bs s :=
  ⟨rfl, hlen, accept_offers_source 0x7 addr wdata count s h⟩

/-- The bytes of the command written: the state before its response. -/
def writtenBy (cmd : CmdCode) (addr : Loc) (wdata : Data) (count : Count) (bytes : List Byte) (s : State) : State :=
  (accept cmd addr wdata count s).wroteAll (isBlock cmd) bytes

section Command
variable {cmd : CmdCode} {addr : Loc} {wdata : Data} {count : Count} {bytes : List Byte} {s : State}

/-- With the store ready for all its transfers, a write command writes its bytes and responds. -/
theorem Writes.commandRule_eq (h : Writes cmd addr wdata count bytes s)
    (hready : s.env.storeReady.admits (2 * bytes.length) = true) :
    commandRule cmd addr wdata count s = respond 0 false (writtenBy cmd addr wdata count bytes s) := by
  have hoff := h.offers
  rw [← bytes.append_nil] at hoff
  rw [commandRule_of_isWrite h.isWrite, ← h.length, (repeatBytes_writeByte hoff hready).1]
  rfl

theorem writtenBy_read (hok : s.store.status = .ok) (a : Nat) :
    (writtenBy cmd addr wdata count bytes s).store.mem.read a =
      (storedByte addr 0 bytes a).getD (s.store.mem.read a) :=
  wroteAll_read (s := accept cmd addr wdata count s) hok (isBlock cmd) rfl bytes a

theorem writtenBy_history (hok : s.store.status = .ok) :
    (writtenBy cmd addr wdata count bytes s).history =
      s.history ++ writeEventsFor (isBlock cmd) s.store.mem addr 0 bytes :=
  wroteAll_history (s := accept cmd addr wdata count s) hok (isBlock cmd) rfl bytes

theorem writtenBy_source :
    (writtenBy cmd addr wdata count bytes s).env.source = s.sourceAfter (isBlock cmd) bytes.length :=
  wroteAll_source (accept cmd addr wdata count s) (isBlock cmd) bytes

theorem writtenBy_index : (writtenBy cmd addr wdata count bytes s).x.k = BitVec.ofNat 16 bytes.length :=
  (wroteAll_index _ _ _).trans (BitVec.zero_add _)

/-- The next byte's offset, which a command whose store stops answering waits at. -/
theorem writtenBy_currentOffset :
    (writtenBy cmd addr wdata count bytes s).currentOffset = offsetAt addr bytes.length := by
  rw [State.currentOffset, writtenBy_index, writtenBy, (wroteAll_sameCommand _ _ _).base]
  rfl

theorem writtenBy_readWord (hok : s.store.status = .ok) (i : WordIndex) :
    (writtenBy cmd addr wdata count bytes s).readWord i = (s.store.mem.writeBytes addr 0 bytes).cell i := by
  have hstatus : (writtenBy cmd addr wdata count bytes s).store.status = .ok := (wroteAll_status _ _ _).trans hok
  rw [State.readWord, hstatus]
  exact Memory.cell_congr (fun a => by rw [writtenBy_read hok, Memory.read_writeBytes]) i

/-- A completed write command on an OK store leaves its bytes stored, each offset with the last of its bytes. -/
theorem Writes.storedAt (h : Writes cmd addr wdata count bytes s) (hok : s.store.status = .ok)
    (hready : s.env.storeReady.admits (2 * bytes.length) = true) :
    StoredAt s.store.mem (commandRule cmd addr wdata count s).state.store.mem addr bytes := by
  refine storedAt_of_storedByte fun a => ?_
  rw [h.commandRule_eq hready, respond_store, writtenBy_read hok]

end Command

/-! ### At an aligned address (20_memory.md R60) -/

/-- The cell of an even offset holds the byte stored there and the next one, the next as the high byte. -/
theorem cell_of_storedAt {m m' : Memory} {loc : Loc} {bytes : List Byte} (h : StoredAt m m' loc bytes)
    (hlen : bytes.length ≤ Config.logSize) {j : Nat} {lo hi : Byte} (heven : (loc.toNat + j) % 2 = 0)
    (hlo : bytes[j]? = some lo) (hhi : bytes[j + 1]? = some hi) : m'.cell (cellAt loc j) = hi ++ lo := by
  unfold Config.logSize at hlen
  have once {i i' : Nat} (hlt : i < i') (hi' : i' < bytes.length) : offsetAt loc i' ≠ offsetAt loc i := by
    rw [Ne, offsetAt_eq_iff]
    omega
  have hcell : (cellAt loc j).toNat = (offsetAt loc j).toNat / 2 := wordIndex_toNat _
  have hlow : 2 * (cellAt loc j).toNat = (offsetAt loc j).toNat := by
    rw [hcell, offsetAt_toNat]
    omega
  have hhigh : 2 * (cellAt loc j).toNat + 1 = (offsetAt loc (j + 1)).toNat := by
    rw [hcell, offsetAt_toNat, offsetAt_toNat]
    omega
  rw [Memory.cell, hhigh, hlow, h.1 j lo hlo fun _ => once, h.1 (j + 1) hi hhi fun _ => once]

theorem dataByte_eq_extractLsb' (v : Data) (k : Count) : dataByte v k = v.extractLsb' (8 * k.toNat) 8 := by
  ext j hj
  simp [dataByte]

/-- The word of bytes `j` and `j + 1` of a value. -/
theorem dataByte_append (v : Data) {j : Nat} (hj : j < 4) :
    dataByte v (BitVec.ofNat 16 (j + 1)) ++ dataByte v (BitVec.ofNat 16 j) = v.extractLsb' (8 * j) 16 := by
  have hnat {i : Nat} (hi : i < 5) : (BitVec.ofNat 16 i).toNat = i := by
    rw [BitVec.toNat_ofNat]
    omega
  rw [dataByte_eq_extractLsb', dataByte_eq_extractLsb', hnat (by omega), hnat (by omega)]
  exact BitVec.extractLsb'_append_extractLsb'_eq_extractLsb' (by omega)

theorem dataBytes_getElem? (wdata : Data) {n j : Nat} (hj : j < n) :
    (dataBytes wdata n)[j]? = some (dataByte wdata (BitVec.ofNat 16 j)) := by
  simp [dataBytes, hj]

/-- The cell of an aligned half-word of the write data. -/
theorem cell_of_data_storedAt {m m' : Memory} {loc : Loc} {wdata : Data} {n j : Nat}
    (h : StoredAt m m' loc (dataBytes wdata n)) (hn : n ≤ 4) (hj : j + 1 < n) (heven : (loc.toNat + j) % 2 = 0) :
    m'.cell (cellAt loc j) = wdata.extractLsb' (8 * j) 16 := by
  have hlen : (dataBytes wdata n).length ≤ Config.logSize := by
    rw [dataBytes_length]
    exact hn.trans (by decide)
  rw [cell_of_storedAt h hlen heven (dataBytes_getElem? wdata (by omega)) (dataBytes_getElem? wdata hj),
    dataByte_append wdata (by omega)]

theorem cellAt_zero (loc : Loc) : cellAt loc 0 = wordIndex (normalise loc) := by
  rw [← byteOffset_zero]
  rfl

/-- At a multiple of four the third byte is in the next cell. -/
theorem cellAt_two {loc : Loc} (h : loc.toNat % 4 = 0) : cellAt loc 2 = wordIndex (normalise loc) + 1 := by
  apply BitVec.eq_of_toNat_eq
  have hone : (1 : WordIndex).toNat = 1 := rfl
  rw [cellAt, wordIndex_toNat, offsetAt_toNat, BitVec.toNat_add, wordIndex_toNat, normalise_toNat, hone]
  omega

/-- Settles O20: each cell gets both its bytes, the halves of its part of the value. -/
theorem alignedWritesFillWholeCells : Obligations.AlignedWritesFillWholeCells := by
  intro addr wdata count s hok hready
  refine ⟨fun heven => ⟨_, exec_eq_commandRule _ s, ?_⟩, fun hfour => ⟨_, exec_eq_commandRule _ s, ?_⟩⟩
  · have hstored := (writes_wr16 addr wdata count s).storedAt hok
      (Readiness.admits_mono (by rw [dataBytes_length]; omega) hready)
    rw [← cellAt_zero]
    exact cell_of_data_storedAt hstored (by decide) (by decide) (by omega)
  · have hstored := (writes_wr32 addr wdata count s).storedAt hok hready
    rw [← cellAt_two hfour, ← cellAt_zero]
    exact ⟨cell_of_data_storedAt hstored (by decide) (by decide) (by omega),
      cell_of_data_storedAt hstored (by decide) (by decide) (by omega)⟩

end Sys2Proof.Machine
end

section
/-! The write commands run twice (20_memory.md R64), to a store that is not OK (R68), and with a store that stops answering
(R77). -/

namespace Sys2Proof.Machine

open Sys2Proof

@[simp] theorem respond_draws (s : State) (d : Data) (ok : Bool) : (respond d ok s).state.draws = s.draws := by
  cases h : s.env.rspReady.take with
  | none => rw [respond_waits h]; rfl
  | some r => rw [respond_went h]; rfl

/-! ### Run twice -/

section Twice
variable {cmd : CmdCode} {addr : Loc} {wdata : Data} {count : Count} {bytes : List Byte} {s : State}

/-- From `s` to `t` a write command of `bytes` has run to its response on an OK store, every agent answering always. -/
structure HasWritten (block : Bool) (addr : Loc) (bytes : List Byte) (s t : State) : Prop where
  phase : t.x.ph = .idle
  status : t.store.status = .ok
  storeReady : t.env.storeReady = .always
  rspReady : t.env.rspReady = .always
  source : t.env.source = s.sourceAfter block bytes.length
  history : t.history = s.history ++ (writeEventsFor block s.store.mem addr 0 bytes ++ [.response 0 false])
  read : ∀ a, t.store.mem.read a = (storedByte addr 0 bytes a).getD (s.store.mem.read a)

theorem Writes.hasWritten (h : Writes cmd addr wdata count bytes s) (hok : s.store.status = .ok)
    (hstore : s.env.storeReady = .always) (hrsp : s.env.rspReady = .always) :
    HasWritten (isBlock cmd) addr bytes s (commandRule cmd addr wdata count s).state := by
  have hready : (writtenBy cmd addr wdata count bytes s).env.rspReady.take = some .always := by
    rw [writtenBy, wroteAll_rspReady, accept_env, hrsp]
    rfl
  rw [h.commandRule_eq (by rw [hstore]; rfl), respond_went hready]
  exact {
    phase := rfl
    status := (wroteAll_status _ _ _).trans hok
    storeReady := (wroteAll_storeReady _ _ _).trans (by rw [accept_env, hstore]; rfl)
    rspReady := rfl
    source := writtenBy_source
    history := by rw [Progress.went_state, writtenBy_history hok, List.append_assoc]
    read := writtenBy_read hok }

/-- The store trace of a write command has two transfers for each byte. -/
theorem storeTrace_of_write_length (block : Bool) (m : Memory) (loc : Loc) (bytes : List Byte) :
    (storeTrace (writeEventsFor block m loc 0 bytes ++ [.response 0 false])).length = 2 * bytes.length := by
  have hresponse : storeTrace [.response 0 false] = [] := rfl
  rw [storeTrace_append, hresponse, List.append_nil, storeTrace_writeEventsFor_length]

/-- A write command that has run twice has stored the same bytes as once, with twice the store trace (20_memory.md R64). -/
theorem HasWritten.twice {block : Bool} {t u : State} (h : HasWritten block addr bytes s t)
    (h' : HasWritten block addr bytes t u) :
    (∀ a, u.store.mem.read a = t.store.mem.read a) ∧
      (storeTrace (u.history.drop s.history.length)).length =
        2 * (storeTrace (t.history.drop s.history.length)).length := by
  constructor
  · intro a
    rw [h'.read, h.read]
    cases storedByte addr 0 bytes a <;> rfl
  · rw [h'.history, h.history, List.append_assoc, List.drop_left, List.drop_left, storeTrace_append, List.length_append,
      storeTrace_of_write_length, storeTrace_of_write_length, Nat.two_mul (2 * bytes.length)]

end Twice

/-- Settles O22: each offset holds the last of the command's bytes stored to it after one run as after two. -/
theorem writingTwiceStoresTheSame : Obligations.WritingTwiceStoresTheSame := by
  intro i s hok ⟨hstore, _, hrsp⟩ hcode
  obtain ⟨bytes, h, hagain⟩ : ∃ bytes,
      Writes i.code (encodeRequest i).addr (encodeRequest i).wdata (encodeRequest i).count bytes s ∧
      ∀ t : State, t.env.source = s.sourceAfter (isBlock i.code) bytes.length →
        Writes i.code (encodeRequest i).addr (encodeRequest i).wdata (encodeRequest i).count bytes t := by
    rcases hcode with hcode | hcode | hcode | ⟨addr, wdata, bs, rest, hlt, rfl, hsource⟩
    · exact ⟨_, hcode ▸ writes_wr8 .., fun t _ => hcode ▸ writes_wr8 ..⟩
    · exact ⟨_, hcode ▸ writes_wr16 .., fun t _ => hcode ▸ writes_wr16 ..⟩
    · exact ⟨_, hcode ▸ writes_wr32 .., fun t _ => hcode ▸ writes_wr32 ..⟩
    · have hlen : bs.length = (BitVec.ofNat 16 bs.length).toNat := by
        rw [BitVec.toNat_ofNat, Nat.mod_eq_of_lt hlt]
      refine ⟨bs, writes_source ⟨bs ++ rest, by rw [hsource, List.append_assoc]⟩ hlen addr wdata, fun t ht =>
        writes_source ⟨rest, ?_⟩ hlen addr wdata⟩
      have hafter : s.sourceAfter true bs.length = bs ++ rest := by
        rw [State.sourceAfter, if_pos rfl, hsource, List.append_assoc, List.drop_left]
      have hblock : isBlock (Instr.wrblk addr wdata (BitVec.ofNat 16 bs.length)).code = true :=
        ((block_write_iff _).mpr rfl).1
      rw [hblock, hafter] at ht
      exact ht.symm
  have hfirst := h.hasWritten hok hstore hrsp
  have hsecond := (hagain _ hfirst.source).hasWritten hfirst.status hfirst.storeReady hfirst.rspReady
  obtain ⟨hread, htrace⟩ := hfirst.twice hsecond
  exact ⟨_, _, exec_eq_commandRule i s, exec_eq_commandRule i _, hfirst.phase, hsecond.phase, hread, htrace⟩

/-! ### A store that is not OK -/

section NotOk
variable {cmd : CmdCode} {addr : Loc} {wdata : Data} {count : Count} {bytes : List Byte} {s : State}

/-- Each store write to a store that is not OK loses every byte (20_memory.md R68), the last one last. -/
theorem Writes.loses_every_byte (h : Writes cmd addr wdata count bytes s) (hok : s.store.status ≠ .ok) (hne : bytes ≠ [])
    (hready : s.env.storeReady.admits (2 * bytes.length) = true) :
    (commandRule cmd addr wdata count s).state.draws = s.draws + 2 * bytes.length ∧
      ∀ a, (commandRule cmd addr wdata count s).state.store.mem.read a =
        Config.lostByte (s.draws + 2 * bytes.length - 1) a := by
  rw [h.commandRule_eq hready, respond_draws, respond_store]
  constructor
  · rw [writtenBy, wroteAll_draws, State.drawsAfter, accept_store]
    cases hst : s.store.status with
    | ok => exact absurd hst hok
    | _ => rfl
  · intro a
    rw [writtenBy, wroteAll_mem_of_not_ok (s := accept cmd addr wdata count s) hok _ hne]
    rfl

end NotOk

/-- Settles O23: the memory after such a write is that of its last draw, with nothing listed. -/
theorem writesToAStoreThatIsNotOkLeaveNoByteKnown : Obligations.WritesToAStoreThatIsNotOkLeaveNoByteKnown := by
  intro addr wdata count s hok
  refine ⟨fun i n hi hready => ?_, fun hpos hlen hready => ⟨_, exec_eq_commandRule _ s, ?_⟩⟩
  · have data {cmd : CmdCode} (h : Writes cmd addr wdata count (dataBytes wdata n) s) (hn : 0 < n) :=
      h.loses_every_byte hok (List.ne_nil_of_length_pos (by rwa [dataBytes_length]))
        (by rwa [dataBytes_length])
    simp only [dataBytes_length] at data
    simp only [List.mem_cons, List.not_mem_nil, or_false, Prod.mk.injEq] at hi
    rcases hi with ⟨rfl, rfl⟩ | ⟨rfl, rfl⟩ | ⟨rfl, rfl⟩
    · exact ⟨_, exec_eq_commandRule _ s, data (writes_wr8 addr wdata count s) (by decide)⟩
    · exact ⟨_, exec_eq_commandRule _ s, data (writes_wr16 addr wdata count s) (by decide)⟩
    · exact ⟨_, exec_eq_commandRule _ s, data (writes_wr32 addr wdata count s) (by decide)⟩
  · have htake : (s.env.source.take count.toNat).length = count.toNat := List.length_take_of_le hlen
    have h := (writes_source (List.take_prefix _ _) htake addr wdata).loses_every_byte hok
      (List.ne_nil_of_length_pos (by rwa [htake])) (by rwa [htake])
    rwa [htake] at h

/-! ### A store that stops answering -/

section Stops
variable {cmd : CmdCode} {addr : Loc} {wdata : Data} {count : Count} {bytes : List Byte} {s : State}

/-- From `s` to `t` a write command of `bytes` whose store answered only `j` of its transfers has stored the bytes they
complete and made those transfers alone, and waits with the next one in progress (20_memory.md R77). A block write has also
taken the byte it is at. -/
structure StopsAtPrefix (block : Bool) (addr : Loc) (bytes : List Byte) (j : Nat) (s t : State) : Prop where
  stored : StoredAt s.store.mem t.store.mem addr (bytes.take (j / 2))
  history : t.history = s.history ++
    (writeEventsFor block s.store.mem addr 0 bytes).take (j + if block then j / 2 + 1 else 0)
  source : t.env.source = s.sourceAfter block (j / 2 + 1)
  index : t.x.k = BitVec.ofNat 16 (j / 2)
  phase : t.x.ph = if j % 2 = 0 then .rmwRd else .rmwWr
  inFlight : t.inFlight = some .storePort

/-- The byte a list of bytes is at after `j` transfers, two for each. -/
theorem split_at_transfer {j : Nat} {bytes : List Byte} (hj : j < 2 * bytes.length) :
    ∃ bs b rest r, bytes = bs ++ b :: rest ∧ r < 2 ∧ j = 2 * bs.length + r := by
  have hlt : j / 2 < bytes.length := by omega
  refine ⟨bytes.take (j / 2), bytes[j / 2], bytes.drop (j / 2 + 1), j % 2, ?_, by omega, ?_⟩
  · rw [← List.drop_eq_getElem_cons hlt, List.take_append_drop]
  · rw [List.length_take_of_le hlt.le]
    omega

theorem Writes.stopsAtPrefix (h : Writes cmd addr wdata count bytes s) (hok : s.store.status = .ok) {j : Nat}
    (hready : s.env.storeReady = .times j) (hj : j < 2 * bytes.length) :
    StopsAtPrefix (isBlock cmd) addr bytes j s (commandRule cmd addr wdata count s).state := by
  obtain ⟨bs, b, rest, r, rfl, hr, rfl⟩ := split_at_transfer hj
  obtain ⟨t, ht, hwaits⟩ := repeatBytes_writeByte_waits h.offers hready hr
  change WaitsInByte _ b r (writtenBy cmd addr wdata count bs s) t at hwaits
  rw [commandRule_of_isWrite h.isWrite, ← h.length, ht, Progress.waits_andThen, Progress.waits_state]
  have hbyte : (2 * bs.length + r) / 2 = bs.length := by omega
  constructor
  case stored =>
    rw [hbyte, List.take_left, hwaits.store]
    exact storedAt_of_storedByte (writtenBy_read hok)
  case history =>
    have hcount : 2 * bs.length + r + (if isBlock cmd then bs.length + 1 else 0) =
        (2 + (isBlock cmd).toNat) * bs.length + ((isBlock cmd).toNat + r) := by
      cases isBlock cmd
      · simp
      · simp; ring
    rw [hbyte, hcount, writeEventsFor_take _ _ _ _ _ _ hr, hwaits.history, writtenBy_history hok, writtenBy_index,
      writtenBy_currentOffset, writtenBy_readWord hok, List.append_assoc, List.append_assoc]
    rfl
  case source =>
    rw [hbyte, hwaits.source, State.sourceAfter, writtenBy_source]
    cases isBlock cmd with
    | false => rfl
    | true => simp [State.sourceAfter]
  case index => rw [hbyte, hwaits.index, writtenBy_index]
  case phase =>
    have hmod : (2 * bs.length + r) % 2 = r := by omega
    rw [hwaits.phase, hmod]
  case inFlight => exact hwaits.inFlight

/-- A WR8, WR16 or WR32 of `n` bytes whose store answers only `j` of its transfers. -/
theorem Writes.data_stopsAtPrefix {n j : Nat} (h : Writes cmd addr wdata count (dataBytes wdata n) s)
    (hb : isBlock cmd = false) (hok : s.store.status = .ok) (hready : s.env.storeReady = .times j) (hj : j < 2 * n) :
    StopsAtPrefix false addr (dataBytes wdata n) j s (commandRule cmd addr wdata count s).state :=
  hb ▸ h.stopsAtPrefix hok hready (by rwa [dataBytes_length])

end Stops

/-- Settles O51: the bytes the answered transfers complete are written, and the command waits in the byte after them. -/
theorem doubleWordWriteStopsAtAPrefix : Obligations.DoubleWordWriteStopsAtAPrefix := by
  intro addr wdata count s j hok hready hj
  have h := (writes_wr32 addr wdata count s).data_stopsAtPrefix rfl hok hready hj
  exact ⟨_, exec_eq_commandRule _ s, h.stored, h.history, h.index, h.phase, h.inFlight⟩

/-- Settles O52: the same of the other write commands; WRBLK's source bytes are taken up to the byte it waits in. -/
theorem otherWritesStopAtAPrefix : Obligations.OtherWritesStopAtAPrefix := by
  constructor
  · intro addr wdata count s i n j hok hi hready hj
    simp only [List.mem_cons, List.not_mem_nil, or_false, Prod.mk.injEq] at hi
    rcases hi with ⟨rfl, rfl⟩ | ⟨rfl, rfl⟩
    · have h := (writes_wr8 addr wdata count s).data_stopsAtPrefix rfl hok hready hj
      exact ⟨_, exec_eq_commandRule _ s, h.stored, h.history, h.index, h.phase, h.inFlight⟩
    · have h := (writes_wr16 addr wdata count s).data_stopsAtPrefix rfl hok hready hj
      exact ⟨_, exec_eq_commandRule _ s, h.stored, h.history, h.index, h.phase, h.inFlight⟩
  · intro addr wdata count bs rest s j hok hsource hlen hready hj
    have h := (writes_source ⟨rest, hsource.symm⟩ hlen addr wdata).stopsAtPrefix hok hready (by rwa [hlen])
    have hleft : s.sourceAfter true (j / 2 + 1) = bs.drop (j / 2 + 1) ++ rest := by
      rw [State.sourceAfter, if_pos rfl, hsource, List.drop_append_of_le_length (by omega)]
    exact ⟨_, exec_eq_commandRule _ s, h.stored, h.history, h.source.trans hleft, h.index, h.phase, h.inFlight⟩

end Sys2Proof.Machine
end

section
/-! The request word and its bytes both ways (30_encoding.md R82, R83, R89), and the lines of the assembly syntax (R90). -/

namespace Sys2Proof.Machine

open Sys2Proof

/-! ### The word of a request -/

/-- The fields cut from a word, put together again, are the word: they cover its 68 bits (30_encoding.md R89). -/
theorem word_ofWord (w : ReqWord) : (Request.ofWord w).word = w := by
  simp only [Request.word, Request.ofWord]
  rw [BitVec.extractLsb'_append_extractLsb'_eq_extractLsb' (by rfl),
    BitVec.extractLsb'_append_extractLsb'_eq_extractLsb' (by rfl),
    BitVec.extractLsb'_append_extractLsb'_eq_extractLsb' (by rfl)]
  exact BitVec.extractLsb'_eq_self

/-- Each field is read back from the word that holds it. -/
theorem ofWord_word (r : Request) : Request.ofWord r.word = r := by
  obtain ⟨cmd, addr, wdata, count⟩ := r
  simp only [Request.word, Request.ofWord, Request.mk.injEq]
  refine ⟨BitVec.extractLsb'_append_eq_right, ?_, ?_, ?_⟩
  · rw [BitVec.extractLsb'_append_eq_of_le (by decide)]
    exact BitVec.extractLsb'_append_eq_right
  · rw [BitVec.extractLsb'_append_eq_of_le (by decide), BitVec.extractLsb'_append_eq_of_le (by decide)]
    exact BitVec.extractLsb'_append_eq_right
  · rw [BitVec.extractLsb'_append_eq_of_le (by decide), BitVec.extractLsb'_append_eq_of_le (by decide)]
    exact BitVec.extractLsb'_append_eq_left

theorem decodeRequest_encodeRequest (i : Instr) : decodeRequest (encodeRequest i) = i := by cases i <;> rfl

theorem decodeWord_encodeWord (i : Instr) : decodeWord (encodeWord i) = i := by
  rw [decodeWord, encodeWord, ofWord_word, decodeRequest_encodeRequest]

/-- Settles O2: the decoded command has the word's four fields, which make up the word. -/
theorem encodingUndoesDecoding : Obligations.EncodingUndoesDecoding := by
  intro w
  rw [encodeWord, decodeWord, encodeRequest_decodeRequest, word_ofWord]

/-! ### The nine bytes of a word -/

/-- The nine bytes of a 72-bit word, joined again. -/
theorem joinBytes_extractLsb' (v : BitVec 72) :
    joinBytes (v.extractLsb' 0 8) (v.extractLsb' 8 8) (v.extractLsb' 16 8) (v.extractLsb' 24 8) (v.extractLsb' 32 8)
      (v.extractLsb' 40 8) (v.extractLsb' 48 8) (v.extractLsb' 56 8) (v.extractLsb' 64 8) = v := by
  have join {start len : Nat} : v.extractLsb' (start + 8) len ++ v.extractLsb' start 8 = v.extractLsb' start (len + 8) :=
    BitVec.extractLsb'_append_extractLsb'_eq_extractLsb' rfl
  unfold joinBytes
  rw [join (start := 56), join (start := 48), join (start := 40), join (start := 32), join (start := 24),
    join (start := 16), join (start := 8), join (start := 0)]
  exact BitVec.extractLsb'_eq_self

/-- A request word has no bit above bit 67, and its nine bytes are taken back as the word (30_encoding.md R89). -/
theorem takeRequestWord_encodeBytes (i : Instr) (rest : List Byte) :
    takeRequestWord (encodeBytes i ++ rest) = .ok (encodeWord i, rest) := by
  have hhigh : ((encodeWord i).setWidth 72).extractLsb' 68 4 = 0 := by
    ext j hj
    simp
  have hlow : ((encodeWord i).setWidth 72).extractLsb' 0 68 = encodeWord i := by
    rw [BitVec.extractLsb'_setWidth_of_le (by decide), BitVec.extractLsb'_eq_self]
  simp only [encodeBytes, List.cons_append, List.nil_append, takeRequestWord, joinBytes_extractLsb']
  rw [if_pos hhigh, hlow]

/-- Settles O1: the word is taken back from the bytes, the fields from the word, the command from the fields. -/
theorem decodingUndoesEncoding : Obligations.DecodingUndoesEncoding := by
  intro i rest _
  simp only [decodeBytes, takeRequestWord_encodeBytes, decodeWord_encodeWord]

/-! ### The code of a decoded request -/

theorem code_decodeRequest (r : Request) : (decodeRequest r).code = r.cmd := by
  rw [← encodeRequest_cmd, encodeRequest_decodeRequest]

/-- Settles O3: the command's code is the request's, whatever the other fields hold. -/
theorem decodingLooksAtTheCodeOnly : Obligations.DecodingLooksAtTheCodeOnly := fun r =>
  ⟨code_decodeRequest r, fun _ _ _ => code_decodeRequest ⟨r.cmd, _, _, _⟩⟩

/-- Settles O4: the decoder run on the six words. -/
theorem sampleWordsDecode : Obligations.SampleWordsDecode := by
  refine ⟨?_, ?_, ?_, ?_, ?_, ?_⟩ <;> decide

/-! ### The assembler (R90) -/

theorem operandInRange_iff (bits v : Nat) : operandInRange bits v = true ↔ v < 2 ^ bits := decide_eq_true_iff

theorem byteListInRange_iff (n : Nat) (bytes : List Nat) :
    byteListInRange n bytes = true ↔ bytes.length = n ∧ ∀ b ∈ bytes, b < 2 ^ 8 := by
  simp only [byteListInRange, Bool.and_eq_true, decide_eq_true_eq, List.all_eq_true, operandInRange_iff]

/-- A line whose operands are in range exactly where `P` holds. -/
theorem assemble_eq_ite {l : AsmLine} {P : Prop} [Decidable P] (h : asmWellFormed l = true ↔ P) :
    assemble l = if P then some (asmLineRequest l, asmLineSource l) else none := if_congr h rfl rfl

theorem assemble_of_addr {l : AsmLine} {a : Nat} (h : asmWellFormed l = operandInRange 16 a) :
    assemble l = if a < 2 ^ 16 then some (asmLineRequest l, asmLineSource l) else none :=
  assemble_eq_ite (by rw [h, operandInRange_iff])

theorem assemble_of_addr_operand {l : AsmLine} {a bits v : Nat}
    (h : asmWellFormed l = (operandInRange 16 a && operandInRange bits v)) :
    assemble l = if a < 2 ^ 16 ∧ v < 2 ^ bits then some (asmLineRequest l, asmLineSource l) else none :=
  assemble_eq_ite (by rw [h, Bool.and_eq_true, operandInRange_iff, operandInRange_iff])

/-- Settles O5: a line's operands are in range as its form asks, and its request has them in their fields. -/
theorem assemblerRefusesOperandsOutOfRange : Obligations.AssemblerRefusesOperandsOutOfRange := by
  refine ⟨?wr8, ?wr16, ?wr32, ?rd8, ?rd16, ?rd32, ?rdblk, ?wrblk, ?init⟩
  case wr8 | wr16 | wr32 | rdblk => exact fun a v => assemble_of_addr_operand rfl
  case rd8 | rd16 | rd32 => exact fun a => assemble_of_addr rfl
  case wrblk =>
    intro a n bs
    refine assemble_eq_ite (l := .wrblk a n bs) ?_
    simp only [asmWellFormed, Bool.and_eq_true, operandInRange_iff, byteListInRange_iff, and_assoc]
  case init => rfl

end Sys2Proof.Machine
end

section
/-! The request a step runs (30_encoding.md R83, 70_reset_and_hazards.md R188), and the codes that are reserved (R86). -/

namespace Sys2Proof.Machine

open Sys2Proof

/-! ### The step that reads a request -/

/-- In IDLE with no reset asserted the step is the command of the request at the channel. -/
theorem step_of_request {s : State} {r : Request} {rest : List Request} (hline : s.env.resetLine = none)
    (hidle : s.x.ph = .idle) (hreq : s.env.requests = r :: rest) :
    step s = exec (decodeRequest r) (takeRequest r rest s) := by
  simp [step, hline, hidle, hreq]

/-- The request in the bits the decoder reads a command from is that command's encoding. -/
theorem requestOfTableWord_of_decodeTableWord {nbits w : Nat} {i : Instr} (h : decodeTableWord nbits w = some i) :
    requestOfTableWord nbits w = some (encodeRequest i) := by
  unfold decodeTableWord decodeBytes at h
  unfold requestOfTableWord
  cases hbytes : requestBytes nbits w with
  | none => simp [hbytes] at h
  | some bytes =>
    cases hword : takeRequestWord bytes with
    | error e => simp [hbytes, hword] at h
    | ok p =>
      have hi : decodeWord p.1 = i := by simpa [hbytes, hword] using h
      simp [hword, ← hi, decodeWord, encodeRequest_decodeRequest]

/-- Settles O42: the request at the channel is taken, and a presented word stands there before every other. -/
theorem stepRunsTheDecodedCommand : Obligations.StepRunsTheDecodedCommand := by
  refine ⟨fun s r rest hline hidle hreq => step_of_request hline hidle hreq, fun s nbits w i h => ?_⟩
  have hpresented : s.withFetchWord nbits w =
      { s with x := { s.x with ph := .idle }, inFlight := none,
               env := { s.env with requests := encodeRequest i :: s.env.requests, resetLine := none } } := by
    simp only [State.withFetchWord, requestOfTableWord_of_decodeTableWord h]
  rw [hpresented, step_of_request rfl rfl rfl, decodeRequest_encodeRequest]
  rfl

/-! ### The reserved codes (R86) -/

theorem isReserved_of_le {cmd : CmdCode} (h : 0x9 ≤ cmd.toNat) : isReserved cmd = true := by
  revert cmd
  decide

/-- What a reserved code is not: it has no bytes, makes no store init and answers 0/0 (30_encoding.md R84, R85). -/
theorem reserved_fields {cmd : CmdCode} (h : isReserved cmd = true) :
    isInit cmd = false ∧ isSystem cmd = true ∧ (cmd = 0x0 || cmd = 0x2 || cmd = 0x4) = false := by
  revert cmd
  decide

theorem byteCount_of_isSystem {cmd : CmdCode} (h : isSystem cmd = true) (count : Count) : byteCount cmd count = 0 := by
  rw [byteCount, if_pos h]

/-- A command that reads no value and is no INIT responds 0/0 (30_encoding.md R85). -/
theorem respondFor_zero {cmd : CmdCode} (hvalue : (cmd = 0x0 || cmd = 0x2 || cmd = 0x4) = false)
    (hinit : isInit cmd = false) (s : State) : respondFor cmd s = respond 0 false s := by
  have hok : decide (cmd = 0x8) = false := hinit
  rw [respondFor, rdataOf, hvalue, initOkOf, hok]
  rfl

/-- A reserved code is its acceptance, its mark and the response 0/0. -/
theorem commandRule_of_isReserved {cmd : CmdCode} (h : isReserved cmd = true) (addr : Loc) (wdata : Data) (count : Count)
    (s : State) :
    commandRule cmd addr wdata count s =
      respond 0 false (raiseRefuse .reservedCommand (some cmd) (accept cmd addr wdata count s)) := by
  obtain ⟨hinit, hsystem, hvalue⟩ := reserved_fields h
  rw [commandRule, admitted_reserved h, commandBody, hinit, byteCount_of_isSystem hsystem]
  exact respondFor_zero hvalue hinit _

/-- Settles O33: acceptance latches the fields with a count of 0, the mark is set, and the response is the only event. -/
theorem reservedCodesOnlyRespond : Obligations.ReservedCodesOnlyRespond := by
  intro i s hcode hready
  have hres := isReserved_of_le hcode
  have htake : s.env.rspReady.take = some (s.env.rspReady.after 1) := Readiness.take_of_admits hready
  rw [exec_eq_commandRule, commandRule_of_isReserved hres, respond_went (by simpa using htake), raiseRefuse_eq, accept,
    byteCount_of_isSystem (reserved_fields hres).2.1]
  simp [State.completed]

end Sys2Proof.Machine
end

section
/-! The operand fields a command does not read (30_encoding.md R84): acceptance latches them, and no stage looks at the
register. Of the write data WR8 and WR16 read the bytes they write alone (41_byte_access.md R111, 42_multibyte_access.md
R123). -/

namespace Sys2Proof.Machine

open Sys2Proof

/-- The state with `move` of the presented address and the write data `wdata` in their registers. -/
def State.relatched (move : Loc → Loc) (wdata : Data) (s : State) : State :=
  { s with x := { s.x with base := move s.x.base, wdata := wdata } }

section Relatched
variable (move : Loc → Loc) (wdata : Data)

/-! ### The stages that look at neither register -/

theorem initStage_blind_relatched : Blind (State.relatched move wdata) initStage := by
  intro s
  cases h : s.env.storeReady.take with
  | none => rw [initStage_waits h, initStage_waits (s := s.relatched move wdata) h]; rfl
  | some r => rw [initStage_went h, initStage_went (s := s.relatched move wdata) h]; rfl

theorem fetchSource_blind_relatched : Blind (State.relatched move wdata) fetchSource := by
  intro s
  cases h : s.env.source with
  | nil => rw [fetchSource_waits h, fetchSource_waits (s := s.relatched move wdata) h]; rfl
  | cons b rest => rw [fetchSource_went h, fetchSource_went (s := s.relatched move wdata) h]; rfl

theorem assembleByte_blind_relatched : Blind (State.relatched move wdata) assembleByte := fun _ => rfl

theorem deliverByte_blind_relatched : Blind (State.relatched move wdata) deliverByte := by
  intro s
  cases h : s.env.dstReady.take with
  | none => rw [deliverByte_waits h, deliverByte_waits (s := s.relatched move wdata) h]; rfl
  | some r => rw [deliverByte_went h, deliverByte_went (s := s.relatched move wdata) h]; rfl

theorem respond_blind_relatched (d : Data) (ok : Bool) : Blind (State.relatched move wdata) (respond d ok) := by
  intro s
  cases h : s.env.rspReady.take with
  | none => rw [respond_waits h, respond_waits (s := s.relatched move wdata) h]; rfl
  | some r => rw [respond_went h, respond_went (s := s.relatched move wdata) h]; rfl

theorem respondFor_blind_relatched (cmd : CmdCode) : Blind (State.relatched move wdata) (respondFor cmd) :=
  fun s => respond_blind_relatched move wdata _ _ s

theorem admitted_relatched (cmd : CmdCode) (addr : Loc) (w : Data) (count : Count) (s : State) :
    admitted cmd (move addr) wdata count s = (admitted cmd addr w count s).relatched move wdata := by
  unfold admitted markOnAccept
  split
  · simp only [raiseRefuse_eq]; rfl
  · split
    · simp only [noteInit_eq]; rfl
    · rfl

/-! ### The stages that look at the offset -/

section Offset
variable {move} (hmove : ∀ loc k, byteOffset (move loc) k = byteOffset loc k)
include hmove

theorem currentOffset_relatched (s : State) : (s.relatched move wdata).currentOffset = s.currentOffset :=
  hmove s.x.base s.x.k

theorem rmwRead_blind_relatched : Blind (State.relatched move wdata) rmwRead := by
  intro s
  cases h : s.env.storeReady.take with
  | none => rw [rmwRead_waits h, rmwRead_waits (s := s.relatched move wdata) h]; rfl
  | some r =>
    rw [rmwRead_went h, rmwRead_went (s := s.relatched move wdata) h, currentOffset_relatched wdata hmove]
    rfl

theorem rmwWrite_blind_relatched : Blind (State.relatched move wdata) rmwWrite := by
  intro s
  cases h : s.env.storeReady.take with
  | none => rw [rmwWrite_waits h, rmwWrite_waits (s := s.relatched move wdata) h]; rfl
  | some r =>
    rw [rmwWrite_went h, rmwWrite_went (s := s.relatched move wdata) h, currentOffset_relatched wdata hmove]
    rfl

theorem readStage_blind_relatched : Blind (State.relatched move wdata) readStage := by
  intro s
  cases h : s.env.storeReady.take with
  | none => rw [readStage_waits h, readStage_waits (s := s.relatched move wdata) h]; rfl
  | some r =>
    rw [readStage_went h, readStage_went (s := s.relatched move wdata) h, currentOffset_relatched wdata hmove]
    rfl

/-- A byte of a command that does not write from the write data: a read, or a block write. -/
theorem byteRule_blind_relatched {cmd : CmdCode} (h : isWrite cmd = true → isBlock cmd = true) :
    Blind (State.relatched move wdata) (byteRule cmd) := by
  have read := readStage_blind_relatched wdata hmove
  unfold byteRule
  split
  · split
    · exact ((fetchSource_blind_relatched move wdata).andThen (rmwRead_blind_relatched wdata hmove)).andThen
        (rmwWrite_blind_relatched wdata hmove)
    · exact read.andThen (deliverByte_blind_relatched move wdata)
  · rename_i hblock
    rw [if_neg fun hwrite => hblock (h hwrite)]
    exact read.andThen (assembleByte_blind_relatched move wdata)

/-- A byte written from the write data sees that byte of it alone. -/
theorem writeDataByte_relatched {s : State} (h : dataByte wdata s.x.k = dataByte s.x.wdata s.x.k) :
    writeDataByte (s.relatched move wdata) = (writeDataByte s).map (State.relatched move wdata) := by
  have hfetch : fetchData (s.relatched move wdata) = (fetchData s).map (State.relatched move wdata) := by
    simp only [fetchData, State.relatched, h, Progress.map]
  rw [writeDataByte, hfetch, Progress.map_andThen (rmwRead_blind_relatched wdata hmove),
    Progress.map_andThen (rmwWrite_blind_relatched wdata hmove)]
  rfl

/-- Bytes written from the write data see those bytes of it alone (20_memory.md R58). -/
theorem memWrite_relatched (n : Nat) {s : State}
    (h : ∀ j, j < n → dataByte wdata (s.x.k + BitVec.ofNat 16 j) = dataByte s.x.wdata (s.x.k + BitVec.ofNat 16 j)) :
    memWrite n (s.relatched move wdata) = (memWrite n s).map (State.relatched move wdata) := by
  unfold memWrite
  induction n generalizing s with
  | zero => rfl
  | succ n ih =>
    have hfirst := writeDataByte_relatched wdata hmove (s := s) (by simpa using h 0 (by omega))
    rw [repeatBytes_succ, repeatBytes_succ, hfirst]
    have hsame := byteRule_sameCommand 0x1 s
    cases hbyte : writeDataByte s with
    | waits t => rfl
    | went t =>
      have hk : t.x.k = s.x.k + 1 := byteRule_index (cmd := 0x1) hbyte
      have hw : t.x.wdata = s.x.wdata := by
        have := hsame.wdata
        rwa [show byteRule 0x1 s = _ from hbyte] at this
      refine ih fun j hj => ?_
      have := h (j + 1) (by omega)
      rw [Nat.add_comm j 1, BitVec.ofNat_add, ← BitVec.add_assoc] at this
      rw [hk, hw]
      exact this

end Offset

end Relatched

/-! ### A field that is not read -/

/-- The two states differ at most in the registers of the presented address and the write data. -/
def SameButLatched (t u : State) : Prop := u = { t with x := { t.x with base := u.x.base, wdata := u.x.wdata } }

theorem SameButLatched.refl (t : State) : SameButLatched t t := rfl

theorem SameButLatched.trans {s t u : State} (h : SameButLatched s t) (h' : SameButLatched t u) : SameButLatched s u := by
  unfold SameButLatched at h h' ⊢
  rw [h', h]

theorem sameButLatched_relatched (move : Loc → Loc) (wdata : Data) (s : State) :
    SameButLatched s (s.relatched move wdata) := rfl

/-- The count of a command that is no block command does not say how many bytes it has (30_encoding.md R84). -/
theorem commandRule_unused_count {cmd : CmdCode} (h : isBlock cmd = false) (addr : Loc) (wdata : Data) (c c' : Count)
    (s : State) : commandRule cmd addr wdata c s = commandRule cmd addr wdata c' s := by
  have hcount : byteCount cmd c = byteCount cmd c' := by simp only [byteCount, h, Bool.false_eq_true, if_false]
  unfold commandRule admitted accept
  rw [hcount]

/-- INIT and the reserved codes read neither the address nor the write data. -/
theorem commandRule_unused_addr {cmd : CmdCode} (h : isSystem cmd = true) (addr addr' : Loc) (wdata wdata' : Data)
    (count : Count) (s : State) :
    commandRule cmd addr' wdata' count s =
      (commandRule cmd addr wdata count s).map (State.relatched (fun _ => addr') wdata') := by
  have hbody : Blind (State.relatched (fun _ => addr') wdata') (commandBody cmd (byteCount cmd count)) := by
    unfold commandBody
    split
    · exact initStage_blind_relatched _ _
    · rw [byteCount_of_isSystem h]
      exact fun _ => rfl
  rw [commandRule, commandRule, admitted_relatched (fun _ => addr') wdata' cmd addr wdata, hbody,
    Progress.map_andThen (respondFor_blind_relatched _ _ cmd)]

/-- A command that is no WR8, WR16 or WR32 does not read the write data. -/
theorem commandRule_unused_wdata {cmd : CmdCode} (h : isWrite cmd = true → isBlock cmd = true) (addr : Loc)
    (wdata wdata' : Data) (count : Count) (s : State) :
    commandRule cmd addr wdata' count s = (commandRule cmd addr wdata count s).map (State.relatched id wdata') := by
  have hbody : Blind (State.relatched id wdata') (commandBody cmd (byteCount cmd count)) := by
    unfold commandBody
    split
    · exact initStage_blind_relatched _ _
    · exact (byteRule_blind_relatched wdata' (fun _ _ => rfl) h).repeatBytes _
  rw [commandRule, commandRule, show addr = id addr from rfl, admitted_relatched id wdata' cmd addr wdata, hbody,
    Progress.map_andThen (respondFor_blind_relatched _ _ cmd)]
  rfl

/-! ### Which codes use which field (30_encoding.md R84) -/

theorem isSystem_iff (cmd : CmdCode) : isSystem cmd = true ↔ 0x8 ≤ cmd.toNat := by
  revert cmd
  decide

theorem isBlock_iff (cmd : CmdCode) : isBlock cmd = true ↔ cmd = 0x6 ∨ cmd = 0x7 := by
  revert cmd
  decide

theorem isBlock_of_not_data_write {cmd : CmdCode} (h : ¬ (cmd = 0x1 ∨ cmd = 0x3 ∨ cmd = 0x5))
    (hw : isWrite cmd = true) : isBlock cmd = true := by
  revert cmd
  decide

/-- Settles O40: one unused field after the other is changed; the count says nothing, the others stay in their registers. -/
theorem unusedFieldsHaveNoEffect : Obligations.UnusedFieldsHaveNoEffect := by
  intro r a w c s
  refine ⟨_, _, exec_decodeRequest r s, exec_decodeRequest _ s, ?_⟩
  have hcount : commandRule r.cmd r.addr r.wdata (if r.cmd = 0x6 ∨ r.cmd = 0x7 then r.count else c) s =
      commandRule r.cmd r.addr r.wdata r.count s := by
    split
    · rfl
    · rename_i h
      exact commandRule_unused_count (by rwa [← Bool.not_eq_true, isBlock_iff]) _ _ _ _ s
  have hwdata (n : Count) : SameButLatched (commandRule r.cmd r.addr r.wdata n s).state
      (commandRule r.cmd r.addr (if r.cmd = 0x1 ∨ r.cmd = 0x3 ∨ r.cmd = 0x5 then r.wdata else w) n s).state := by
    split
    · exact .refl _
    · rename_i h
      rw [commandRule_unused_wdata (isBlock_of_not_data_write h) r.addr r.wdata w n s, Progress.map_state]
      exact sameButLatched_relatched _ _ _
  have haddr (v : Data) (n : Count) : SameButLatched (commandRule r.cmd r.addr v n s).state
      (commandRule r.cmd (if 0x8 ≤ r.cmd.toNat then a else r.addr) v n s).state := by
    split
    · rename_i h
      rw [commandRule_unused_addr ((isSystem_iff _).mpr h) r.addr a v v n s, Progress.map_state]
      exact sameButLatched_relatched _ _ _
    · exact .refl _
  rw [← hcount]
  exact (hwdata _).trans (haddr _ _)

/-! ### The write data above the bytes written -/

/-- Values that agree in their low `n` bytes agree in each of them. -/
theorem dataByte_congr {v w : Data} {n j : Nat} (h : v.extractLsb' 0 (8 * n) = w.extractLsb' 0 (8 * n)) (hj : j < n) :
    dataByte v (BitVec.ofNat 16 j) = dataByte w (BitVec.ofNat 16 j) := by
  have hle : 8 * (BitVec.ofNat 16 j).toNat + 8 ≤ 8 * n := by
    rw [BitVec.toNat_ofNat]
    omega
  rw [dataByte_eq_extractLsb', dataByte_eq_extractLsb', ← BitVec.extractLsb'_extractLsb'_of_le hle, h,
    BitVec.extractLsb'_extractLsb'_of_le hle]

/-- A write of the low `n` bytes of the write data is the same with any other value that has those bytes. -/
theorem dataWrite_high_bits {v w : Data} {n : Nat} (h : v.extractLsb' 0 (8 * n) = w.extractLsb' 0 (8 * n)) (cmd : CmdCode)
    (addr : Loc) (c : Count) (s : State) :
    ((memWrite n (accept cmd addr w c s)).andThen (respond 0 false)).state =
      ((memWrite n (accept cmd addr v c s)).andThen (respond 0 false)).state.relatched id w := by
  have haccept : accept cmd addr w c s = (accept cmd addr v c s).relatched id w := rfl
  rw [haccept, memWrite_relatched (move := id) w (fun _ _ => rfl) n fun j hj => by simpa using (dataByte_congr h hj).symm,
    Progress.map_andThen (respond_blind_relatched id w _ _), Progress.map_state]

/-- Settles O41: the bytes of WR8 and WR16 are the low one and two of the write data. -/
theorem highWriteDataBitsAreIgnored : Obligations.HighWriteDataBitsAreIgnored := fun addr _ _ c s =>
  ⟨fun h => ⟨_, _, rfl, rfl, dataWrite_high_bits (n := 1) h 0x1 addr c s⟩,
    fun h => ⟨_, _, rfl, rfl, dataWrite_high_bits (n := 2) h 0x3 addr c s⟩⟩

end Sys2Proof.Machine
end

section
/-! The read commands byte by byte (20_memory.md R55, R59, 43_block_access.md R141): one state for each byte read, and what
reading a number of bytes leaves in each field. RD8, RD16, RD32 and RDBLK differ in where a byte goes alone. -/

namespace Sys2Proof.Machine

open Sys2Proof

/-! ### One byte -/

/-- One byte of a read command. -/
def readByte (block : Bool) : State → Progress := if block then readBlockByte else readDataByte

theorem byteRule_of_not_isWrite {cmd : CmdCode} (h : isWrite cmd = false) : byteRule cmd = readByte (isBlock cmd) := by
  simp only [byteRule, readByte, h, Bool.false_eq_true, if_false]

/-- The byte the next read returns. -/
def State.nextRead (s : State) : Byte := laneByte s.currentOffset (s.readWord (wordIndex s.currentOffset))

/-- The event of delivering byte `k`: a block read gives it to the destination stream, another read keeps it in `x[acc]`. -/
def deliverEvents (block : Bool) (k : Count) (b : Byte) : List Event := if block then [.destination k b] else []

/-- The state with the next byte read and delivered, whatever the store's status. -/
def State.got (block : Bool) (s : State) : State :=
  { s with
      x := { s.x with
        ph := if block then .dst else .rd
        cur := s.nextRead
        acc := if block then s.x.acc else putDataByte s.x.acc s.x.k s.nextRead
        k := s.x.k + 1 }
      inFlight := none
      env := { s.env with
        storeReady := s.env.storeReady.after 1
        dstReady := if block then s.env.dstReady.after 1 else s.env.dstReady }
      draws := s.drawsNext
      history := s.history ++
        (.storeRead (wordIndex s.currentOffset) (s.readWord (wordIndex s.currentOffset))
          :: deliverEvents block s.x.k s.nextRead) }

/-- The other agents answer a read of `n` bytes: the Store each of them, and the Host each that a block read delivers. -/
def State.answersReads (s : State) (block : Bool) (n : Nat) : Prop :=
  s.env.storeReady.admits n = true ∧ (block = true → s.env.dstReady.admits n = true)

theorem readByte_went {s : State} {block : Bool} {n : Nat} (h : s.answersReads block (n + 1)) :
    readByte block s = .went (s.got block) := by
  obtain ⟨hstore, hdst⟩ := h
  have hread := Readiness.take_of_admits hstore
  cases block with
  | false => exact readDataByte_went hread
  | true => exact readBlockByte_went hread (Readiness.take_of_admits (hdst rfl))

theorem answersReads_got {s : State} {block : Bool} {n : Nat} (h : s.answersReads block (n + 1)) :
    (s.got block).answersReads block n := by
  obtain ⟨hstore, hdst⟩ := h
  rw [Nat.add_comm] at hstore hdst
  refine ⟨Readiness.admits_after hstore, fun hb => ?_⟩
  simp only [State.got, hb, if_true]
  exact Readiness.admits_after (hdst hb)

/-! ### A number of bytes -/

/-- The state with `n` bytes read, one after the other. -/
def State.gotAll (s : State) (block : Bool) (n : Nat) : State := (State.got block)^[n] s

theorem gotAll_succ (s : State) (block : Bool) (n : Nat) :
    s.gotAll block (n + 1) = (s.gotAll block n).got block := Function.iterate_succ_apply' ..

/-- Agents that answer the read of `n` bytes let all be read. -/
theorem repeatBytes_readByte {s : State} {block : Bool} {n : Nat} (h : s.answersReads block n) :
    repeatBytes n (readByte block) s = .went (s.gotAll block n) := by
  induction n generalizing s with
  | zero => rfl
  | succ n ih =>
    rw [repeatBytes_succ, readByte_went h]
    exact ih (answersReads_got h)

section Fields
variable (s : State) (block : Bool) (n : Nat)

theorem gotAll_sameCommand : SameCommand s (s.gotAll block n) := by
  induction n with
  | zero => exact .refl s
  | succ n ih =>
    rw [gotAll_succ]
    exact ih.trans ⟨rfl, rfl, rfl, rfl, rfl, rfl, rfl⟩

theorem gotAll_store : (s.gotAll block n).store = s.store := by
  induction n with
  | zero => rfl
  | succ n ih => rw [gotAll_succ, ← ih]; rfl

theorem gotAll_rspReady : (s.gotAll block n).env.rspReady = s.env.rspReady := by
  induction n with
  | zero => rfl
  | succ n ih => rw [gotAll_succ, ← ih]; rfl

theorem gotAll_index : (s.gotAll block n).x.k = s.x.k + BitVec.ofNat 16 n := by
  induction n with
  | zero => exact (BitVec.add_zero _).symm
  | succ n ih =>
    rw [gotAll_succ, BitVec.ofNat_add, ← BitVec.add_assoc, ← ih]
    rfl

theorem gotAll_draws : (s.gotAll block n).draws = s.drawsAfter n := by
  induction n with
  | zero => cases h : s.store.status <;> simp [State.gotAll, State.drawsAfter, h]
  | succ n ih =>
    rw [gotAll_succ]
    simp only [State.got, State.drawsNext, gotAll_store, ih, State.drawsAfter]
    cases s.store.status <;> rfl

/-- The word the next read returns is that of the command's byte `n`: nothing read so far changed a cell. -/
theorem gotAll_readWord (loc : Loc) :
    (s.gotAll block n).readWord (wordIndex (offsetAt loc n)) = s.wordAt loc n := by
  rw [State.readWord, gotAll_store, gotAll_draws, State.drawsAfter, State.wordAt]
  cases s.store.status <;> rfl

end Fields

/-! ### From byte 0 on -/

/-- The events of reading `n` bytes, of a block read or another. -/
def State.readEventsFor (s : State) (block : Bool) (loc : Loc) (n : Nat) : List Event :=
  if block then s.blockReadEvents loc n else s.readEvents loc n

theorem readEventsFor_succ (s : State) (block : Bool) (loc : Loc) (n : Nat) :
    s.readEventsFor block loc (n + 1) = s.readEventsFor block loc n ++
      (.storeRead (cellAt loc n) (s.wordAt loc n) :: deliverEvents block (BitVec.ofNat 16 n) (s.byteAt loc n)) := by
  cases block <;>
    simp [State.readEventsFor, State.blockReadEvents, State.readEvents, deliverEvents, List.range_succ]

/-- The store reads of a command are those of its bytes, whether it delivers them to the destination stream or not. -/
theorem storeTrace_readEventsFor (s : State) (block : Bool) (loc : Loc) (n : Nat) :
    storeTrace (s.readEventsFor block loc n) = s.readEvents loc n := by
  induction n with
  | zero => cases block <;> rfl
  | succ n ih =>
    have hdeliver (b : Byte) : storeTrace (deliverEvents block (BitVec.ofNat 16 n) b) = [] := by cases block <;> rfl
    have hread (es : List Event) : storeTrace (.storeRead (cellAt loc n) (s.wordAt loc n) :: es) =
        .storeRead (cellAt loc n) (s.wordAt loc n) :: storeTrace es := rfl
    rw [readEventsFor_succ, storeTrace_append, ih, hread, hdeliver]
    exact (readEventsFor_succ s false loc n).symm

theorem destinationBytes_append (es es' : List Event) :
    destinationBytes (es ++ es') = destinationBytes es ++ destinationBytes es' := List.filterMap_append ..

/-- A block read delivers its bytes in order (43_block_access.md R141). -/
theorem destinationBytes_readEventsFor (s : State) (loc : Loc) (n : Nat) :
    destinationBytes (s.readEventsFor true loc n) = (List.range n).map (s.byteAt loc) := by
  induction n with
  | zero => rfl
  | succ n ih =>
    rw [readEventsFor_succ, destinationBytes_append, ih, List.range_succ, List.map_append]
    rfl

section FromZero
variable {s : State} (hk : s.x.k = 0)
include hk

theorem gotAll_index_zero (block : Bool) (n : Nat) : (s.gotAll block n).x.k = BitVec.ofNat 16 n := by
  rw [gotAll_index, hk]
  exact BitVec.zero_add _

theorem gotAll_currentOffset (block : Bool) (n : Nat) :
    (s.gotAll block n).currentOffset = offsetAt s.x.base n := by
  rw [State.currentOffset, gotAll_index_zero hk, (gotAll_sameCommand s block n).base]
  rfl

theorem gotAll_nextRead (block : Bool) (n : Nat) : (s.gotAll block n).nextRead = s.byteAt s.x.base n := by
  rw [State.nextRead, gotAll_currentOffset hk, gotAll_readWord]
  rfl

theorem gotAll_history (block : Bool) (n : Nat) :
    (s.gotAll block n).history = s.history ++ s.readEventsFor block s.x.base n := by
  induction n with
  | zero => cases block <;> exact (List.append_nil _).symm
  | succ n ih =>
    rw [gotAll_succ, readEventsFor_succ, ← List.append_assoc, ← ih]
    simp only [State.got, gotAll_nextRead hk, gotAll_currentOffset hk, gotAll_readWord, gotAll_index_zero hk]
    rfl

end FromZero

/-! ### The assembled value (20_memory.md R58, R59) -/

/-- The eight bits of byte `k` are those put there, every other bit is as before. -/
theorem getLsbD_putDataByte (v : Data) (k : Count) (b : Byte) {i : Nat} (hi : i < 32) :
    (putDataByte v k b).getLsbD i =
      if 8 * k.toNat ≤ i ∧ i < 8 * k.toNat + 8 then b.getLsbD (i - 8 * k.toNat) else v.getLsbD i := by
  have hmask : (0xFF : Data) = (BitVec.allOnes 8).setWidth 32 := rfl
  simp only [putDataByte, hmask, BitVec.getLsbD_or, BitVec.getLsbD_and, BitVec.getLsbD_not, BitVec.getLsbD_shiftLeft,
    BitVec.getLsbD_setWidth, BitVec.getLsbD_allOnes, hi, decide_true, Bool.true_and]
  by_cases hlow : i < 8 * k.toNat
  · simp [hlow, Nat.not_le.mpr hlow]
  · have hshift : i - 8 * k.toNat < 32 := by omega
    by_cases hhigh : i < 8 * k.toNat + 8
    · have : i - 8 * k.toNat < 8 := by omega
      simp [hlow, hhigh, hshift, this, Nat.not_lt.mp hlow]
    · have hge : 8 ≤ i - 8 * k.toNat := by omega
      simp [hlow, hhigh, hshift, Nat.not_lt.mpr hge, BitVec.getLsbD_of_ge b _ hge]

/-- Putting byte `k` of a value sets that byte and keeps the others. -/
theorem dataByte_putDataByte (v : Data) (b : Byte) {j k : Count} (hj : j.toNat < 4) :
    dataByte (putDataByte v k b) j = if j = k then b else dataByte v j := by
  rw [dataByte_eq_extractLsb', dataByte_eq_extractLsb']
  ext i hi
  rw [BitVec.getElem_extractLsb', getLsbD_putDataByte v k b (by omega)]
  by_cases h : j = k
  · rw [if_pos (by subst h; omega), if_pos h, h, Nat.add_sub_cancel_left, BitVec.getLsbD_eq_getElem hi]
  · have hne : j.toNat ≠ k.toNat := fun heq => h (BitVec.eq_of_toNat_eq heq)
    rw [if_neg (by omega), if_neg h, BitVec.getElem_extractLsb']
/-- The bytes read, four at most, are the bytes of the assembled value (20_memory.md R59). -/
theorem dataByte_gotAll {s : State} (hk : s.x.k = 0) {n j : Nat} (hn : n ≤ 4) (hj : j < n) :
    dataByte (s.gotAll false n).x.acc (BitVec.ofNat 16 j) = s.byteAt s.x.base j := by
  induction n with
  | zero => exact absurd hj (Nat.not_lt_zero j)
  | succ n ih =>
    have hnat {i : Nat} (hi : i < 5) : (BitVec.ofNat 16 i).toNat = i := by
      rw [BitVec.toNat_ofNat]
      omega
    have hput : (s.gotAll false (n + 1)).x.acc =
        putDataByte (s.gotAll false n).x.acc (BitVec.ofNat 16 n) (s.byteAt s.x.base n) := by
      rw [gotAll_succ, ← gotAll_nextRead hk false n, ← gotAll_index_zero hk false n]
      rfl
    rw [hput, dataByte_putDataByte _ _ (by rw [hnat (by omega)]; omega)]
    by_cases heq : j = n
    · rw [heq, if_pos rfl]
    · have hne : BitVec.ofNat 16 j ≠ BitVec.ofNat 16 n := fun h => heq <| by
        rw [← hnat (i := j) (by omega), h, hnat (by omega)]
      rw [if_neg hne]
      exact ih (by omega) (by omega)

theorem dataBytes_gotAll {s : State} (hk : s.x.k = 0) {n : Nat} (hn : n ≤ 4) :
    dataBytes (s.gotAll false n).x.acc n = (List.range n).map (s.byteAt s.x.base) :=
  List.map_congr_left fun _ hj => dataByte_gotAll hk hn (List.mem_range.mp hj)

end Sys2Proof.Machine
end

section
/-! The two spellings of an access (30_encoding.md R91): a read or a write of 1, 2 or 4 bytes has the store trace of the
block command of as many. -/

namespace Sys2Proof.Machine

open Sys2Proof

theorem respond_history_always {s : State} (h : s.env.rspReady = .always) (d : Data) (ok : Bool) :
    (respond d ok s).state.history = s.history ++ [.response d ok] := by
  rw [respond_went (r := .always) (by rw [h]; rfl)]
  rfl

@[simp] theorem respond_source (s : State) (d : Data) (ok : Bool) :
    (respond d ok s).state.env.source = s.env.source := by
  cases h : s.env.rspReady.take with
  | none => rw [respond_waits h]; rfl
  | some r => rw [respond_went h]; rfl

theorem storeTrace_response (es : List Event) (d : Data) (ok : Bool) :
    storeTrace (es ++ [.response d ok]) = storeTrace es := by
  rw [storeTrace_append]
  exact List.append_nil _

/-! ### Reads -/

/-- The bytes of a read command read: the state before its response. -/
def readBy (cmd : CmdCode) (addr : Loc) (wdata : Data) (count : Count) (n : Nat) (s : State) : State :=
  (accept cmd addr wdata count s).gotAll (isBlock cmd) n

/-- With the other agents ready for its transfers, a read command of `n` bytes reads them and responds. -/
theorem commandRule_of_read {cmd : CmdCode} (hsystem : isSystem cmd = false) (hwrite : isWrite cmd = false) (addr : Loc)
    (wdata : Data) {count : Count} {n : Nat} (hn : (byteCount cmd count).toNat = n) {s : State}
    (hready : s.answersReads (isBlock cmd) n) :
    commandRule cmd addr wdata count s = respondFor cmd (readBy cmd addr wdata count n s) := by
  have hinit : ¬ isInit cmd = true := fun hi => by simp [isSystem_of_isInit hi] at hsystem
  have haccepted : (accept cmd addr wdata count s).answersReads (isBlock cmd) n := hready
  rw [commandRule, admitted_data hsystem, commandBody, if_neg hinit, byteRule_of_not_isWrite hwrite, hn,
    repeatBytes_readByte haccepted]
  rfl

theorem answersReads_of_allReady {s : State} (h : s.allReady) (block : Bool) (n : Nat) : s.answersReads block n := by
  obtain ⟨hstore, hdst, -⟩ := h
  exact ⟨by rw [hstore]; rfl, fun _ => by rw [hdst]; rfl⟩

/-- A read command's events: its reads, each delivered by a block read, and the response. -/
theorem readBy_history (cmd : CmdCode) (addr : Loc) (wdata : Data) (count : Count) (n : Nat) (s : State) :
    (readBy cmd addr wdata count n s).history = s.history ++ s.readEventsFor (isBlock cmd) addr n :=
  gotAll_history (s := accept cmd addr wdata count s) rfl (isBlock cmd) n

theorem readBy_store (cmd : CmdCode) (addr : Loc) (wdata : Data) (count : Count) (n : Nat) (s : State) :
    (readBy cmd addr wdata count n s).store = s.store := gotAll_store _ _ _

theorem readBy_rspReady (cmd : CmdCode) (addr : Loc) (wdata : Data) (count : Count) (n : Nat) (s : State) :
    (readBy cmd addr wdata count n s).env.rspReady = s.env.rspReady := gotAll_rspReady _ _ _

/-- The bytes of the value that a read command of at most four bytes assembles. -/
theorem dataBytes_readBy {cmd : CmdCode} (hblock : isBlock cmd = false) (addr : Loc) (wdata : Data) (count : Count) {n : Nat}
    (hn : n ≤ 4) (s : State) :
    dataBytes (readBy cmd addr wdata count n s).x.acc n = (List.range n).map (s.byteAt addr) := by
  rw [readBy, hblock]
  exact dataBytes_gotAll (s := accept cmd addr wdata count s) rfl hn

/-- RD8, RD16 and RD32 respond with the value they assembled (30_encoding.md R85). -/
theorem respondFor_value {cmd : CmdCode} (h : cmd = 0x0 ∨ cmd = 0x2 ∨ cmd = 0x4) (s : State) :
    respondFor cmd s = respond s.x.acc false s := by
  rcases h with rfl | rfl | rfl <;> rfl

theorem value_read_fields {cmd : CmdCode} (h : cmd = 0x0 ∨ cmd = 0x2 ∨ cmd = 0x4) :
    isSystem cmd = false ∧ isWrite cmd = false ∧ isBlock cmd = false := by
  revert cmd
  decide

/-- The states `t` and `u` after a read of `n` bytes into the response and to the destination stream: one store trace, one
store, and the bytes delivered are those of the value in the response. -/
structure ReadsAlike (n : Nat) (s t u : State) : Prop where
  trace : storeTrace t.history = storeTrace u.history
  store : u.store = t.store
  value : ∃ v : Data, t.history.getLast? = some (.response v false) ∧
    destinationBytes (u.history.drop s.history.length) = dataBytes v n

/-- A read command of `n` bytes that responds with its value, against RDBLK of `n` bytes. -/
theorem readsAlike_rdblk {cmd : CmdCode} (hcmd : cmd = 0x0 ∨ cmd = 0x2 ∨ cmd = 0x4) (addr : Loc) (wdata : Data)
    {count : Count} {n : Nat} (hn : (byteCount cmd count).toNat = n) (hle : n ≤ 4) {s : State} (hs : s.allReady) :
    ReadsAlike n s (commandRule cmd addr wdata count s).state
      (commandRule 0x6 addr wdata (BitVec.ofNat 16 n) s).state := by
  obtain ⟨hsystem, hwrite, hblock⟩ := value_read_fields hcmd
  have hcount : (byteCount 0x6 (BitVec.ofNat 16 n)).toNat = n := Nat.mod_eq_of_lt (by omega)
  have hrsp (op : CmdCode) (c : Count) : (readBy op addr wdata c n s).env.rspReady = .always :=
    (readBy_rspReady ..).trans hs.2.2
  rw [commandRule_of_read hsystem hwrite addr wdata hn (answersReads_of_allReady hs _ n), respondFor_value hcmd,
    commandRule_of_read rfl rfl addr wdata hcount (answersReads_of_allReady hs _ n), respondFor_zero rfl rfl]
  constructor
  case trace =>
    rw [respond_history_always (hrsp _ _), respond_history_always (hrsp _ _), storeTrace_response, storeTrace_response,
      readBy_history, readBy_history, storeTrace_append, storeTrace_append, storeTrace_readEventsFor,
      storeTrace_readEventsFor]
  case store => rw [respond_store, respond_store, readBy_store, readBy_store]
  case value =>
    refine ⟨(readBy cmd addr wdata count n s).x.acc, ?_, ?_⟩
    · rw [respond_history_always (hrsp _ _), List.getLast?_concat]
    · have hresponse : destinationBytes [.response 0 false] = [] := rfl
      rw [respond_history_always (hrsp _ _), readBy_history, List.append_assoc, List.drop_left, destinationBytes_append,
        hresponse, List.append_nil, dataBytes_readBy hblock addr wdata count hle]
      exact destinationBytes_readEventsFor s addr n

/-- Settles O29: both spellings read the same words, and the bytes delivered are put together in the value. -/
theorem readSpellingsHaveOneTrace : Obligations.ReadSpellingsHaveOneTrace := by
  intro addr w c s hs i n hi
  have alike {cmd : CmdCode} (hcmd : cmd = 0x0 ∨ cmd = 0x2 ∨ cmd = 0x4) (hn : (byteCount cmd c).toNat = n)
      (hle : n ≤ 4) :=
    readsAlike_rdblk hcmd addr w hn hle hs
  obtain ⟨htrace, hstore, hvalue⟩ : ReadsAlike n s
      (commandRule i.code (encodeRequest i).addr (encodeRequest i).wdata (encodeRequest i).count s).state
      (commandRule 0x6 addr w (BitVec.ofNat 16 n) s).state := by
    simp only [List.mem_cons, List.not_mem_nil, or_false, Prod.mk.injEq] at hi
    rcases hi with ⟨rfl, rfl⟩ | ⟨rfl, rfl⟩ | ⟨rfl, rfl⟩
    · exact alike (cmd := 0x0) (.inl rfl) rfl (by decide)
    · exact alike (cmd := 0x2) (.inr (.inl rfl)) rfl (by decide)
    · exact alike (cmd := 0x4) (.inr (.inr rfl)) rfl (by decide)
  exact ⟨_, _, exec_eq_commandRule i s, exec_eq_commandRule _ s, htrace, hstore, hvalue⟩

/-! ### Writes -/

/-- Two states of writes of the same bytes to the same store, whose store traces so far are the same. -/
structure WritesAlike (s u : State) : Prop where
  store : u.store = s.store
  draws : u.draws = s.draws
  base : u.x.base = s.x.base
  index : u.x.k = s.x.k
  trace : storeTrace u.history = storeTrace s.history

/-- A byte written makes the same two store transfers wherever it comes from. -/
theorem WritesAlike.wrote {s u : State} (h : WritesAlike s u) (block block' : Bool) (b : Byte) :
    WritesAlike (s.wrote block b) (u.wrote block' b) := by
  obtain ⟨hstore, hdraws, hbase, hindex, htrace⟩ := h
  have hoffset : u.currentOffset = s.currentOffset := by rw [State.currentOffset, State.currentOffset, hbase, hindex]
  have hread (i : WordIndex) : u.readWord i = s.readWord i := by rw [State.readWord, State.readWord, hstore, hdraws]
  have hafter (j : Nat) : u.drawsAfter j = s.drawsAfter j := by rw [State.drawsAfter, State.drawsAfter, hstore, hdraws]
  have hfetch (block : Bool) (k : Count) : storeTrace (fetchEvents block k b) = [] := by cases block <;> rfl
  constructor
  case store => simp only [State.wrote, State.memAfterWrite, hstore, hoffset, hread, hafter]
  case draws => exact hafter 2
  case base => exact hbase
  case index => exact congrArg (· + 1) hindex
  case trace => simp only [State.wrote, storeTrace_append, hfetch, htrace, hoffset, hread]

theorem WritesAlike.wroteAll {s u : State} (h : WritesAlike s u) (block block' : Bool) (bytes : List Byte) :
    WritesAlike (s.wroteAll block bytes) (u.wroteAll block' bytes) := by
  induction bytes generalizing s u with
  | nil => exact h
  | cons b bs ih => exact ih (h.wrote block block' b)

/-- Two write commands of the same bytes at the same address, from one store, up to their responses. -/
theorem writtenBy_alike (cmd cmd' : CmdCode) (addr : Loc) (wdata wdata' : Data) (count count' : Count)
    (bytes source : List Byte) (s : State) :
    WritesAlike (writtenBy cmd addr wdata count bytes s) (writtenBy cmd' addr wdata' count' bytes (s.withSource source)) :=
  have haccepted : WritesAlike (accept cmd addr wdata count s) (accept cmd' addr wdata' count' (s.withSource source)) :=
    ⟨rfl, rfl, rfl, rfl, rfl⟩
  haccepted.wroteAll _ _ bytes

theorem writtenBy_rspReady (cmd : CmdCode) (addr : Loc) (wdata : Data) (count : Count) (bytes : List Byte) (s : State) :
    (writtenBy cmd addr wdata count bytes s).env.rspReady = s.env.rspReady := wroteAll_rspReady _ _ _

/-- The states `t` and `u` after a write from the write data and from the source stream: one store trace, one store, and the
source bytes left are `rest`. -/
structure WritesEndAlike (rest : List Byte) (t u : State) : Prop where
  trace : storeTrace t.history = storeTrace u.history
  store : u.store = t.store
  source : u.env.source = rest

/-- A write command, against WRBLK of the same bytes offered on the source stream. -/
theorem Writes.endAlike_wrblk {cmd : CmdCode} {addr : Loc} {wdata : Data} {count : Count} {bytes : List Byte} {s : State}
    (h : Writes cmd addr wdata count bytes s) (hlen : bytes.length < 2 ^ 16) (hs : s.allReady) (wdata' : Data)
    (rest : List Byte) :
    WritesEndAlike rest (commandRule cmd addr wdata count s).state
      (commandRule 0x7 addr wdata' (BitVec.ofNat 16 bytes.length) (s.withSource (bytes ++ rest))).state := by
  obtain ⟨hstore, -, hrsp⟩ := hs
  have hblock : Writes 0x7 addr wdata' (BitVec.ofNat 16 bytes.length) bytes (s.withSource (bytes ++ rest)) :=
    writes_source (List.prefix_append bytes rest) (by rw [BitVec.toNat_ofNat, Nat.mod_eq_of_lt hlen]) addr wdata'
  have halike := writtenBy_alike cmd 0x7 addr wdata wdata' count (BitVec.ofNat 16 bytes.length) bytes (bytes ++ rest) s
  rw [h.commandRule_eq (by rw [hstore]; rfl), hblock.commandRule_eq (by rw [State.withSource_env, hstore]; rfl)]
  constructor
  case trace =>
    rw [respond_history_always (by rw [writtenBy_rspReady, hrsp]),
      respond_history_always (by rw [writtenBy_rspReady, State.withSource_env, hrsp]), storeTrace_response,
      storeTrace_response, halike.trace]
  case store => rw [respond_store, respond_store, halike.store]
  case source =>
    rw [respond_source, writtenBy_source]
    exact List.drop_left

/-- Settles O30: byte for byte both spellings make the same store transfers. -/
theorem writeSpellingsHaveOneTrace : Obligations.WriteSpellingsHaveOneTrace := by
  intro addr w w' c rest s hs i n hi
  have alike {cmd : CmdCode} (h : Writes cmd addr w c (dataBytes w n) s) (hn : n < 2 ^ 16) :=
    h.endAlike_wrblk (by rwa [dataBytes_length]) hs w' rest
  simp only [dataBytes_length] at alike
  obtain ⟨htrace, hstore, hsource⟩ : WritesEndAlike rest
      (commandRule i.code (encodeRequest i).addr (encodeRequest i).wdata (encodeRequest i).count s).state
      (commandRule 0x7 addr w' (BitVec.ofNat 16 n) (s.withSource (dataBytes w n ++ rest))).state := by
    simp only [List.mem_cons, List.not_mem_nil, or_false, Prod.mk.injEq] at hi
    rcases hi with ⟨rfl, rfl⟩ | ⟨rfl, rfl⟩ | ⟨rfl, rfl⟩
    · exact alike (writes_wr8 addr w c s) (by decide)
    · exact alike (writes_wr16 addr w c s) (by decide)
    · exact alike (writes_wr32 addr w c s) (by decide)
  exact ⟨_, _, exec_eq_commandRule i s, exec_eq_commandRule _ _, htrace, hstore, hsource⟩

end Sys2Proof.Machine
end

section
/-! INIT gates nothing (40_init.md R101). The relation `SameShape` says that two states agree in all that chooses a command's
transfers and waits; every stage keeps it, whatever the two stores answer. -/

namespace Sys2Proof.Machine

open Sys2Proof

/-- The two states have the same phase, current byte and transfer in progress, the other agents offer the same to both, and the
events so far are the same but for their data. -/
structure SameShape (s u : State) : Prop where
  ph : s.x.ph = u.x.ph
  base : s.x.base = u.x.base
  k : s.x.k = u.x.k
  inFlight : s.inFlight = u.inFlight
  env : s.env = u.env
  history : s.history.map Event.shape = u.history.map Event.shape

/-- Both steps are made or both wait, and the states reached have the same shape. -/
inductive StepsShaped : Progress → Progress → Prop where
  | went {s u : State} (h : SameShape s u) : StepsShaped (.went s) (.went u)
  | waits {s u : State} (h : SameShape s u) : StepsShaped (.waits s) (.waits u)

theorem StepsShaped.state {p q : Progress} (h : StepsShaped p q) : SameShape p.state q.state := by
  cases h with
  | went h => exact h
  | waits h => exact h

theorem StepsShaped.andThen {p q : Progress} {f g : State → Progress} (h : StepsShaped p q)
    (hfg : ∀ {s u : State}, SameShape s u → StepsShaped (f s) (g u)) : StepsShaped (p.andThen f) (q.andThen g) := by
  cases h with
  | went h => exact hfg h
  | waits h => exact .waits h

theorem repeatBytes_shaped {body : State → Progress}
    (hbody : ∀ {s u : State}, SameShape s u → StepsShaped (body s) (body u)) (n : Nat) {s u : State} (h : SameShape s u) :
    StepsShaped (repeatBytes n body s) (repeatBytes n body u) := by
  induction n generalizing s u with
  | zero => exact .went h
  | succ n ih => exact (hbody h).andThen ih

namespace SameShape

variable {s u : State} (h : SameShape s u)
include h

theorem currentOffset : s.currentOffset = u.currentOffset := by
  rw [State.currentOffset, State.currentOffset, h.base, h.k]

/-- Both wait in the same phase for the same transfer. -/
theorem waiting (ph : Phase) (c : Channel) :
    SameShape { s with x := { s.x with ph := ph }, inFlight := some c }
      { u with x := { u.x with ph := ph }, inFlight := some c } :=
  ⟨rfl, h.base, h.k, rfl, h.env, h.history⟩

/-! ### The stages -/

/-- The store init: the diagnostic follows from the code the store answers, which the agents offer alike. -/
theorem initStage : StepsShaped (Machine.initStage s) (Machine.initStage u) := by
  cases hr : s.env.storeReady.take with
  | none =>
    rw [initStage_waits hr, initStage_waits (by rwa [← h.env])]
    exact .waits (h.waiting _ _)
  | some r =>
    rw [initStage_went hr, initStage_went (by rwa [← h.env])]
    exact .went ⟨rfl, h.base, h.k, rfl, by rw [h.env], by simp [h.history, h.env]⟩

theorem fetchData : StepsShaped (Machine.fetchData s) (Machine.fetchData u) :=
  .went ⟨rfl, h.base, h.k, h.inFlight, h.env, h.history⟩

theorem fetchSource : StepsShaped (Machine.fetchSource s) (Machine.fetchSource u) := by
  cases hs : s.env.source with
  | nil =>
    rw [fetchSource_waits hs, fetchSource_waits (by rwa [← h.env])]
    exact .waits (h.waiting _ _)
  | cons b rest =>
    rw [fetchSource_went hs, fetchSource_went (by rwa [← h.env])]
    exact .went ⟨rfl, h.base, h.k, rfl, by rw [h.env], by simp [h.history, h.k]⟩

theorem rmwRead : StepsShaped (Machine.rmwRead s) (Machine.rmwRead u) := by
  cases hr : s.env.storeReady.take with
  | none =>
    rw [rmwRead_waits hr, rmwRead_waits (by rwa [← h.env])]
    exact .waits (h.waiting _ _)
  | some r =>
    rw [rmwRead_went hr, rmwRead_went (by rwa [← h.env])]
    exact .went ⟨rfl, h.base, h.k, rfl, by rw [h.env], by simp [h.history, h.currentOffset, Event.shape]⟩

theorem rmwWrite : StepsShaped (Machine.rmwWrite s) (Machine.rmwWrite u) := by
  cases hr : s.env.storeReady.take with
  | none =>
    rw [rmwWrite_waits hr, rmwWrite_waits (by rwa [← h.env])]
    exact .waits (h.waiting _ _)
  | some r =>
    rw [rmwWrite_went hr, rmwWrite_went (by rwa [← h.env])]
    exact .went ⟨rfl, h.base, congrArg (· + 1) h.k, rfl, by rw [h.env],
      by simp [h.history, h.currentOffset, Event.shape]⟩

theorem readStage : StepsShaped (Machine.readStage s) (Machine.readStage u) := by
  cases hr : s.env.storeReady.take with
  | none =>
    rw [readStage_waits hr, readStage_waits (by rwa [← h.env])]
    exact .waits (h.waiting _ _)
  | some r =>
    rw [readStage_went hr, readStage_went (by rwa [← h.env])]
    exact .went ⟨rfl, h.base, h.k, rfl, by rw [h.env], by simp [h.history, h.currentOffset, Event.shape]⟩

theorem assembleByte : StepsShaped (Machine.assembleByte s) (Machine.assembleByte u) :=
  .went ⟨h.ph, h.base, congrArg (· + 1) h.k, h.inFlight, h.env, h.history⟩

theorem deliverByte : StepsShaped (Machine.deliverByte s) (Machine.deliverByte u) := by
  cases hr : s.env.dstReady.take with
  | none =>
    rw [deliverByte_waits hr, deliverByte_waits (by rwa [← h.env])]
    exact .waits (h.waiting _ _)
  | some r =>
    rw [deliverByte_went hr, deliverByte_went (by rwa [← h.env])]
    exact .went ⟨rfl, h.base, congrArg (· + 1) h.k, rfl, by rw [h.env], by simp [h.history, h.k, Event.shape]⟩

theorem respondFor (cmd : CmdCode) : StepsShaped (Machine.respondFor cmd s) (Machine.respondFor cmd u) := by
  unfold Machine.respondFor
  cases hr : s.env.rspReady.take with
  | none =>
    rw [respond_waits hr, respond_waits (by rwa [← h.env])]
    exact .waits (h.waiting _ _)
  | some r =>
    rw [respond_went hr, respond_went (by rwa [← h.env])]
    exact .went ⟨rfl, h.base, h.k, rfl, by rw [h.env], by simp [h.history, Event.shape]⟩

/-! ### A byte, and the bytes of a command -/

theorem byteRule (cmd : CmdCode) : StepsShaped (Machine.byteRule cmd s) (Machine.byteRule cmd u) := by
  have write {p q : Progress} (hpq : StepsShaped p q) :
      StepsShaped ((p.andThen Machine.rmwRead).andThen Machine.rmwWrite)
        ((q.andThen Machine.rmwRead).andThen Machine.rmwWrite) :=
    (hpq.andThen SameShape.rmwRead).andThen SameShape.rmwWrite
  unfold Machine.byteRule
  split
  · split
    · exact write h.fetchSource
    · exact h.readStage.andThen SameShape.deliverByte
  · split
    · exact write h.fetchData
    · exact h.readStage.andThen SameShape.assembleByte

theorem commandBody (cmd : CmdCode) (n : Count) :
    StepsShaped (Machine.commandBody cmd n s) (Machine.commandBody cmd n u) := by
  unfold Machine.commandBody
  split
  · exact h.initStage
  · exact repeatBytes_shaped (fun h => h.byteRule cmd) _ h

end SameShape

/-! ### The whole command -/

/-- Acceptance takes a request alike whatever the store, the draws and the note of an INIT are. -/
theorem admitted_shaped (cmd : CmdCode) (addr : Loc) (wdata : Data) (count : Count) (s : State) (st : Store) (d : Nat)
    (seen : Bool) :
    SameShape (admitted cmd addr wdata count s)
      (admitted cmd addr wdata count { s with store := st, draws := d, initSeen := seen }) := by
  constructor <;> simp

theorem commandRule_shaped (cmd : CmdCode) (addr : Loc) (wdata : Data) (count : Count) (s : State) (st : Store) (d : Nat)
    (seen : Bool) :
    StepsShaped (commandRule cmd addr wdata count s)
      (commandRule cmd addr wdata count { s with store := st, draws := d, initSeen := seen }) :=
  ((admitted_shaped cmd addr wdata count s st d seen).commandBody cmd _).andThen fun h => h.respondFor cmd

/-- The mark that acceptance of a command other than INIT leaves: a reserved code's own, where none was set. -/
theorem admitted_mark {cmd : CmdCode} (hcmd : cmd ≠ 0x8) (addr : Loc) (wdata : Data) (count : Count) (s : State) :
    (admitted cmd addr wdata count s).mark =
      if isReserved cmd then s.mark.or (some { reason := .reservedCommand, cmd := some cmd }) else s.mark := by
  have hinit : ¬ isInit cmd = true := by rwa [isInit_iff]
  unfold admitted markOnAccept
  rw [if_neg hinit]
  split <;> simp

/-- A command other than INIT leaves the mark of its acceptance. -/
theorem commandRule_mark {cmd : CmdCode} (hcmd : cmd ≠ 0x8) (addr : Loc) (wdata : Data) (count : Count) (s : State) :
    (commandRule cmd addr wdata count s).state.mark =
      if isReserved cmd then s.mark.or (some { reason := .reservedCommand, cmd := some cmd }) else s.mark :=
  (commandRule_sameCommand cmd addr wdata count s).mark.trans (admitted_mark hcmd addr wdata count s)

/-- Settles O37: every stage keeps `SameShape`, so the whole command does, and the mark is that of acceptance. -/
theorem initGatesNothing : Obligations.InitGatesNothing := by
  intro i s st d seen
  obtain ⟨hph, -, hk, hinFlight, henv, hhistory⟩ := (commandRule_shaped i.code (encodeRequest i).addr
    (encodeRequest i).wdata (encodeRequest i).count s st d seen).state
  refine ⟨_, _, exec_eq_commandRule i s, exec_eq_commandRule i _, hhistory, henv, hph, hk, hinFlight, fun hcode => ?_⟩
  rw [commandRule_mark hcode, commandRule_mark hcode]

end Sys2Proof.Machine
end

section
/-! INIT, the first and after an earlier one (40_init.md R100, R102, R103). -/

namespace Sys2Proof.Machine

open Sys2Proof

/-! ### The status code -/

theorem StatusCode.isOk_eq (c : StatusCode) : c.isOk = decide (c.bits = Config.storeOk) := by
  cases c with
  | storeOk => simp [StatusCode.isOk, StatusCode.bits]
  | other b => rfl

/-! ### The rule of INIT -/

theorem commandBody_init (n : Count) : commandBody 0x8 n = initStage := rfl

/-- INIT is its acceptance with the note of it, the store init, and the response with the bit latched. -/
theorem commandRule_init (addr : Loc) (wdata : Data) (count : Count) (s : State) :
    commandRule 0x8 addr wdata count s =
      (initStage (noteInit 0x8 (accept 0x8 addr wdata count s))).andThen fun t => respond 0 t.x.ok t := by
  rw [commandRule, commandBody_init, admitted_init]
  rfl

/-- The state an INIT leaves when the Store and the Host answer it, whatever code the Store answers. -/
theorem exec_init_answered (addr : Loc) (wdata : Data) (count : Count) {s : State}
    (hstore : s.env.storeReady.admits 1 = true) (hrsp : s.env.rspReady.admits 1 = true) :
    exec (.init addr wdata count) s = .next
      { s.completed 0x8 addr wdata 0 0 s.x.cur s.x.old 1 0 s.draws
          (.storeInit s.env.initAnswer :: diagUnlessOk s.env.initAnswer.isOk ++ [.response 0 s.env.initAnswer.isOk]) with
        x := { ph := .idle, op := 0x8, base := addr, wdata := wdata, n := 0, k := 0, acc := 0, cur := s.x.cur,
               old := s.x.old, ok := s.env.initAnswer.isOk }
        store := { s.store with status := s.env.initAnswer.toStatus }
        mark := (noteInit 0x8 s).mark
        initSeen := true } := by
  have hstore := Readiness.take_of_admits hstore
  have hrsp := Readiness.take_of_admits hrsp
  rw [exec_eq_commandRule]
  simp only [encodeRequest, Instr.code]
  rw [commandRule_init, initStage_went (by simpa using hstore), Progress.went_andThen,
    respond_went (by simpa using hrsp), noteInit_eq, accept, byteCount_of_isSystem rfl]
  simp [State.completed, noteInit_eq]

/-- Settles O31: the code answered is `STORE_OK` or another, which decides the bit, the diagnostic and the store's status. -/
theorem firstInitReportsTheStoresStatus : Obligations.FirstInitReportsTheStoresStatus := by
  intro addr wdata count s hfirst hstore hrsp
  have hexec := exec_init_answered addr wdata count hstore hrsp
  have hmark : (noteInit 0x8 s).mark = s.mark := by simp [noteInit_eq, hfirst]
  refine ⟨fun hcode => ?_, fun hcode => ?_⟩
  · have hok : s.env.initAnswer.isOk = true := by simp [StatusCode.isOk_eq, hcode]
    rw [hexec, hmark, StatusCode.toStatus, hok]
    rfl
  · have hfail : s.env.initAnswer.isOk = false := by simp [StatusCode.isOk_eq, hcode]
    rw [hexec, hmark, StatusCode.toStatus, hfail]
    rfl

/-! ### An INIT after an earlier one -/

/-- The state with the refused mark `m`, which no stage reads (60_exceptions.md R162). -/
def State.withMark (m : Option RefusedMark) (s : State) : State := { s with mark := m }

theorem initStage_blind_withMark (m : Option RefusedMark) : Blind (State.withMark m) initStage := by
  intro s
  cases h : s.env.storeReady.take with
  | none => rw [initStage_waits h, initStage_waits (s := s.withMark m) h]; rfl
  | some r => rw [initStage_went h, initStage_went (s := s.withMark m) h]; rfl

theorem respondFor_blind_withMark (m : Option RefusedMark) (cmd : CmdCode) :
    Blind (State.withMark m) (respondFor cmd) := by
  intro s
  unfold respondFor
  cases h : s.env.rspReady.take with
  | none => rw [respond_waits h, respond_waits (s := s.withMark m) h]; rfl
  | some r => rw [respond_went h, respond_went (s := s.withMark m) h]; rfl

/-- An INIT after an earlier one is accepted like the first, but for its mark. -/
theorem admitted_repeated_init (addr : Loc) (wdata : Data) (count : Count) {s : State} (hseen : s.initSeen = true) :
    admitted 0x8 addr wdata count s =
      (admitted 0x8 addr wdata count { s with initSeen := false }).withMark
        (s.mark.or (some { reason := .repeatedInit, cmd := some 0x8 })) := by
  simp only [admitted_init, noteInit_eq, accept_initSeen, hseen, if_true]
  rfl

/-- Settles O32: acceptance sets the mark, and no stage of the command looks at it. -/
theorem repeatedInitIsForwardedAndMarked : Obligations.RepeatedInitIsForwardedAndMarked := by
  intro addr wdata count s hseen
  refine ⟨_, _, exec_eq_commandRule _ s, exec_eq_commandRule _ _, ?_⟩
  simp only [encodeRequest, Instr.code, commandRule]
  rw [admitted_repeated_init addr wdata count hseen, commandBody_init, initStage_blind_withMark,
    Progress.map_andThen (respondFor_blind_withMark _ _), Progress.map_state]
  rfl

end Sys2Proof.Machine
end

section
/-! The single-byte commands RD8 and WR8 (41_byte_access.md): the whole state each leaves, and what RD8 returns after WR8. -/

namespace Sys2Proof.Machine

open Sys2Proof

/-! ### Byte 0 of a command is at the presented address -/

theorem offsetAt_zero (loc : Loc) : offsetAt loc 0 = normalise loc := byteOffset_zero loc

theorem wordAt_zero (s : State) (loc : Loc) : s.wordAt loc 0 = s.readWord (wordIndex (normalise loc)) := by
  rw [← cellAt_zero]
  exact (gotAll_readWord s false 0 loc).symm

/-- Acceptance sets the byte index to 0 (10_state.md R24). -/
theorem accept_currentOffset (cmd : CmdCode) (addr : Loc) (wdata : Data) (count : Count) (s : State) :
    (accept cmd addr wdata count s).currentOffset = normalise addr := byteOffset_zero addr

theorem accept_nextRead (cmd : CmdCode) (addr : Loc) (wdata : Data) (count : Count) (s : State) :
    (accept cmd addr wdata count s).nextRead = s.byteAt addr 0 :=
  gotAll_nextRead (s := accept cmd addr wdata count s) rfl false 0

/-- With the store OK, a byte read is the byte the store holds at its offset (20_memory.md R55). -/
theorem byteAt_of_ok {s : State} (hok : s.store.status = .ok) (loc : Loc) (j : Nat) :
    s.byteAt loc j = s.store.mem.read (offsetAt loc j).toNat := by
  rw [State.byteAt, State.wordAt, hok]
  exact laneByte_cell _ _

/-! ### RD8 (R110) -/

theorem putDataByte_zero (b : Byte) : putDataByte 0 0 b = b.setWidth 32 := by simp [putDataByte]

/-- Settles O11: the byte read is the value of the response, zero-extended. -/
theorem rd8ReturnsTheAddressedByte : Obligations.Rd8ReturnsTheAddressedByte := by
  intro addr wdata count s hstore hrsp
  have hreads : s.answersReads false 1 := ⟨hstore, nofun⟩
  have hgot : readBy 0x0 addr wdata count 1 s = (accept 0x0 addr wdata count s).got false := rfl
  have hdraws : (accept 0x0 addr wdata count s).drawsNext = s.drawsAfter 1 := gotAll_draws _ false 1
  rw [exec_eq_commandRule]
  simp only [encodeRequest, Instr.code]
  rw [commandRule_of_read (n := 1) rfl rfl addr wdata rfl hreads, respondFor_value (.inl rfl), hgot,
    respond_went (s := (accept 0x0 addr wdata count s).got false) (Readiness.take_of_admits (k := 0) hrsp), State.got,
    accept_nextRead, accept_currentOffset, hdraws, State.completed, Readiness.after_zero, List.append_assoc, wordAt_zero,
    ← putDataByte_zero]
  rfl

/-! ### WR8 (R111) -/

theorem dataBytes_one (wdata : Data) : dataBytes wdata 1 = [wdata.extractLsb' 0 8] :=
  congrArg (fun b => [b]) (dataByte_eq_extractLsb' wdata 0)

theorem storedByte_singleton (loc : Loc) (b : Byte) (a : Nat) :
    storedByte loc 0 [b] a = if a = (normalise loc).toNat then some b else none := by
  rw [← offsetAt_zero]
  rfl

/-- Settles O12: the one byte of the write data is fetched, its cell read and the merge written back. -/
theorem wr8WritesOneByte : Obligations.Wr8WritesOneByte := by
  intro addr wdata count s hstore hrsp
  have hwrites := writes_wr8 addr wdata count s
  rw [dataBytes_one] at hwrites
  refine ⟨(writtenBy 0x1 addr wdata count [wdata.extractLsb' 0 8] s).store.mem, ?_, fun hok => ⟨?_, fun a ha => ?_⟩⟩
  · rw [exec_eq_commandRule]
    simp only [encodeRequest, Instr.code]
    rw [hwrites.commandRule_eq hstore, respond_went (Readiness.take_of_admits (k := 0) (by rwa [writtenBy_rspReady])),
      State.completed, Readiness.after_zero, wordAt_zero]
    simp only [writtenBy, State.wroteAll, List.foldl, State.wrote, accept_currentOffset, List.append_assoc]
    rfl
  · rw [writtenBy_read hok, storedByte_singleton, if_pos rfl, Option.getD_some]
  · rw [writtenBy_read hok, storedByte_singleton, if_neg ha, Option.getD_none]

/-! ### A store that is OK -/

/-- What WR8 leaves for the commands after it, which the Store answers with `j` transfers and the Host with `k`: the store is
OK and holds the one byte more. -/
structure Wr8Leaves (addr : Loc) (b : Byte) (j k : Nat) (s t : State) : Prop where
  status : t.store.status = .ok
  storeReady : t.env.storeReady.admits j = true
  rspReady : t.env.rspReady.admits k = true
  written : t.store.mem.read (normalise addr).toNat = b
  kept : ∀ a, a ≠ (normalise addr).toNat → t.store.mem.read a = s.store.mem.read a

section StoreOk
variable {s : State} {j k : Nat} (hok : s.store.status = .ok)
include hok

/-- RD8 answers the byte the store holds at the address. -/
theorem rd8_on_ok (hstore : s.env.storeReady.admits 1 = true) (hrsp : s.env.rspReady.admits 1 = true) (addr : Loc)
    (wdata : Data) (count : Count) :
    ∃ u, exec (.rd8 addr wdata count) s = .next u ∧
      u.history.getLast? = some (.response ((s.store.mem.read (normalise addr).toNat).setWidth 32) false) := by
  refine ⟨_, rd8ReturnsTheAddressedByte addr wdata count s hstore hrsp, ?_⟩
  rw [byteAt_of_ok hok, offsetAt_zero]
  simp [State.completed]

theorem wr8_on_ok (hstore : s.env.storeReady.admits (2 + j) = true) (hrsp : s.env.rspReady.admits (1 + k) = true)
    (addr : Loc) (wdata : Data) (count : Count) :
    ∃ t, exec (.wr8 addr wdata count) s = .next t ∧ Wr8Leaves addr (wdata.extractLsb' 0 8) j k s t := by
  obtain ⟨m, hexec, hmem⟩ := wr8WritesOneByte addr wdata count s (Readiness.admits_mono (Nat.le_add_right 2 j) hstore)
    (Readiness.admits_mono (Nat.le_add_right 1 k) hrsp)
  obtain ⟨hwritten, hkept⟩ := hmem hok
  exact ⟨_, hexec, hok, Readiness.admits_after hstore, Readiness.admits_after hrsp, hwritten, hkept⟩

end StoreOk

/-- Settles O13: WR8 stores the byte at the offset that RD8 reads. -/
theorem byteRoundTrip : Obligations.ByteRoundTrip := by
  intro o v w c c' s hok hstore hrsp
  obtain ⟨t, ht, hleaves⟩ := wr8_on_ok (j := 1) (k := 1) hok hstore hrsp o v c
  obtain ⟨u, hu, hlast⟩ := rd8_on_ok hleaves.status hleaves.storeReady hleaves.rspReady o w c'
  rw [hleaves.written] at hlast
  exact ⟨t, u, ht, hu, hlast⟩

/-- The sibling of a presented address presents the sibling offset: the lowest bit survives the reduction. -/
theorem normalise_sibling (loc : Loc) : normalise (loc ^^^ 1) = sibling (normalise loc) := by
  unfold normalise sibling
  rw [BitVec.extractLsb'_xor]
  rfl

theorem toNat_ne_sibling (off : Offset) : off.toNat ≠ (sibling off).toNat := by
  rw [sibling_toNat]
  split <;> omega

/-- Settles O14: the second write is to the other offset of the cell, so the first byte stays, and the cell's lanes are the
bytes at the two offsets. -/
theorem siblingWritesDoNotInterfere : Obligations.SiblingWritesDoNotInterfere := by
  intro o v1 v2 w c1 c2 c3 s hok hstore hrsp
  obtain ⟨t, ht, hfirst⟩ := wr8_on_ok (j := 3) (k := 2) hok hstore hrsp o v1 c1
  obtain ⟨u, hu, hsecond⟩ := wr8_on_ok (j := 1) (k := 1) hfirst.status hfirst.storeReady hfirst.rspReady (o ^^^ 1) v2 c2
  obtain ⟨v, hv, hlast⟩ := rd8_on_ok hsecond.status hsecond.storeReady hsecond.rspReady o w c3
  obtain ⟨-, -, -, hother, hkept⟩ := hsecond
  rw [normalise_sibling] at hother hkept
  have hbyte : u.store.mem.read (normalise o).toNat = v1.extractLsb' 0 8 := by
    rw [hkept _ (toNat_ne_sibling _), hfirst.written]
  rw [hbyte] at hlast
  refine ⟨t, u, v, ht, hu, hv, hlast, ?_, ?_⟩
  · rw [laneByte_cell, hbyte]
  · rw [← wordIndex_sibling, laneByte_cell, hother]

/-! ### The next turn around the log (R114) -/

/-- Settles O15: 4096 is one turn of the sixteen aliases of an offset. -/
theorem byteCommandsWrapAround : Obligations.ByteCommandsWrapAround := fun o w c s =>
  ⟨aliasesReachTheSameByte.2 ⟨0x0, o, w, c⟩ 1 s, aliasesReachTheSameByte.2 ⟨0x1, o, w, c⟩ 1 s⟩

end Sys2Proof.Machine
end

section
/-! The word and double-word reads RD16 and RD32 (42_multibyte_access.md R121, R122): the whole state a read command leaves. -/

namespace Sys2Proof.Machine

open Sys2Proof

/-! ### The state after a number of bytes read -/

section Fields
variable (s : State) (block : Bool) (n : Nat)

theorem gotAll_storeReady : (s.gotAll block n).env.storeReady = s.env.storeReady.after n := by
  induction n with
  | zero => exact (Readiness.after_zero _).symm
  | succ n ih => rw [gotAll_succ, ← Readiness.after_after, ← ih]; rfl

theorem gotAll_dstReady :
    (s.gotAll block n).env.dstReady = if block then s.env.dstReady.after n else s.env.dstReady := by
  induction n with
  | zero => rw [Readiness.after_zero, ite_self]; rfl
  | succ n ih =>
    rw [gotAll_succ, State.got, ih, ← Readiness.after_after]
    cases block <;> rfl

/-- Reading bytes changes these fields alone. -/
theorem gotAll_frame :
    s.gotAll block n =
      { s with
        x := { s.x with
          ph := (s.gotAll block n).x.ph, k := (s.gotAll block n).x.k, acc := (s.gotAll block n).x.acc
          cur := (s.gotAll block n).x.cur }
        inFlight := (s.gotAll block n).inFlight
        env := { s.env with
          storeReady := (s.gotAll block n).env.storeReady, dstReady := (s.gotAll block n).env.dstReady }
        draws := (s.gotAll block n).draws
        history := (s.gotAll block n).history } := by
  induction n with
  | zero => rfl
  | succ n ih =>
    rw [gotAll_succ, ih]
    rfl

end Fields

/-- The whole state after the bytes up to byte `n` are read, from byte 0 on; `dataByte_gotAll` says what `x[acc]` is. -/
theorem gotAll_succ_eq {s : State} (hk : s.x.k = 0) (block : Bool) (n : Nat) :
    s.gotAll block (n + 1) =
      { s with
        x := { s.x with
          ph := if block then .dst else .rd, k := BitVec.ofNat 16 (n + 1), acc := (s.gotAll block (n + 1)).x.acc
          cur := s.byteAt s.x.base n }
        inFlight := none
        env := { s.env with
          storeReady := s.env.storeReady.after (n + 1)
          dstReady := if block then s.env.dstReady.after (n + 1) else s.env.dstReady }
        draws := s.drawsAfter (n + 1)
        history := s.history ++ s.readEventsFor block s.x.base (n + 1) } := by
  rw [← gotAll_nextRead hk block n, ← gotAll_index_zero hk block, ← gotAll_storeReady s block, ← gotAll_dstReady,
    ← gotAll_draws s block, ← gotAll_history hk]
  have hframe := gotAll_frame s block (n + 1)
  rw [gotAll_succ] at hframe ⊢
  exact hframe

/-- RD8, RD16 or RD32 run to its response: its reads, and the value `v` it assembled. -/
theorem value_read_completes {cmd : CmdCode} (hcmd : cmd = 0x0 ∨ cmd = 0x2 ∨ cmd = 0x4) (addr : Loc) (wdata : Data)
    {count : Count} {n : Nat} (hn : byteCount cmd count = BitVec.ofNat 16 (n + 1)) (hle : n + 1 ≤ 4) {s : State}
    (hstore : s.env.storeReady.admits (n + 1) = true) (hrsp : s.env.rspReady.admits 1 = true) {v : Data}
    (hv : (readBy cmd addr wdata count (n + 1) s).x.acc = v) :
    (commandRule cmd addr wdata count s).state =
      s.completed cmd addr wdata (BitVec.ofNat 16 (n + 1)) v (s.byteAt addr n) s.x.old (n + 1) 0 (s.drawsAfter (n + 1))
        (s.readEvents addr (n + 1) ++ [.response v false]) := by
  obtain ⟨hsystem, hwrite, hblock⟩ := value_read_fields hcmd
  have hcount : (byteCount cmd count).toNat = n + 1 := by
    rw [hn, BitVec.toNat_ofNat]
    omega
  have hreads : s.answersReads (isBlock cmd) (n + 1) := ⟨hstore, by simp [hblock]⟩
  have hready : (readBy cmd addr wdata count (n + 1) s).env.rspReady.take = some (s.env.rspReady.after 1) := by
    rw [readBy_rspReady]
    exact Readiness.take_of_admits hrsp
  have hread : readBy cmd addr wdata count (n + 1) s = _ := gotAll_succ_eq (s := accept cmd addr wdata count s) rfl _ n
  rw [commandRule_of_read hsystem hwrite addr wdata hcount hreads, respondFor_value hcmd, respond_went hready,
    Progress.went_state, hv, hread, ← readBy, hv, hblock, State.completed, Readiness.after_zero, ← List.append_assoc, ← hn]
  rfl

/-! ### The value (20_memory.md R58) -/

/-- Byte `k` put above the `k` bytes below it. -/
theorem putDataByte_append {k : Nat} (hk : k < 4) (v : BitVec (8 * k)) (b : Byte) :
    putDataByte (v.setWidth 32) (BitVec.ofNat 16 k) b = (b ++ v).setWidth 32 := by
  have hnat : (BitVec.ofNat 16 k).toNat = k := by
    rw [BitVec.toNat_ofNat]
    omega
  ext i hi
  rw [← BitVec.getLsbD_eq_getElem, ← BitVec.getLsbD_eq_getElem, getLsbD_putDataByte _ _ _ hi, hnat]
  simp only [BitVec.getLsbD_setWidth, BitVec.getLsbD_append, hi, decide_true, Bool.true_and]
  by_cases hlow : i < 8 * k
  · rw [if_neg (by omega), if_pos hlow]
  · rw [if_neg hlow]
    by_cases hhigh : i < 8 * k + 8
    · rw [if_pos (by omega)]
    · rw [if_neg (by omega), BitVec.getLsbD_of_ge _ _ (by omega), BitVec.getLsbD_of_ge _ _ (by omega)]

theorem gotAll_acc_succ {s : State} (hk : s.x.k = 0) (n : Nat) :
    (s.gotAll false (n + 1)).x.acc =
      putDataByte (s.gotAll false n).x.acc (BitVec.ofNat 16 n) (s.byteAt s.x.base n) := by
  rw [gotAll_succ, ← gotAll_nextRead hk false n, ← gotAll_index_zero hk false n]
  rfl

/-- The value of a read command with one byte more. -/
theorem readBy_acc_succ {cmd : CmdCode} (hblock : isBlock cmd = false) (addr : Loc) (wdata : Data) (count : Count) (s : State)
    {n : Nat} (hn : n < 4) {v : BitVec (8 * n)} (hv : (readBy cmd addr wdata count n s).x.acc = v.setWidth 32) :
    (readBy cmd addr wdata count (n + 1) s).x.acc = (s.byteAt addr n ++ v).setWidth 32 := by
  rw [readBy, hblock] at hv ⊢
  rw [gotAll_acc_succ rfl, hv, putDataByte_append hn]
  rfl

section Value
variable {cmd : CmdCode} (hblock : isBlock cmd = false) (addr : Loc) (wdata : Data) (count : Count) (s : State)
include hblock

theorem readBy_acc_two :
    (readBy cmd addr wdata count 2 s).x.acc = (s.byteAt addr 1 ++ s.byteAt addr 0).setWidth 32 := by
  have hone : (readBy cmd addr wdata count 1 s).x.acc = (s.byteAt addr 0 ++ 0#0).setWidth 32 :=
    readBy_acc_succ hblock addr wdata count s (by decide) rfl
  rw [BitVec.append_zero_width] at hone
  exact readBy_acc_succ hblock addr wdata count s (n := 1) (by decide) hone

theorem readBy_acc_four :
    (readBy cmd addr wdata count 4 s).x.acc =
      s.byteAt addr 3 ++ s.byteAt addr 2 ++ s.byteAt addr 1 ++ s.byteAt addr 0 := by
  have hthree := readBy_acc_succ hblock addr wdata count s (n := 2) (by decide) (readBy_acc_two hblock addr wdata count s)
  have hfour := readBy_acc_succ hblock addr wdata count s (n := 3) (by decide) hthree
  rw [hfour, BitVec.append_assoc, BitVec.append_assoc]
  exact BitVec.setWidth_eq _

end Value

/-- Settles O16: the closed form at two bytes, whose value is the second byte above the first. -/
theorem rd16ReturnsTheLittleEndianWord : Obligations.Rd16ReturnsTheLittleEndianWord := by
  intro addr wdata count s hstore hrsp
  rw [exec_eq_commandRule]
  exact congrArg _ (value_read_completes (cmd := 0x2) (.inr (.inl rfl)) addr wdata rfl (by decide) hstore hrsp
    (readBy_acc_two rfl addr wdata count s))

/-- Settles O17: the closed form at four bytes, which fill the value. -/
theorem rd32ReturnsTheLittleEndianDoubleWord : Obligations.Rd32ReturnsTheLittleEndianDoubleWord := by
  intro addr wdata count s hstore hrsp
  rw [exec_eq_commandRule]
  exact congrArg _ (value_read_completes (cmd := 0x4) (.inr (.inr rfl)) addr wdata rfl (by decide) hstore hrsp
    (readBy_acc_four rfl addr wdata count s))

end Sys2Proof.Machine
end

section
/-! The word and double-word writes WR16 and WR32 (42_multibyte_access.md R123, R124): the whole state a write command leaves,
whatever the store's status. -/

namespace Sys2Proof.Machine

open Sys2Proof

/-! ### The state after a list of bytes written -/

theorem wroteAll_concat (s : State) (block : Bool) (bs : List Byte) (b : Byte) :
    s.wroteAll block (bs ++ [b]) = (s.wroteAll block bs).wrote block b := List.foldl_concat ..

/-- Writing bytes changes these fields alone. -/
theorem wroteAll_frame (s : State) (block : Bool) (bytes : List Byte) :
    s.wroteAll block bytes =
      { s with
        x := { s.x with
          ph := (s.wroteAll block bytes).x.ph, k := (s.wroteAll block bytes).x.k, cur := (s.wroteAll block bytes).x.cur
          old := (s.wroteAll block bytes).x.old }
        inFlight := (s.wroteAll block bytes).inFlight
        store := { s.store with mem := (s.wroteAll block bytes).store.mem }
        env := { s.env with
          storeReady := (s.wroteAll block bytes).env.storeReady, source := (s.wroteAll block bytes).env.source }
        draws := (s.wroteAll block bytes).draws
        history := (s.wroteAll block bytes).history } := by
  induction bytes using List.reverseRecOn with
  | nil => rfl
  | append_singleton bs b ih =>
    rw [wroteAll_concat, ih]
    rfl

/-! ### The events (20_memory.md R67, R68) -/

/-- The store transfers of writing `bytes` to a store that is not OK, the command's first draw being number `d`, each byte
fetched before its pair. -/
def drawnEventsFor (block : Bool) (d : Nat) (loc : Loc) (bytes : List Byte) : List Event :=
  (List.range bytes.length).flatMap fun j =>
    fetchEvents block (BitVec.ofNat 16 j) (bytes.getD j 0) ++ drawnWriteEvents d loc j (bytes.getD j 0)

theorem drawnEventsFor_concat (block : Bool) (d : Nat) (loc : Loc) (bs : List Byte) (b : Byte) :
    drawnEventsFor block d loc (bs ++ [b]) = drawnEventsFor block d loc bs ++
      (fetchEvents block (BitVec.ofNat 16 bs.length) b ++ drawnWriteEvents d loc bs.length b) := by
  have hbefore : ∀ j ∈ List.range bs.length, (bs ++ [b]).getD j 0 = bs.getD j 0 := fun j hj =>
    List.getD_append _ _ _ _ (List.mem_range.mp hj)
  have hlast : (bs ++ [b]).getD bs.length 0 = b := by simp
  rw [drawnEventsFor, List.length_append, List.length_singleton, List.range_succ, List.flatMap_append, List.flatMap_singleton,
    hlast, drawnEventsFor]
  exact congrArg (· ++ _) (List.flatMap_congr fun j hj => by rw [hbefore j hj])

theorem drawsAfter_of_not_ok {s : State} (hok : s.store.status ≠ .ok) (j : Nat) : s.drawsAfter j = s.draws + j := by
  cases h : s.store.status with
  | ok => exact absurd h hok
  | _ => rw [State.drawsAfter, h]

theorem readWord_of_not_ok {s : State} (hok : s.store.status ≠ .ok) (i : WordIndex) :
    s.readWord i = Config.draw s.draws := by
  cases h : s.store.status with
  | ok => exact absurd h hok
  | _ => rw [State.readWord, h]

section FromZero
variable {s : State} (hk : s.x.k = 0)
include hk

theorem wroteAll_index_zero (block : Bool) (bytes : List Byte) :
    (s.wroteAll block bytes).x.k = BitVec.ofNat 16 bytes.length := by
  rw [wroteAll_index, hk]
  exact BitVec.zero_add _

theorem wroteAll_currentOffset (block : Bool) (bytes : List Byte) :
    (s.wroteAll block bytes).currentOffset = offsetAt s.x.base bytes.length := by
  rw [State.currentOffset, wroteAll_index_zero hk, (wroteAll_sameCommand s block bytes).base]
  rfl

/-- To a store that is not OK every word read is a draw, two draws for each byte. -/
theorem wroteAll_history_of_not_ok (hok : s.store.status ≠ .ok) (block : Bool) (bytes : List Byte) :
    (s.wroteAll block bytes).history = s.history ++ drawnEventsFor block s.draws s.x.base bytes := by
  induction bytes using List.reverseRecOn with
  | nil => exact (List.append_nil _).symm
  | append_singleton bs b ih =>
    have hword (i : WordIndex) : (s.wroteAll block bs).readWord i = Config.draw (s.draws + 2 * bs.length) := by
      rw [readWord_of_not_ok (by rwa [wroteAll_status]), wroteAll_draws, drawsAfter_of_not_ok hok]
    rw [wroteAll_concat, drawnEventsFor_concat, ← List.append_assoc, ← ih, State.wrote, wroteAll_currentOffset hk,
      wroteAll_index_zero hk, hword, List.append_assoc]
    rfl

end FromZero

/-- The events of writing `bytes` whatever the store's status, of a block write or another. -/
def State.writeEventsOfFor (s : State) (block : Bool) (loc : Loc) (bytes : List Byte) : List Event :=
  if block then s.blockWriteEventsOf loc bytes else s.writeEventsOf loc bytes

theorem writeEventsOfFor_of_ok {s : State} (hok : s.store.status = .ok) (block : Bool) (loc : Loc) (bytes : List Byte) :
    s.writeEventsOfFor block loc bytes = writeEventsFor block s.store.mem loc 0 bytes := by
  simp only [State.writeEventsOfFor, State.blockWriteEventsOf, State.writeEventsOf, hok]
  rfl

theorem writeEventsOfFor_of_not_ok {s : State} (hok : s.store.status ≠ .ok) (block : Bool) (loc : Loc) (bytes : List Byte) :
    s.writeEventsOfFor block loc bytes = drawnEventsFor block s.draws loc bytes := by
  simp only [State.writeEventsOfFor, State.blockWriteEventsOf, State.writeEventsOf]
  cases h : s.store.status with
  | ok => exact absurd h hok
  | _ => cases block <;> rfl

/-- A write command's events but for its response. -/
theorem writtenBy_events (cmd : CmdCode) (addr : Loc) (wdata : Data) (count : Count) (bytes : List Byte) (s : State) :
    (writtenBy cmd addr wdata count bytes s).history = s.history ++ s.writeEventsOfFor (isBlock cmd) addr bytes := by
  by_cases hok : s.store.status = .ok
  · rw [writtenBy_history hok, writeEventsOfFor_of_ok hok]
  · rw [writeEventsOfFor_of_not_ok hok]
    exact wroteAll_history_of_not_ok (s := accept cmd addr wdata count s) rfl hok (isBlock cmd) bytes

/-! ### The whole command -/

/-- The whole state after the bytes of a write command up to `b` are written; `writtenBy_read` says what the bytes of the store
are. -/
theorem writtenBy_concat_eq (cmd : CmdCode) (addr : Loc) (wdata : Data) (count : Count) (bs : List Byte) (b : Byte)
    (s : State) :
    writtenBy cmd addr wdata count (bs ++ [b]) s =
      { s with
        x := { ph := .rmwWr, op := cmd, base := addr, wdata := wdata, n := byteCount cmd count
               k := BitVec.ofNat 16 (bs ++ [b]).length, acc := 0, cur := b
               old := (writtenBy cmd addr wdata count (bs ++ [b]) s).x.old, ok := false }
        inFlight := none
        store := { s.store with mem := (writtenBy cmd addr wdata count (bs ++ [b]) s).store.mem }
        env := { s.env with
          storeReady := s.env.storeReady.after (2 * (bs ++ [b]).length)
          source := s.sourceAfter (isBlock cmd) (bs ++ [b]).length }
        draws := s.drawsAfter (2 * (bs ++ [b]).length)
        history := s.history ++ s.writeEventsOfFor (isBlock cmd) addr (bs ++ [b]) } := by
  have hready : (writtenBy cmd addr wdata count (bs ++ [b]) s).env.storeReady =
      s.env.storeReady.after (2 * (bs ++ [b]).length) := wroteAll_storeReady _ _ _
  have hdraws : (writtenBy cmd addr wdata count (bs ++ [b]) s).draws = s.drawsAfter (2 * (bs ++ [b]).length) :=
    wroteAll_draws _ _ _
  have hframe := wroteAll_frame (accept cmd addr wdata count s) (isBlock cmd) (bs ++ [b])
  rw [← writtenBy_events cmd addr wdata count, ← writtenBy_index (cmd := cmd), ← writtenBy_source, ← hready, ← hdraws,
    writtenBy]
  rw [wroteAll_concat] at hframe ⊢
  exact hframe

/-- A write command of at least one byte run to its response, with `m` the memory and `old` the last word read back. -/
theorem Writes.completes {cmd : CmdCode} {addr : Loc} {wdata : Data} {count : Count} {bs : List Byte} {b : Byte} {s : State}
    (h : Writes cmd addr wdata count (bs ++ [b]) s) (hstore : s.env.storeReady.admits (2 * (bs ++ [b]).length) = true)
    (hrsp : s.env.rspReady.admits 1 = true) :
    ∃ (m : Memory) (old : CellWord), (commandRule cmd addr wdata count s).state =
        ((s.completed cmd addr wdata (byteCount cmd count) 0 b old (2 * (bs ++ [b]).length) 0
          (s.drawsAfter (2 * (bs ++ [b]).length))
          (s.writeEventsOfFor (isBlock cmd) addr (bs ++ [b]) ++ [.response 0 false])).withMem m).withSource
          (s.sourceAfter (isBlock cmd) (bs ++ [b]).length) ∧
      (s.store.status = .ok → StoredAt s.store.mem m addr (bs ++ [b])) := by
  refine ⟨_, (writtenBy cmd addr wdata count (bs ++ [b]) s).x.old, ?_, fun hok => h.storedAt hok hstore⟩
  have hready : (writtenBy cmd addr wdata count (bs ++ [b]) s).env.rspReady.take = some (s.env.rspReady.after 1) := by
    rw [writtenBy_rspReady]
    exact Readiness.take_of_admits hrsp
  have hcount : BitVec.ofNat 16 (bs ++ [b]).length = byteCount cmd count := by
    rw [h.length, BitVec.ofNat_toNat, BitVec.setWidth_eq]
  have hwritten := writtenBy_concat_eq cmd addr wdata count bs b s
  rw [hcount] at hwritten
  rw [h.commandRule_eq hstore, respond_went hready, Progress.went_state, State.completed, Readiness.after_zero,
    ← List.append_assoc]
  generalize writtenBy cmd addr wdata count (bs ++ [b]) s = t at hwritten ⊢
  rw [hwritten]
  rfl

/-- WR8, WR16 or WR32 run to its response: the source stream is not touched. -/
theorem Writes.data_completes {cmd : CmdCode} {addr : Loc} {wdata : Data} {count : Count} {bs : List Byte} {b : Byte}
    {s : State} (hblock : isBlock cmd = false) (h : Writes cmd addr wdata count (bs ++ [b]) s)
    (hstore : s.env.storeReady.admits (2 * (bs ++ [b]).length) = true) (hrsp : s.env.rspReady.admits 1 = true) :
    ∃ (m : Memory) (old : CellWord), (commandRule cmd addr wdata count s).state =
        (s.completed cmd addr wdata (byteCount cmd count) 0 b old (2 * (bs ++ [b]).length) 0
          (s.drawsAfter (2 * (bs ++ [b]).length))
          (s.writeEventsOf addr (bs ++ [b]) ++ [.response 0 false])).withMem m ∧
      (s.store.status = .ok → StoredAt s.store.mem m addr (bs ++ [b])) := by
  have hcompletes := h.completes hstore hrsp
  rw [hblock] at hcompletes
  exact hcompletes

theorem dataBytes_eq_map (wdata : Data) (n : Nat) (hn : n ≤ 4) :
    dataBytes wdata n = (List.range n).map fun j => wdata.extractLsb' (8 * j) 8 :=
  List.map_congr_left fun j hj => by
    have hlt := List.mem_range.mp hj
    rw [dataByte_eq_extractLsb', BitVec.toNat_ofNat, Nat.mod_eq_of_lt (by omega)]

theorem dataBytes_two (wdata : Data) : dataBytes wdata 2 = [wdata.extractLsb' 0 8, wdata.extractLsb' 8 8] :=
  dataBytes_eq_map wdata 2 (by decide)

theorem dataBytes_four (wdata : Data) :
    dataBytes wdata 4 =
      [wdata.extractLsb' 0 8, wdata.extractLsb' 8 8, wdata.extractLsb' 16 8, wdata.extractLsb' 24 8] :=
  dataBytes_eq_map wdata 4 (by decide)

/-- Settles O18: the last byte written is byte 1, and the store holds both. -/
theorem wr16WritesTwoBytes : Obligations.Wr16WritesTwoBytes := by
  intro addr wdata count s hstore hrsp
  have h := writes_wr16 addr wdata count s
  rw [dataBytes_two] at h
  obtain ⟨m, old, hstate, hmem⟩ := Writes.data_completes (bs := [wdata.extractLsb' 0 8]) rfl h hstore hrsp
  exact ⟨m, old, (exec_eq_commandRule _ s).trans (congrArg _ hstate), hmem⟩

/-- Settles O19: the last byte written is byte 3, and the store holds all four. -/
theorem wr32WritesFourBytes : Obligations.Wr32WritesFourBytes := by
  intro addr wdata count s hstore hrsp
  have h := writes_wr32 addr wdata count s
  rw [dataBytes_four] at h
  obtain ⟨m, old, hstate, hmem⟩ := Writes.data_completes
    (bs := [wdata.extractLsb' 0 8, wdata.extractLsb' 8 8, wdata.extractLsb' 16 8]) rfl h hstore hrsp
  exact ⟨m, old, (exec_eq_commandRule _ s).trans (congrArg _ hstate), hmem⟩

end Sys2Proof.Machine
end

section
/-! What RD16 returns after WR16 and RD32 after WR32 on an OK store (42_multibyte_access.md R125). -/

namespace Sys2Proof.Machine

open Sys2Proof

/-- Fewer bytes than the log is long have each an offset of its own, so each is read back. -/
theorem byteAt_of_storedAt {m : Memory} {t : State} {loc : Loc} {bytes : List Byte} (hok : t.store.status = .ok)
    (h : StoredAt m t.store.mem loc bytes) (hlen : bytes.length ≤ Config.logSize) {j : Nat} {b : Byte}
    (hb : bytes[j]? = some b) : t.byteAt loc j = b := by
  unfold Config.logSize at hlen
  obtain ⟨hstored, -⟩ := h
  rw [byteAt_of_ok hok]
  refine hstored j b hb fun j' hlt hj' => ?_
  rw [Ne, offsetAt_eq_iff]
  omega

/-- The bytes of a value, put together again (20_memory.md R58). -/
theorem dataByte_append_four (v : Data) :
    dataByte v 3 ++ dataByte v 2 ++ dataByte v 1 ++ dataByte v 0 = v := by
  have hlow : dataByte v 1 ++ dataByte v 0 = v.extractLsb' 0 16 := dataByte_append v (j := 0) (by decide)
  have hhigh : dataByte v 3 ++ dataByte v 2 = v.extractLsb' 16 16 := dataByte_append v (j := 2) (by decide)
  have hhalves : v.extractLsb' 16 16 ++ v.extractLsb' 0 16 = v.extractLsb' 0 32 :=
    BitVec.extractLsb'_append_extractLsb'_eq_extractLsb' rfl
  rw [BitVec.append_assoc, hlow, hhigh, hhalves, BitVec.extractLsb'_eq_self]
  rfl

/-- What a write of `bytes` leaves for a read after it, which the Store answers with `n` transfers: the store is OK, has the
bytes stored, and the Host takes one more response. -/
structure WriteLeaves (loc : Loc) (bytes : List Byte) (n : Nat) (s t : State) : Prop where
  status : t.store.status = .ok
  stored : StoredAt s.store.mem t.store.mem loc bytes
  storeReady : t.env.storeReady.admits n = true
  rspReady : t.env.rspReady.admits 1 = true

theorem WriteLeaves.byteAt {loc : Loc} {v : Data} {n r : Nat} {s t : State} (h : WriteLeaves loc (dataBytes v n) r s t)
    (hn : n ≤ Config.logSize) {j : Nat} (hj : j < n) : t.byteAt loc j = dataByte v (BitVec.ofNat 16 j) :=
  byteAt_of_storedAt h.status h.stored (by rwa [dataBytes_length]) (dataBytes_getElem? v hj)

section Writes
variable {s : State} (hok : s.store.status = .ok) (hrsp : s.env.rspReady.admits 2 = true) (o : Loc) (v : Data) (c : Count)
include hok hrsp

theorem wr16_leaves (hstore : s.env.storeReady.admits (4 + 2) = true) :
    ∃ t, exec (.wr16 o v c) s = .next t ∧ WriteLeaves o (dataBytes v 2) 2 s t := by
  obtain ⟨m, old, hexec, hmem⟩ := wr16WritesTwoBytes o v c s (Readiness.admits_mono (by decide) hstore)
    (Readiness.admits_mono (by decide) hrsp)
  rw [← dataBytes_two] at hmem
  exact ⟨_, hexec, hok, hmem hok, Readiness.admits_after hstore, Readiness.admits_after hrsp⟩

theorem wr32_leaves (hstore : s.env.storeReady.admits (8 + 4) = true) :
    ∃ t, exec (.wr32 o v c) s = .next t ∧ WriteLeaves o (dataBytes v 4) 4 s t := by
  obtain ⟨m, old, hexec, hmem⟩ := wr32WritesFourBytes o v c s (Readiness.admits_mono (by decide) hstore)
    (Readiness.admits_mono (by decide) hrsp)
  rw [← dataBytes_four] at hmem
  exact ⟨_, hexec, hok, hmem hok, Readiness.admits_after hstore, Readiness.admits_after hrsp⟩

end Writes

section Reads
variable {s t : State} {o : Loc} {v : Data} (w : Data) (c : Count)

theorem rd16_of_writeLeaves (h : WriteLeaves o (dataBytes v 2) 2 s t) :
    ∃ u, exec (.rd16 o w c) t = .next u ∧
      u.history.getLast? = some (.response ((v.extractLsb' 0 16).setWidth 32) false) := by
  have hbyte {j : Nat} (hj : j < 2) : t.byteAt o j = dataByte v (BitVec.ofNat 16 j) := h.byteAt (by decide) hj
  have hvalue : t.byteAt o 1 ++ t.byteAt o 0 = v.extractLsb' 0 16 := by
    rw [hbyte (by decide), hbyte (by decide)]
    exact dataByte_append v (j := 0) (by decide)
  refine ⟨_, rd16ReturnsTheLittleEndianWord o w c t h.storeReady h.rspReady, ?_⟩
  rw [hvalue]
  simp [State.completed]

theorem rd32_of_writeLeaves (h : WriteLeaves o (dataBytes v 4) 4 s t) :
    ∃ u, exec (.rd32 o w c) t = .next u ∧ u.history.getLast? = some (.response v false) := by
  have hbyte {j : Nat} (hj : j < 4) : t.byteAt o j = dataByte v (BitVec.ofNat 16 j) := h.byteAt (by decide) hj
  have hvalue : t.byteAt o 3 ++ t.byteAt o 2 ++ t.byteAt o 1 ++ t.byteAt o 0 = v := by
    rw [hbyte (by decide), hbyte (by decide), hbyte (by decide), hbyte (by decide)]
    exact dataByte_append_four v
  refine ⟨_, rd32ReturnsTheLittleEndianDoubleWord o w c t h.storeReady h.rspReady, ?_⟩
  rw [hvalue]
  simp [State.completed]

end Reads

/-- Settles O21: the write leaves its bytes at the offsets the read takes them from. -/
theorem wordAndDoubleWordRoundTrip : Obligations.WordAndDoubleWordRoundTrip := by
  intro o v w c c' s hok hrsp
  refine ⟨fun hstore => ?_, fun hstore => ?_⟩
  · obtain ⟨t, ht, hleaves⟩ := wr16_leaves hok hrsp o v c hstore
    exact ⟨t, (rd16_of_writeLeaves w c' hleaves).imp fun _ hread => ⟨ht, hread⟩⟩
  · obtain ⟨t, ht, hleaves⟩ := wr32_leaves hok hrsp o v c hstore
    exact ⟨t, (rd32_of_writeLeaves w c' hleaves).imp fun _ hread => ⟨ht, hread⟩⟩

end Sys2Proof.Machine
end

section
/-! The block commands RDBLK and WRBLK whole (43_block_access.md): the state each leaves, for every count, what RDBLK
delivers after WRBLK, and a WRBLK short of source bytes. -/

namespace Sys2Proof.Machine

open Sys2Proof

/-! ### No bytes (R144) -/

theorem drawsAfter_zero (s : State) : s.drawsAfter 0 = s.draws := (gotAll_draws s false 0).symm

theorem block_fields {cmd : CmdCode} (h : isBlock cmd = true) :
    isSystem cmd = false ∧ isInit cmd = false ∧ (cmd = 0x0 || cmd = 0x2 || cmd = 0x4) = false := by
  revert cmd
  decide

theorem byteCount_of_isBlock {cmd : CmdCode} (h : isBlock cmd = true) (count : Count) : byteCount cmd count = count := by
  obtain ⟨hsystem, -, -⟩ := block_fields h
  rw [byteCount, hsystem, h]
  rfl

/-- A block command of no bytes is its acceptance and the response 0/0 (30_encoding.md R85). -/
theorem commandRule_zero_count {cmd : CmdCode} (h : isBlock cmd = true) (addr : Loc) (wdata : Data) (s : State) :
    commandRule cmd addr wdata 0 s = respond 0 false (accept cmd addr wdata 0 s) := by
  obtain ⟨hsystem, hinit, hvalue⟩ := block_fields h
  rw [commandRule, admitted_data hsystem, commandBody, hinit, byteCount_of_isBlock h]
  exact respondFor_zero hvalue hinit _

theorem zero_count_completes {cmd : CmdCode} (h : isBlock cmd = true) (addr : Loc) (wdata : Data) {s : State}
    (hrsp : s.env.rspReady.admits 1 = true) :
    (commandRule cmd addr wdata 0 s).state =
      s.completed cmd addr wdata 0 0 s.x.cur s.x.old 0 0 s.draws [.response 0 false] := by
  rw [commandRule_zero_count h, respond_went (s := accept cmd addr wdata 0 s) (Readiness.take_of_admits (k := 0) hrsp),
    Progress.went_state, State.completed, Readiness.after_zero, Readiness.after_zero, accept, byteCount_of_isBlock h]

/-- Settles O26: no byte is left to do at acceptance, so the response follows it. -/
theorem zeroCountOnlyResponds : Obligations.ZeroCountOnlyResponds := fun addr wdata s hrsp =>
  ⟨(exec_eq_commandRule _ s).trans (congrArg _ (zero_count_completes (cmd := 0x6) rfl addr wdata hrsp)),
    (exec_eq_commandRule _ s).trans (congrArg _ (zero_count_completes (cmd := 0x7) rfl addr wdata hrsp))⟩

/-! ### RDBLK (R141) -/

/-- A block read assembles no value: its bytes go to the destination stream. -/
theorem gotAll_block_acc (s : State) (n : Nat) : (s.gotAll true n).x.acc = s.x.acc := by
  induction n with
  | zero => rfl
  | succ n ih =>
    rw [gotAll_succ, ← ih]
    rfl

/-- RDBLK of at least one byte run to its response. -/
theorem rdblk_completes (addr : Loc) (wdata : Data) {count : Count} {n : Nat} (hn : count.toNat = n + 1) {s : State}
    (hreads : s.answersReads true (n + 1)) (hrsp : s.env.rspReady.admits 1 = true) :
    (commandRule 0x6 addr wdata count s).state =
      s.completed 0x6 addr wdata count 0 (s.byteAt addr n) s.x.old (n + 1) (n + 1) (s.drawsAfter (n + 1))
        (s.blockReadEvents addr (n + 1) ++ [.response 0 false]) := by
  have hcount : BitVec.ofNat 16 (n + 1) = count := by
    rw [← hn, BitVec.ofNat_toNat, BitVec.setWidth_eq]
  have hready : (readBy 0x6 addr wdata count (n + 1) s).env.rspReady.take = some (s.env.rspReady.after 1) := by
    rw [readBy_rspReady]
    exact Readiness.take_of_admits hrsp
  have hread : readBy 0x6 addr wdata count (n + 1) s = _ :=
    gotAll_succ_eq (s := accept 0x6 addr wdata count s) rfl true n
  rw [commandRule_of_read (cmd := 0x6) rfl rfl addr wdata hn hreads, respondFor_zero rfl rfl, respond_went hready,
    Progress.went_state, hread, gotAll_block_acc, hcount, State.completed, ← List.append_assoc]
  rfl

/-- Settles O24: the closed form of the bytes read one after the other, and for a count of 0 the response alone. -/
theorem rdblkDeliversTheBytesInOrder : Obligations.RdblkDeliversTheBytesInOrder := by
  intro addr wdata count s hstore hdst hrsp
  cases hn : count.toNat with
  | zero =>
    obtain rfl : count = 0 := BitVec.eq_of_toNat_eq hn
    rw [if_pos rfl, drawsAfter_zero]
    exact (zeroCountOnlyResponds addr wdata s hrsp).1
  | succ n =>
    have hne : count ≠ 0 := by
      rintro rfl
      exact Nat.succ_ne_zero n hn.symm
    rw [hn] at hstore hdst
    rw [if_neg hne, exec_eq_commandRule]
    exact congrArg _ (rdblk_completes addr wdata hn ⟨hstore, fun _ => hdst⟩ hrsp)

/-! ### WRBLK (R143) -/

theorem StoredAt.nil (m : Memory) (loc : Loc) : StoredAt m m loc [] := ⟨nofun, fun _ _ => rfl⟩

theorem blockWriteEventsOf_nil (s : State) (loc : Loc) : s.blockWriteEventsOf loc [] = [] := by
  rw [State.blockWriteEventsOf]
  cases s.store.status <;> rfl

/-- Settles O25: the closed form of the source bytes written one after the other, and for a count of 0 the response alone. -/
theorem wrblkStoresTheSourceBytes : Obligations.WrblkStoresTheSourceBytes := by
  intro addr wdata count bs rest s hsource hlen hstore hrsp
  cases bs using List.reverseRecOn with
  | nil =>
    obtain rfl : count = 0 := BitVec.eq_of_toNat_eq hlen.symm
    obtain rfl : s.env.source = rest := hsource
    refine ⟨s.store.mem, s.x.old, ?_, fun _ => .nil _ _⟩
    rw [(zeroCountOnlyResponds addr wdata s hrsp).2, ← drawsAfter_zero, blockWriteEventsOf_nil]
    rfl
  | append_singleton bs b =>
    have hwrites : Writes 0x7 addr wdata count (bs ++ [b]) s := writes_source ⟨rest, hsource.symm⟩ hlen addr wdata
    obtain ⟨m, old, hstate, hmem⟩ := hwrites.completes (by rwa [hlen]) hrsp
    have hleft : s.sourceAfter true (bs ++ [b]).length = rest := by
      rw [State.sourceAfter, if_pos rfl, hsource, List.drop_left]
    refine ⟨m, old, (exec_eq_commandRule _ s).trans (congrArg _ (hstate.trans ?_)), hmem⟩
    rw [List.getLast?_concat, ← hlen, ← hleft]
    rfl

/-! ### What RDBLK delivers -/

/-- From `s` to `u` an RDBLK of `n` bytes made one store read for each and delivered each. -/
structure Delivers (loc : Loc) (n : Nat) (s u : State) : Prop where
  trace : storeTrace (u.history.drop s.history.length) = s.readEvents loc n
  bytes : destinationBytes (u.history.drop s.history.length) = (List.range n).map (s.byteAt loc)

theorem rdblk_delivers {s : State} (hs : s.allReady) (o : Loc) (w : Data) (n : Count) :
    ∃ u, exec (.rdblk o w n) s = .next u ∧ Delivers o n.toNat s u := by
  obtain ⟨hstore, hdst, hrsp⟩ := hs
  refine ⟨_, rdblkDeliversTheBytesInOrder o w n s (by rw [hstore]; rfl) (by rw [hdst]; rfl) (by rw [hrsp]; rfl), ?_⟩
  constructor
  case trace =>
    rw [State.completed, List.drop_left, storeTrace_response]
    exact storeTrace_readEventsFor s true o n.toNat
  case bytes =>
    rw [State.completed, List.drop_left, destinationBytes_append]
    exact (List.append_nil _).trans (destinationBytes_readEventsFor s o n.toNat)

section Delivers
variable {loc : Loc} {n : Nat} {s u : State} (h : Delivers loc n s u)
include h

theorem Delivers.length_trace : (storeTrace (u.history.drop s.history.length)).length = n := by
  rw [h.trace, State.readEvents, List.length_map, List.length_range]

theorem Delivers.length : (destinationBytes (u.history.drop s.history.length)).length = n := by
  rw [h.bytes, List.length_map, List.length_range]

theorem Delivers.getElem? {k : Nat} (hk : k < n) :
    (destinationBytes (u.history.drop s.history.length))[k]? = some (s.byteAt loc k) := by
  rw [h.bytes, List.getElem?_map, List.getElem?_range hk]
  rfl

end Delivers

/-- With the store OK, bytes at one offset are read alike. -/
theorem byteAt_congr {s : State} (hok : s.store.status = .ok) {loc : Loc} {j k : Nat}
    (h : offsetAt loc j = offsetAt loc k) : s.byteAt loc j = s.byteAt loc k := by
  rw [byteAt_of_ok hok, byteAt_of_ok hok, h]

/-- Settles O28: bytes 4096 apart have one offset, and no read changes it. -/
theorem longBlockReadsRepeat : Obligations.LongBlockReadsRepeat := by
  intro o n w s hok hs
  obtain ⟨t, hexec, hdelivers⟩ := rdblk_delivers hs o w n
  refine ⟨t, hexec, hdelivers.length_trace, hdelivers.length, fun k hk => ?_⟩
  have hoffset : offsetAt o k = offsetAt o (k + 4096) := (offsetAt_eq_iff o _ _).mpr (Nat.add_mod_right k 4096).symm
  rw [hdelivers.getElem? (by omega), hdelivers.getElem? hk, byteAt_congr hok hoffset]

/-! ### RDBLK after WRBLK (R146) -/

/-- What WRBLK leaves for the RDBLK after it: the store is OK and has the bytes stored, and every agent goes on answering. -/
structure WrblkLeaves (loc : Loc) (bytes : List Byte) (s t : State) : Prop where
  status : t.store.status = .ok
  stored : StoredAt s.store.mem t.store.mem loc bytes
  ready : t.allReady

theorem wrblk_leaves {s : State} (hok : s.store.status = .ok) (hs : s.allReady) {bs rest : List Byte}
    (hsource : s.env.source = bs ++ rest) {n : Count} (hlen : bs.length = n.toNat) (o : Loc) (w : Data) :
    ∃ t, exec (.wrblk o w n) s = .next t ∧ WrblkLeaves o bs s t := by
  obtain ⟨hstore, hdst, hrsp⟩ := hs
  obtain ⟨m, old, hexec, hmem⟩ := wrblkStoresTheSourceBytes o w n bs rest s hsource hlen (by rw [hstore]; rfl)
    (by rw [hrsp]; rfl)
  refine ⟨_, hexec, hok, hmem hok, ?_⟩
  simp [State.allReady, State.completed, hstore, hdst, hrsp, Readiness.after]

section RoundTrip
variable {o : Loc} {bs : List Byte} {s t u : State} (hleaves : WrblkLeaves o bs s t) (h : Delivers o bs.length t u)
include hleaves h

/-- A byte is delivered as the last byte written to its offset. -/
theorem Delivers.last_written {k j : Nat} (hk : k < bs.length) (hj : j < bs.length) (heq : offsetAt o j = offsetAt o k)
    (hlast : ∀ j', j < j' → j' < bs.length → offsetAt o j' ≠ offsetAt o k) :
    (destinationBytes (u.history.drop t.history.length))[k]? = bs[j]? := by
  obtain ⟨hstored, -⟩ := hleaves.stored
  rw [← heq] at hlast
  rw [h.getElem? hk, ← byteAt_congr hleaves.status heq, byteAt_of_ok hleaves.status,
    hstored j bs[j] (List.getElem?_eq_getElem hj) hlast, List.getElem?_eq_getElem hj]

/-- Bytes no more than the log is long have each an offset of its own, so all are delivered as written. -/
theorem Delivers.bytes_written (hle : bs.length ≤ 4096) : destinationBytes (u.history.drop t.history.length) = bs := by
  refine List.ext_getElem? fun k => ?_
  by_cases hk : k < bs.length
  · refine h.last_written hleaves hk hk rfl fun j' hlt hj' => ?_
    rw [Ne, offsetAt_eq_iff]
    omega
  · rw [List.getElem?_eq_none (by rw [h.length]; omega), List.getElem?_eq_none (by omega)]

end RoundTrip

/-- Settles O27: RDBLK reads each byte at its offset, where WRBLK left the last byte written there. -/
theorem blockRoundTrip : Obligations.BlockRoundTrip := by
  intro o n w w' bs rest s hok hs hsource hlen
  obtain ⟨t, ht, hleaves⟩ := wrblk_leaves hok hs hsource hlen o w
  obtain ⟨u, hu, hdelivers⟩ := rdblk_delivers hleaves.ready o w' n
  rw [← hlen] at hdelivers ⊢
  exact ⟨t, u, ht, hu, hdelivers.bytes_written hleaves, hdelivers.length, fun _ _ => hdelivers.last_written hleaves⟩

/-! ### A WRBLK short of source bytes (R143, R191) -/

/-- A block write with no source byte offered waits for one. -/
theorem writeByte_waits_for_source {s : State} (h : s.env.source = []) :
    writeByte true s = .waits { s with x := { s.x with ph := .fetch }, inFlight := some .source } := by
  rw [writeByte, fetchFor, if_pos rfl, fetchSource_waits h]
  rfl

/-- A WRBLK of more bytes than the Host supplies writes those and waits for the next. -/
theorem wrblk_waits_for_source {s : State} {count : Count}
    (hready : s.env.storeReady.admits (2 * s.env.source.length) = true)
    (hshort : s.env.source.length < count.toNat) (addr : Loc) (wdata : Data) :
    (commandRule 0x7 addr wdata count s).state =
      { writtenBy 0x7 addr wdata count s.env.source s with
        x := { (writtenBy 0x7 addr wdata count s.env.source s).x with ph := .fetch }, inFlight := some .source } := by
  have hoffers : (accept 0x7 addr wdata count s).offers true (s.env.source ++ []) :=
    accept_offers_source 0x7 addr wdata count s (by rw [List.append_nil])
  have hsource : (writtenBy 0x7 addr wdata count s.env.source s).env.source = [] := by
    rw [writtenBy_source]
    exact List.drop_length
  obtain ⟨more, hmore⟩ : ∃ more, (byteCount 0x7 count).toNat = s.env.source.length + (more + 1) :=
    Nat.exists_eq_add_of_lt hshort
  have hwent := (repeatBytes_writeByte hoffers hready).1
  have hwaits : writeByte true ((accept 0x7 addr wdata count s).wroteAll true s.env.source) = _ :=
    writeByte_waits_for_source hsource
  have hblock : isBlock 0x7 = true := rfl
  rw [commandRule_of_isWrite rfl, hmore, hblock, repeatBytes_add, hwent, Progress.went_andThen, repeatBytes_succ, hwaits,
    Progress.waits_andThen, Progress.waits_andThen]
  rfl

/-- Settles O53: the bytes supplied are written, and the fetch of the next one finds the source stream empty. -/
theorem blockWriteWaitsForItsSource : Obligations.BlockWriteWaitsForItsSource := by
  intro addr wdata count s hok hstore hshort
  refine ⟨_, (exec_eq_commandRule _ s).trans
    (congrArg _ (wrblk_waits_for_source (by rw [hstore]; rfl) hshort addr wdata)), rfl, writtenBy_index, rfl, ?_,
    storedAt_of_storedByte (writtenBy_read hok), writtenBy_history hok⟩
  exact writtenBy_source.trans List.drop_length

end Sys2Proof.Machine
end

section
/-! What ends a command early, and what a run cannot undo (60_exceptions.md): the step of the machine always answers a next state,
a refused mark stays, a Controller that waits stays where it is, and a reset, a power loss above all, is never dropped. -/

namespace Sys2Proof.Machine

open Sys2Proof

/-! ### The step of the machine -/

/-- What one step of the machine leads to: one case for each branch of `step`. -/
inductive StepsTo (s : State) : State → Prop where
  | reset {c : ResetCause} (hline : s.env.resetLine = some c) : StepsTo s (performReset c s)
  | stays (hline : s.env.resetLine = none) (hidle : s.x.ph = .idle) (hreq : s.env.requests = []) : StepsTo s s
  | command {r : Request} {rest : List Request} (hline : s.env.resetLine = none) (hidle : s.x.ph = .idle)
      (hreq : s.env.requests = r :: rest) :
      StepsTo s (commandRule r.cmd r.addr r.wdata r.count (takeRequest r rest s)).state
  | resumes (hline : s.env.resetLine = none) (hbusy : s.x.ph ≠ .idle) : StepsTo s (resume (resumeFuel s) s)

theorem step_of_reset {s : State} {c : ResetCause} (hline : s.env.resetLine = some c) :
    step s = .next (performReset c s) := by
  simp [step, hline]

/-- The step answers a next state in every branch, so there is no fault and no refusal (60_exceptions.md R160). -/
theorem step_stepsTo (s : State) : ∃ t, step s = .next t ∧ StepsTo s t := by
  cases hline : s.env.resetLine with
  | some c => exact ⟨_, step_of_reset hline, .reset hline⟩
  | none =>
    by_cases hidle : s.x.ph = .idle
    · cases hreq : s.env.requests with
      | nil => exact ⟨s, by simp [step, hline, hidle, hreq], .stays hline hidle hreq⟩
      | cons r rest =>
        exact ⟨_, (step_of_request hline hidle hreq).trans (exec_decodeRequest ..), .command hline hidle hreq⟩
    · exact ⟨_, by simp [step, hline, hidle], .resumes hline hidle⟩

/-- Settles O35: every arm of `exec` is the one rule of the commands, and every branch of the step has its next state. -/
theorem nothingFaultsOrRefuses : Obligations.NothingFaultsOrRefuses := by
  refine ⟨fun i s => ⟨_, exec_eq_commandRule i s⟩, fun s => ?_⟩
  obtain ⟨t, ht, -⟩ := step_stepsTo s
  exact ⟨t, ht⟩

/-! ### The refused mark (R162) -/

section Mark
variable {s : State} {m : RefusedMark}

/-- Acceptance sets a mark only where none was. -/
theorem admitted_keeps_mark (h : s.mark = some m) (cmd : CmdCode) (addr : Loc) (wdata : Data) (count : Count) :
    (admitted cmd addr wdata count s).mark = some m := by
  unfold admitted markOnAccept
  split
  · simp [h]
  · split
    · simp [noteInit_eq, h]
    · exact h

theorem commandRule_keeps_mark (h : s.mark = some m) (cmd : CmdCode) (addr : Loc) (wdata : Data) (count : Count) :
    (commandRule cmd addr wdata count s).state.mark = some m :=
  (commandRule_sameCommand cmd addr wdata count s).mark.trans (admitted_keeps_mark h ..)

theorem acceptStage_keeps_mark (h : s.mark = some m) : (acceptStage s).state.mark = some m := by
  unfold acceptStage
  split
  · exact h
  · rename_i r rest _
    exact admitted_keeps_mark (s := takeRequest r rest s) h ..

theorem tick_keeps_mark (h : s.mark = some m) : (tick s).state.mark = some m := by
  cases hline : s.env.resetLine with
  | some c => rw [tick_reset hline]; exact h
  | none =>
    by_cases hidle : s.x.ph = .idle
    · rw [tick_idle hline hidle]
      exact acceptStage_keeps_mark h
    · exact (tick_sameCommand hline hidle).mark.trans h

theorem envMove_keeps_mark (h : s.mark = some m) (move : EnvMove) : (envMove move s).mark = some m := by
  cases move with
  | foreignWrite i w => simp [envMove_foreignWrite, h]
  | _ => exact h

theorem StepsTo.keeps_mark {t : State} (hst : StepsTo s t) (h : s.mark = some m) : t.mark = some m := by
  cases hst with
  | reset | stays => exact h
  | command => exact commandRule_keeps_mark (s := takeRequest _ _ s) h ..
  | resumes => exact resume_keeps (P := fun u => u.mark = some m) (fun _ => tick_keeps_mark) _ s h

end Mark

/-- Settles O47: Controller steps, moves of the other agents and the step of the machine each keep a mark that is set. -/
theorem refusedMarkStays : Obligations.RefusedMarkStays := by
  intro acts s m h
  refine ⟨runActs_keeps (P := fun u => u.mark = some m) (fun a u hu => ?_) acts s h, ?_⟩
  · cases a with
    | controller => exact tick_keeps_mark hu
    | env move => exact envMove_keeps_mark hu move
  · obtain ⟨t, ht, hst⟩ := step_stepsTo s
    exact ⟨t, ht, hst.keeps_mark h⟩

/-! ### Waiting for the other agent (R173) -/

/-- It came to a wait. -/
def Progress.Blocked (p : Progress) : Prop := ∃ t, p = .waits t

@[simp] theorem Progress.blocked_waits (s : State) : (Progress.waits s).Blocked := ⟨s, rfl⟩
@[simp] theorem Progress.not_blocked_went (s : State) : ¬ (Progress.went s).Blocked := by
  rintro ⟨t, h⟩
  cases h

@[simp] theorem Progress.blocked_enter (p : Progress) (next : State → Phase) : (p.enter next).Blocked ↔ p.Blocked := by
  cases p <;> simp

@[simp] theorem blocked_andThen_assembleByte (p : Progress) : (p.andThen assembleByte).Blocked ↔ p.Blocked := by
  cases p <;> simp [assembleByte]

/-- A stage that goes on where its agent answers, and waits where it does not, waits exactly for a spent agent. -/
theorem blocked_iff_spent {r : Readiness} {p : Progress} (hwaits : r.take = none → ∃ t, p = .waits t)
    (hwent : ∀ r', r.take = some r' → ∃ t, p = .went t) : p.Blocked ↔ r = .times 0 := by
  rw [← Readiness.take_eq_none]
  cases hr : r.take with
  | none => exact iff_of_true (hwaits hr) rfl
  | some r' =>
    obtain ⟨t, rfl⟩ := hwent r' hr
    simp

section StagesBlocked
variable (s : State)

theorem initStage_blocked_iff : (initStage s).Blocked ↔ s.env.storeReady = .times 0 :=
  blocked_iff_spent (fun h => ⟨_, initStage_waits h⟩) fun _ h => ⟨_, initStage_went h⟩

theorem rmwRead_blocked_iff : (rmwRead s).Blocked ↔ s.env.storeReady = .times 0 :=
  blocked_iff_spent (fun h => ⟨_, rmwRead_waits h⟩) fun _ h => ⟨_, rmwRead_went h⟩

theorem rmwWrite_blocked_iff : (rmwWrite s).Blocked ↔ s.env.storeReady = .times 0 :=
  blocked_iff_spent (fun h => ⟨_, rmwWrite_waits h⟩) fun _ h => ⟨_, rmwWrite_went h⟩

theorem readStage_blocked_iff : (readStage s).Blocked ↔ s.env.storeReady = .times 0 :=
  blocked_iff_spent (fun h => ⟨_, readStage_waits h⟩) fun _ h => ⟨_, readStage_went h⟩

theorem deliverByte_blocked_iff : (deliverByte s).Blocked ↔ s.env.dstReady = .times 0 :=
  blocked_iff_spent (fun h => ⟨_, deliverByte_waits h⟩) fun _ h => ⟨_, deliverByte_went h⟩

theorem respond_blocked_iff (d : Data) (ok : Bool) : (respond d ok s).Blocked ↔ s.env.rspReady = .times 0 :=
  blocked_iff_spent (fun h => ⟨_, respond_waits h⟩) fun _ h => ⟨_, respond_went h⟩

theorem acceptStage_blocked_iff : (acceptStage s).Blocked ↔ s.env.requests = [] := by
  unfold acceptStage
  cases s.env.requests <;> simp

theorem fetchPhase_blocked_iff : (fetchPhase s).Blocked ↔ s.x.op = 0x7 ∧ s.env.source = [] := by
  rw [fetchPhase, Progress.blocked_enter]
  split
  · rename_i h7
    cases hs : s.env.source with
    | nil => simp [fetchSource_waits hs, h7]
    | cons b rest => simp [fetchSource_went hs]
  · rename_i h7
    exact iff_of_false (Progress.not_blocked_went _) fun h => h7 h.1

theorem readPhase_blocked_iff : (readPhase s).Blocked ↔ s.env.storeReady = .times 0 := by
  unfold readPhase
  split <;> simp [readStage_blocked_iff]

end StagesBlocked

/-- The state a wait leaves differs in the transfer in progress alone, and waits again. -/
theorem tick_waits_state {s t : State} (hline : s.env.resetLine = none) (h : tick s = .waits t) :
    t = { s with inFlight := if s.x.ph = .idle then s.inFlight else phaseChannel s.x } ∧ tick t = .waits t := by
  by_cases hidle : s.x.ph = .idle
  · rw [if_pos hidle]
    obtain rfl : t = s := by
      rw [tick_idle hline hidle, acceptStage] at h
      split at h
      · cases h; rfl
      · cases h
    exact ⟨rfl, h⟩
  · rw [if_neg hidle]
    rcases tick_cases hline hidle with ⟨u, hu, -⟩ | ⟨c, hc, hwait⟩
    · cases hu.symm.trans h
    · cases hwait.symm.trans h
      exact ⟨by rw [hc], by rw [tick_inFlight hline hc, hwait]⟩

/-- Settles O49: the step of each phase is its stage, which waits exactly where its agent does not answer. -/
theorem controllerWaitsExactlyForTheOtherAgent : Obligations.ControllerWaitsExactlyForTheOtherAgent := by
  refine fun s hline => ⟨?_, fun t => tick_waits_state hline⟩
  change (tick s).Blocked ↔ _
  cases hp : s.x.ph with
  | idle => simp [tick_idle hline hp, acceptStage_blocked_iff]
  | init => simp [tick_init hline hp, initStage_blocked_iff]
  | fetch => simp [tick_fetch hline hp, fetchPhase_blocked_iff]
  | rmwRd => simp [tick_rmwRd hline hp, rmwRead_blocked_iff]
  | rmwWr => simp [tick_rmwWr hline hp, rmwWrite_blocked_iff]
  | rd => simp [tick_rd hline hp, readPhase_blocked_iff]
  | dst => simp [tick_dst hline hp, deliverByte_blocked_iff]
  | resp => simp [tick_resp hline hp, respond_blocked_iff]

/-! ### Reset and power loss (R164, R172) -/

theorem memAfterReset_of_no_write {s : State} (h : s.writeInFlight = false) : s.memAfterReset = s.store.mem := by
  simp [State.memAfterReset, h]

/-- Settles O54: the step and the Controller step are both the reset, which changes no more than it says. -/
theorem resetAbandonsTheCommand : Obligations.ResetAbandonsTheCommand := fun _ hline =>
  ⟨_, step_of_reset hline, tick_reset hline, rfl, rfl, rfl, rfl, rfl, rfl, rfl, memAfterReset_of_no_write⟩

/-- A power loss that is pending stays so through any moves of the other agents. -/
theorem runActs_moves_powerLoss {s : State} (h : s.env.resetLine = some .powerLoss) (moves : List EnvMove) :
    (runActs (moves.map .env) s).env.resetLine = some .powerLoss := by
  induction moves generalizing s with
  | nil => exact h
  | cons m moves ih => exact ih (envMove_resetLine_powerLoss h m)

/-- Two resets in turn are the one that `pendReset` joins them to, but for the count of draws: after the first no store write is
in flight, so the second leaves the bytes alone. -/
theorem performReset_performReset (c c' : ResetCause) (s : State) :
    performReset c' (performReset c s) =
      { performReset (pendReset (some c) c') s with draws := (performReset c' (performReset c s)).draws } := by
  cases c <;> cases c' <;> rfl

/-- Settles O58: a pending power loss is still pending at the step, which takes it; two causes are one, joined by `pendReset`. -/
theorem powerLossIsNeverDropped : Obligations.PowerLossIsNeverDropped := by
  refine ⟨fun moves s => ?_, fun c c' s d hline => ?_⟩
  · have hpending : (runActs (moves.map .env) (envMove (.assertReset .powerLoss) s)).env.resetLine = some .powerLoss :=
      runActs_moves_powerLoss (by simp [envMove]) moves
    exact ⟨_, _, rfl, step_of_reset hpending, tick_reset hpending, rfl, rfl, rfl, rfl, rfl⟩
  · have hpending : (envMove (.assertReset c') (envMove (.assertReset c) s)).env.resetLine =
        some (pendReset (some c) c') := by
      simp [envMove, hline]
    rw [tick_reset hpending, performReset_performReset]
    rfl

/-! ### A second store master (R189) -/

/-- Each offset of a cell that was written reads its lane of the word (20_memory.md R52, R60). -/
theorem read_writeCell_of_wordIndex (m : Memory) {off : Offset} {i : WordIndex} (h : wordIndex off = i) (w : CellWord) :
    (m.writeCell i w).read off.toNat = laneByte off w := by
  rw [← laneByte_cell, h, Memory.cell_writeCell_same]

/-- The step of RMW_WR on an OK store that answers leaves the cell the merge of the word read before, whatever it held. -/
theorem tick_rmwWr_puts_back {s : State} (hok : s.store.status = .ok) (hp : s.x.ph = .rmwWr)
    (hline : s.env.resetLine = none) (hready : s.env.storeReady.admits 1 = true) :
    ∃ t, tick s = .went t ∧ t.mark = s.mark ∧ t.store.mem.read s.currentOffset.toNat = s.x.cur ∧
      t.store.mem.read (sibling s.currentOffset).toNat = laneByte (sibling s.currentOffset) s.x.old := by
  obtain ⟨r, hr⟩ := Readiness.take_eq_some.mpr hready
  rw [tick_rmwWr hline hp, rmwWrite_went hr, Progress.went_enter]
  refine ⟨_, rfl, rfl, ?_, ?_⟩ <;> simp only [State.enter_store, State.memAfterWrite, hok]
  · exact (read_writeCell_of_wordIndex _ rfl _).trans (laneByte_mergeByte ..)
  · exact (read_writeCell_of_wordIndex _ (wordIndex_sibling _) _).trans (laneByte_sibling_mergeByte ..)

/-- Settles O60: the other agent's write leaves the registers, so the step puts back the word read before it. -/
theorem foreignWriteToTheSiblingIsLost : Obligations.ForeignWriteToTheSiblingIsLost := by
  intro s w hok hp hline hready
  have hbusy : s.x.ph ≠ .idle := by simp [hp]
  rw [envMove_foreignWrite, commandInFlight_busy hbusy]
  exact tick_rmwWr_puts_back hok hp hline hready

end Sys2Proof.Machine
end

section
/-! Reset and what follows it (70_reset_and_hazards.md R183 to R185): the cell of a store write that a reset stops, what power loss
leaves of the store, and the quiet of an idle Controller. -/

namespace Sys2Proof.Machine

open Sys2Proof

/-! ### IDLE without a request (R183) -/

/-- Without a request and without a reset an idle Controller has nothing to do: the step stays, the Controller step waits. -/
theorem idle_without_request_stays {s : State} (hidle : s.x.ph = .idle) (hreq : s.env.requests = [])
    (hline : s.env.resetLine = none) : step s = .next s ∧ tick s = .waits s := by
  constructor
  · simp only [step, hline, hidle, if_true, hreq]
  · simp only [tick_idle hline hidle, acceptStage, hreq]

/-- Settles O59: a reset of either kind leaves the Controller IDLE with the reset input released, and the requests as they were. -/
theorem idleWithoutARequestStays : Obligations.IdleWithoutARequestStays :=
  ⟨fun _ => idle_without_request_stays, fun s c hreq =>
    (idle_without_request_stays (s := performReset c s) rfl hreq rfl).1⟩

/-! ### A store write in flight (R184) -/

/-- A reset that stops a store write to an OK store leaves a draw as the word of its cell. -/
theorem memAfterReset_of_write {s : State} (hwrite : s.writeInFlight = true) (hok : s.store.status = .ok) :
    s.memAfterReset = s.store.mem.writeCell (wordIndex s.currentOffset) (Config.draw s.draws) := by
  simp only [State.memAfterReset, hwrite, if_true, State.memAfterWrite, hok]

/-- Writing a cell leaves the bytes of every other cell (20_memory.md R52). -/
theorem read_writeCell_outside (m : Memory) {i : WordIndex} (w : CellWord) {a : Nat} (h : a / 2 ≠ i.toNat) :
    (m.writeCell i w).read a = m.read a := by
  rw [Memory.read_writeCell, if_neg (by omega), if_neg (by omega)]

/-- Settles O55: the bytes after the reset are those before it with a draw written to the cell of the byte in flight. -/
theorem resetDuringAStoreWriteDrawsItsCell : Obligations.ResetDuringAStoreWriteDrawsItsCell := by
  intro s hline hp hport hok
  have hmem : (performReset .blockReset s).store.mem =
      s.store.mem.writeCell (wordIndex s.currentOffset) (Config.draw s.draws) :=
    memAfterReset_of_write (by simp [State.writeInFlight, hp, hport]) hok
  refine ⟨_, step_of_reset hline, ?_, Nat.lt_succ_self _, fun a ha => ?_⟩
  · rw [hmem]
    exact Memory.cell_writeCell_same ..
  · rw [hmem]
    exact read_writeCell_outside _ _ ha

/-! ### Power loss (R185) -/

/-- Power loss is a block reset but for the store's status and the note of an INIT. -/
theorem performReset_powerLoss (s : State) :
    performReset .powerLoss s =
      { performReset .blockReset s with
        store := { (performReset .blockReset s).store with status := .uninit }, initSeen := false } := rfl

/-- A reset does not look at the cause on its input: the step passes it. -/
theorem performReset_with_resetLine (c : ResetCause) (line : Option ResetCause) (s : State) :
    performReset c { s with env := { s.env with resetLine := line } } = performReset c s := rfl

/-- Settles O56: power loss leaves the store UNINIT and no INIT seen, and is the block reset in everything else. -/
theorem powerLossLeavesTheStoreUninitialised : Obligations.PowerLossLeavesTheStoreUninitialised := by
  intro s hline
  refine ⟨_, _, step_of_reset hline, step_of_reset rfl, ?_⟩
  rw [performReset_with_resetLine, performReset_powerLoss]
  exact ⟨rfl, rfl, rfl, rfl, rfl, rfl, rfl, rfl⟩

end Sys2Proof.Machine
end

section
/-! The request channel (70_reset_and_hazards.md R188): only an idle Controller takes a request, so the requests that wait and
those taken stay the same while a command is in flight. -/

namespace Sys2Proof.Machine

open Sys2Proof

/-- The requests taken in a list of events, in order (00_scope.md R14). -/
def acceptedRequests (es : List Event) : List Request :=
  es.filterMap fun e =>
    match e with
    | .request r => some r
    | _ => none

theorem acceptedRequests_append (es es' : List Event) :
    acceptedRequests (es ++ es') = acceptedRequests es ++ acceptedRequests es' := List.filterMap_append

theorem request_notMem_of_acceptedRequests_eq_nil {es : List Event} (h : acceptedRequests es = []) (r : Request) :
    Event.request r ∉ es := fun hr => by
  have hmem : r ∈ acceptedRequests es := List.mem_filterMap.mpr ⟨_, hr, rfl⟩
  rw [h] at hmem
  exact List.not_mem_nil hmem

/-- The request channel: the requests that wait and those that were taken. -/
def State.requestChannel (s : State) : List Request × List Request := (s.env.requests, acceptedRequests s.history)

/-- A transfer that is no acceptance, or none at all, leaves the request channel. -/
theorem requestChannel_eq {s t : State} {es : List Event} (hreq : t.env.requests = s.env.requests)
    (hhist : t.history = s.history ++ es) (hes : acceptedRequests es = []) : t.requestChannel = s.requestChannel := by
  rw [State.requestChannel, State.requestChannel, hreq, hhist, acceptedRequests_append, hes, List.append_nil]

/-! ### The stages -/

@[simp] theorem requestChannel_enter (p : Progress) (next : State → Phase) :
    (p.enter next).state.requestChannel = p.state.requestChannel := by
  cases p <;> rfl

section Stages
variable (s : State)

@[simp] theorem initStage_requestChannel : (initStage s).state.requestChannel = s.requestChannel := by
  cases h : s.env.storeReady.take with
  | none => rw [initStage_waits h]; rfl
  | some r =>
    rw [initStage_went h, List.append_assoc]
    refine requestChannel_eq rfl rfl ?_
    cases s.env.initAnswer.isOk <;> rfl

@[simp] theorem fetchSource_requestChannel : (fetchSource s).state.requestChannel = s.requestChannel := by
  cases h : s.env.source with
  | nil => rw [fetchSource_waits h]; rfl
  | cons b rest => rw [fetchSource_went h]; exact requestChannel_eq rfl rfl rfl

@[simp] theorem rmwRead_requestChannel : (rmwRead s).state.requestChannel = s.requestChannel := by
  cases h : s.env.storeReady.take with
  | none => rw [rmwRead_waits h]; rfl
  | some r => rw [rmwRead_went h]; exact requestChannel_eq rfl rfl rfl

@[simp] theorem rmwWrite_requestChannel : (rmwWrite s).state.requestChannel = s.requestChannel := by
  cases h : s.env.storeReady.take with
  | none => rw [rmwWrite_waits h]; rfl
  | some r => rw [rmwWrite_went h]; exact requestChannel_eq rfl rfl rfl

@[simp] theorem readStage_requestChannel : (readStage s).state.requestChannel = s.requestChannel := by
  cases h : s.env.storeReady.take with
  | none => rw [readStage_waits h]; rfl
  | some r => rw [readStage_went h]; exact requestChannel_eq rfl rfl rfl

@[simp] theorem deliverByte_requestChannel : (deliverByte s).state.requestChannel = s.requestChannel := by
  cases h : s.env.dstReady.take with
  | none => rw [deliverByte_waits h]; rfl
  | some r => rw [deliverByte_went h]; exact requestChannel_eq rfl rfl rfl

@[simp] theorem respond_requestChannel (d : Data) (ok : Bool) :
    (respond d ok s).state.requestChannel = s.requestChannel := by
  cases h : s.env.rspReady.take with
  | none => rw [respond_waits h]; rfl
  | some r => rw [respond_went h]; exact requestChannel_eq rfl rfl rfl

@[simp] theorem fetchPhase_requestChannel : (fetchPhase s).state.requestChannel = s.requestChannel := by
  rw [fetchPhase, requestChannel_enter]
  split
  · exact fetchSource_requestChannel s
  · rfl

@[simp] theorem readPhase_requestChannel : (readPhase s).state.requestChannel = s.requestChannel := by
  unfold readPhase
  split
  · rw [requestChannel_enter, readStage_requestChannel]
  · rw [requestChannel_enter]
    exact Progress.andThen_keeps (P := fun t => t.requestChannel = s.requestChannel) (readStage_requestChannel s)
      fun _ ht => ht

end Stages

/-! ### Steps with a command in flight -/

/-- Every row of the phase table but IDLE leaves the request channel (10_state.md R24). -/
theorem tick_requestChannel {s : State} (hline : s.env.resetLine = none) (hbusy : s.x.ph ≠ .idle) :
    (tick s).state.requestChannel = s.requestChannel := by
  cases hp : s.x.ph with
  | idle => exact absurd hp hbusy
  | init => simp [tick_init hline hp]
  | fetch => simp [tick_fetch hline hp]
  | rmwRd => simp [tick_rmwRd hline hp]
  | rmwWr => simp [tick_rmwWr hline hp]
  | rd => simp [tick_rd hline hp]
  | dst => simp [tick_dst hline hp]
  | resp => simp [tick_resp hline hp]

/-- `resume` stops at the response, so it makes no step of an idle Controller. -/
theorem resume_requestChannel (fuel : Nat) {s : State} (hline : s.env.resetLine = none) (hbusy : s.x.ph ≠ .idle) :
    (resume fuel s).requestChannel = s.requestChannel := by
  induction fuel generalizing s with
  | zero => rfl
  | succ fuel ih =>
    have hchannel := tick_requestChannel hline hbusy
    have hsame := tick_sameCommand hline hbusy
    cases ht : tick s with
    | waits t =>
      rw [ht] at hchannel
      rwa [resume_of_waits ht]
    | went t =>
      rw [ht] at hchannel hsame
      by_cases hidle : t.x.ph = .idle
      · rwa [resume_of_idle ht hidle]
      · rw [resume_of_went ht hidle]
        exact (ih (hsame.resetLine.trans hline) hidle).trans hchannel

theorem StepsTo.requestChannel {s t : State} (hst : StepsTo s t) (hbusy : s.x.ph ≠ .idle) :
    t.requestChannel = s.requestChannel := by
  cases hst with
  | reset => rfl
  | stays _ hidle | command _ hidle => exact absurd hidle hbusy
  | resumes hline => exact resume_requestChannel _ hline hbusy

theorem StepsTo.history_grows {s t : State} (hst : StepsTo s t) (hbusy : s.x.ph ≠ .idle) : s.history <+: t.history := by
  cases hst with
  | reset => exact List.prefix_rfl
  | stays _ hidle | command _ hidle => exact absurd hidle hbusy
  | resumes =>
    exact resume_keeps (P := fun u => s.history <+: u.history) (fun u hu => hu.trans (tick_history_grows u)) _ s
      List.prefix_rfl

/-- Settles O50: the step leaves the request channel and adds to the history, so it adds no acceptance. -/
theorem waitingRequestsAreKept : Obligations.WaitingRequestsAreKept := by
  intro s hbusy
  obtain ⟨t, ht, hst⟩ := step_stepsTo s
  obtain ⟨es, hes⟩ := hst.history_grows hbusy
  obtain ⟨hwaiting, htaken⟩ := Prod.mk.inj (hst.requestChannel hbusy)
  rw [← hes, acceptedRequests_append, List.append_right_eq_self] at htaken
  exact ⟨t, ht, hwaiting, es, hes.symm, request_notMem_of_acceptedRequests_eq_nil htaken⟩

end Sys2Proof.Machine
end

section
/-! The transfers of a whole command (70_reset_and_hazards.md R195): with every agent ready a command completes, and how many
transfers of each kind it makes is read off the fields of its code and its number of bytes. -/

namespace Sys2Proof.Machine

open Sys2Proof

/-! ### Counting events -/

/-- The counts of two lists of events together. -/
def TransferCounts.plus (a b : TransferCounts) : TransferCounts :=
  ⟨a.reads + b.reads, a.writes + b.writes, a.inits + b.inits, a.streams + b.streams, a.responses + b.responses⟩

theorem countEvent_plus (e : Event) (a b : TransferCounts) : countEvent e (a.plus b) = (countEvent e a).plus b := by
  cases e <;> simp [countEvent, TransferCounts.plus, Nat.add_right_comm]

theorem countEvents_append (es es' : List Event) :
    countEvents (es ++ es') = (countEvents es).plus (countEvents es') := by
  induction es with
  | nil => simp [countEvents, TransferCounts.plus]
  | cons e es ih =>
    rw [List.cons_append, countEvents, countEvents, ih, countEvent_plus]

theorem diagCount_append (es es' : List Event) : diagCount (es ++ es') = diagCount es + diagCount es' := by
  rw [diagCount, List.filter_append, List.length_append]
  rfl

theorem countEvents_diagUnlessOk (ok : Bool) : countEvents (diagUnlessOk ok) = ⟨0, 0, 0, 0, 0⟩ := by
  cases ok <;> rfl

theorem diagCount_diagUnlessOk (c : StatusCode) :
    diagCount (diagUnlessOk c.isOk) = if c.bits ≠ Config.storeOk then 1 else 0 := by
  rw [StatusCode.isOk_eq]
  by_cases h : c.bits = Config.storeOk <;> simp [h] <;> rfl

/-- From `s` to `t` the block made transfers of these counts, and so many diagnostic events. -/
def Makes (c : TransferCounts) (diags : Nat) (s t : State) : Prop :=
  ∃ es, t.history = s.history ++ es ∧ countEvents es = c ∧ diagCount es = diags

theorem Makes.trans {c c' : TransferCounts} {d d' : Nat} {s t u : State} (h : Makes c d s t) (h' : Makes c' d' t u) :
    Makes (c.plus c') (d + d') s u := by
  obtain ⟨es, hes, rfl, rfl⟩ := h
  obtain ⟨es', hes', rfl, rfl⟩ := h'
  exact ⟨es ++ es', by rw [hes', hes, List.append_assoc], countEvents_append es es', diagCount_append es es'⟩

/-! ### The bytes of a command -/

/-- The transfers of `n` bytes read: a store read each, and the delivery of each by a block read. -/
theorem gotAll_makes (s : State) (block : Bool) (n : Nat) :
    Makes ⟨n, 0, 0, if block then n else 0, 0⟩ 0 s (s.gotAll block n) := by
  induction n with
  | zero => exact ⟨[], (List.append_nil _).symm, by cases block <;> rfl, rfl⟩
  | succ n ih =>
    have hbyte : Makes ⟨1, 0, 0, if block then 1 else 0, 0⟩ 0 (s.gotAll block n) ((s.gotAll block n).got block) :=
      ⟨_, rfl, by cases block <;> rfl, by cases block <;> rfl⟩
    rw [gotAll_succ]
    cases block <;> exact ih.trans hbyte

/-- The transfers of `bytes` written: a store read and a store write each, and each taken from the source stream by a block
write. -/
theorem wroteAll_makes (s : State) (block : Bool) (bytes : List Byte) :
    Makes ⟨bytes.length, bytes.length, 0, if block then bytes.length else 0, 0⟩ 0 s (s.wroteAll block bytes) := by
  induction bytes using List.reverseRecOn with
  | nil => exact ⟨[], (List.append_nil _).symm, by cases block <;> rfl, rfl⟩
  | append_singleton bs b ih =>
    have hbyte : Makes ⟨1, 1, 0, if block then 1 else 0, 0⟩ 0 (s.wroteAll block bs) ((s.wroteAll block bs).wrote block b) :=
      ⟨_, List.append_assoc .., by cases block <;> rfl, by cases block <;> rfl⟩
    rw [wroteAll_concat, List.length_append, List.length_singleton]
    cases block <;> exact ih.trans hbyte

/-! ### A command to its response -/

/-- A command makes transfers of these counts and so many diagnostic events, and gives its response. -/
def Completes (c : TransferCounts) (diags : Nat) (s : State) (p : Progress) : Prop :=
  p.state.x.ph = .idle ∧ Makes c diags s p.state

theorem respond_completes {c : TransferCounts} {diags : Nat} {s t : State} (h : Makes c diags s t)
    (hready : t.env.rspReady = .always) (rdata : Data) (initOk : Bool) :
    Completes (c.plus ⟨0, 0, 0, 0, 1⟩) diags s (respond rdata initOk t) := by
  have hwent := respond_went (d := rdata) (ok := initOk) (s := t) (r := .always) (by rw [hready]; rfl)
  have hresponse : Makes ⟨0, 0, 0, 0, 1⟩ 0 t (respond rdata initOk t).state :=
    ⟨_, respond_history_always hready rdata initOk, rfl, rfl⟩
  exact ⟨by rw [hwent]; rfl, h.trans hresponse⟩

/-- The row of R195 by the fields of the code (30_encoding.md R81), for a command of `n` bytes. -/
def rowOf (cmd : CmdCode) (n : Nat) : TransferCounts :=
  ⟨n, if isWrite cmd then n else 0, if isInit cmd then 1 else 0, if isBlock cmd then n else 0, 1⟩

/-- The table of R195, one row per command, says no more than the fields of the codes. -/
theorem expectedCounts_eq (i : Instr) :
    expectedCounts i = rowOf i.code (byteCount i.code (encodeRequest i).count).toNat := by
  cases i <;> simp only [Instr.code, encodeRequest] <;> rfl

theorem rowOf_data {cmd : CmdCode} (h : isSystem cmd = false) (n : Nat) :
    rowOf cmd n = ⟨n, if isWrite cmd then n else 0, 0, if isBlock cmd then n else 0, 1⟩ := by
  have hinit : ¬ isInit cmd = true := fun hi => by simp [isSystem_of_isInit hi] at h
  rw [rowOf, if_neg hinit]

section Kinds
variable {cmd : CmdCode} {s : State} (addr : Loc) (wdata : Data) (count : Count)

theorem reserved_completes (hres : isReserved cmd = true) (hs : s.allReady) :
    Completes (rowOf cmd (byteCount cmd count).toNat) 0 s (commandRule cmd addr wdata count s) := by
  obtain ⟨-, -, hrsp⟩ := hs
  obtain ⟨hinit, hsystem, -⟩ := reserved_fields hres
  have haccept : Makes ⟨0, 0, 0, 0, 0⟩ 0 s (raiseRefuse .reservedCommand (some cmd) (accept cmd addr wdata count s)) :=
    ⟨[], by simp, rfl, rfl⟩
  have hrow : rowOf cmd (byteCount cmd count).toNat = ⟨0, 0, 0, 0, 1⟩ := by
    simp [rowOf, byteCount_of_isSystem hsystem, hinit]
  rw [commandRule_of_isReserved hres, hrow]
  exact respond_completes haccept (by simpa using hrsp) ..

/-- INIT makes one store init, and the diagnostic where the code answered is not `STORE_OK` (40_init.md R100). -/
theorem init_completes (hs : s.allReady) :
    Completes (rowOf 0x8 (byteCount 0x8 count).toNat) (if s.env.initAnswer.bits ≠ Config.storeOk then 1 else 0) s
      (commandRule 0x8 addr wdata count s) := by
  obtain ⟨hstore, -, hrsp⟩ := hs
  rw [commandRule_init, initStage_went (r := .always) (by simp [hstore, Readiness.take]), Progress.went_andThen]
  refine respond_completes (c := ⟨0, 0, 1, 0, 0⟩)
    ⟨.storeInit s.env.initAnswer :: diagUnlessOk s.env.initAnswer.isOk, by simp, ?_, diagCount_diagUnlessOk _⟩
    (by simpa using hrsp) ..
  rw [countEvents, countEvents_diagUnlessOk]
  rfl

theorem read_completes (hsystem : isSystem cmd = false) (hwrite : isWrite cmd = false) (hs : s.allReady) :
    Completes (rowOf cmd (byteCount cmd count).toNat) 0 s (commandRule cmd addr wdata count s) := by
  have ⟨_, _, hrsp⟩ := hs
  have hbytes : Makes _ 0 s (readBy cmd addr wdata count (byteCount cmd count).toNat s) :=
    gotAll_makes (accept cmd addr wdata count s) (isBlock cmd) _
  have hready : (readBy cmd addr wdata count (byteCount cmd count).toNat s).env.rspReady = .always :=
    (readBy_rspReady ..).trans hrsp
  rw [commandRule_of_read hsystem hwrite addr wdata rfl (answersReads_of_allReady hs _ _), rowOf_data hsystem, hwrite]
  exact respond_completes hbytes hready ..

theorem Writes.makesItsTransfers {bytes : List Byte} (h : Writes cmd addr wdata count bytes s) (hs : s.allReady) :
    Completes (rowOf cmd (byteCount cmd count).toNat) 0 s (commandRule cmd addr wdata count s) := by
  obtain ⟨hstore, -, hrsp⟩ := hs
  have hbytes : Makes _ 0 s (writtenBy cmd addr wdata count bytes s) :=
    wroteAll_makes (accept cmd addr wdata count s) (isBlock cmd) bytes
  rw [h.commandRule_eq (by rw [hstore]; rfl), rowOf_data (not_isSystem_of_isWrite h.isWrite), if_pos h.isWrite, ← h.length]
  exact respond_completes hbytes ((writtenBy_rspReady ..).trans hrsp) ..

/-- A write command finds its bytes: in the write data, or for a WRBLK on the source stream. -/
theorem exists_writes (hwrite : isWrite cmd = true) (hsource : cmd = 0x7 → count.toNat ≤ s.env.source.length) :
    ∃ bytes, Writes cmd addr wdata count bytes s := by
  cases hblock : isBlock cmd with
  | false => exact ⟨_, writes_data hwrite hblock rfl addr wdata s⟩
  | true =>
    obtain rfl : cmd = 0x7 := (block_write_iff cmd).mp ⟨hblock, hwrite⟩
    exact ⟨_, writes_source (List.take_prefix count.toNat _) (List.length_take_of_le (hsource rfl)) addr wdata⟩

/-- A code other than INIT's is a reserved one, or that of a read or a write (30_encoding.md R81, R82). -/
theorem not_init_completes (hinit : isInit cmd = false) (hs : s.allReady)
    (hsource : cmd = 0x7 → count.toNat ≤ s.env.source.length) :
    Completes (rowOf cmd (byteCount cmd count).toNat) 0 s (commandRule cmd addr wdata count s) := by
  cases hsystem : isSystem cmd with
  | true => exact reserved_completes addr wdata count (by simp [isReserved, hsystem, hinit]) hs
  | false =>
    cases hwrite : isWrite cmd with
    | false => exact read_completes addr wdata count hsystem hwrite hs
    | true =>
      obtain ⟨bytes, h⟩ := exists_writes addr wdata count hwrite hsource
      exact h.makesItsTransfers addr wdata count hs

theorem commandRule_completes (hs : s.allReady) (hsource : cmd = 0x7 → count.toNat ≤ s.env.source.length) :
    Completes (rowOf cmd (byteCount cmd count).toNat)
      (if cmd = 0x8 ∧ s.env.initAnswer.bits ≠ Config.storeOk then 1 else 0) s (commandRule cmd addr wdata count s) := by
  by_cases hcmd : cmd = 0x8
  · subst hcmd
    rw [if_congr (and_iff_right rfl) rfl rfl]
    exact init_completes addr wdata count hs
  · rw [if_neg fun h => hcmd h.1]
    exact not_init_completes addr wdata count (decide_eq_false hcmd) hs hsource

end Kinds

/-- Settles O34: each kind of command makes its own transfers, and the row of a command is that of its kind. -/
theorem everyCommandMakesItsTransfers : Obligations.EveryCommandMakesItsTransfers := by
  intro i s hs hsource
  have hbytes : i.code = 0x7 → (encodeRequest i).count.toNat ≤ s.env.source.length := by
    cases i with
    | wrblk a w n => exact fun _ => hsource a w n rfl
    | _ => simp [Instr.code]
  obtain ⟨hidle, es, hhist, hcounts, hdiag⟩ :=
    commandRule_completes (encodeRequest i).addr (encodeRequest i).wdata (encodeRequest i).count hs hbytes
  exact ⟨_, es, exec_eq_commandRule i s, hidle, hhist, hcounts.trans (expectedCounts_eq i).symm, hdiag⟩

end Sys2Proof.Machine
end
